-- ==== Sys2Proof/Word.lean ====
section
/-! DEFINITION. The words of the block: bytes of the ADC register bus, 32-bit host words, 64-bit quantities and
binary64 bit patterns (00_scope R8, R10; 20_memory R64, R68). -/

namespace Sys2Proof

/-- A byte: what one BusRead returns, and the smallest addressable unit of the host space. -/
abbrev Byte := BitVec 8

/-- A 32-bit host word, the only width of a host access (20_memory R61). -/
abbrev Word := BitVec 32

/-- A 64-bit integer quantity, two host words wide (20_memory R64). -/
abbrev DWord := BitVec 64

/-- An IEEE 754 binary64 bit pattern: sign bit 63, exponent bits 62:52, fraction bits 51:0 (00_scope R10). -/
abbrev F64 := BitVec 64

/-- A decoded 22-bit byte offset into the host space (20_memory R60). -/
abbrev HostOffset := BitVec 22

end Sys2Proof
end

