-- ==== Sys2Proof/Config.lean ====
section
/-! DEFINITION. What the implementation fixes (00_scope R7) and the free values of the model: opaque constants, with
no body, that a step applies to the draw counter of the state (93_implementation_defined I-2 to I-6, I-15). -/

namespace Sys2Proof.Config

/-- The ID register's constant, the ASCII bytes "NFFT" (10_state R21). -/
def idValue : Word := 0x4E464654

/-- N_MAX: the default of 00_scope R7. A state carries its own N_MAX register, so that statements about every state
cover every capacity. DESIGN CHOICE (log 11), unsafe only for statements about `State.reset`. -/
def nMaxDefault : Word := 4096

/-- POLL_LIMIT at reset (10_state R34). -/
def pollLimitReset : Word := 10000

/-- FREQ_DIV_OFFSET at reset (10_state R35). -/
def freqDivOffsetReset : Word := 2

/-- PI64, the binary64 value nearest pi (00_scope R15). -/
def pi64 : F64 := 0x400921FB54442D18

/-- A NaN: its sign, and its fraction field less one (the fraction of a NaN is not zero, 00_scope R10). -/
structure NanDraw where
  neg : Bool
  frac : Fin 4503599627370495
deriving DecidableEq, Repr, Inhabited

/-- FREE VALUE: the byte the ADC answers, when State lists no answer (20_memory R70, I-2; log 3). -/
opaque adcByte : Nat → Byte

/-- FREE VALUE: `NUM.nan`, the NaN of one binary64 operation (00_scope R12, I-3; log 4). -/
opaque nanDraw : Nat → NanDraw

/-- FREE VALUE: what a host read returns while the block is busy (20_memory R72, I-5; log 5). -/
opaque busyReadWord : Nat → Word

/-- FREE VALUE: what a byte of BUF or PEAK holds that nothing has written since the reset numbered by the first
argument (70_reset_and_hazards R241, I-6; log 6). The second argument is the byte's host offset. -/
opaque powerOnByte : Nat → Nat → Byte

/-- FREE VALUE: the real part of an entry of SCR, in the draw numbered by the first argument (10_state R48, I-15; log 7). -/
opaque scrRe : Nat → Nat → F64

/-- FREE VALUE: the imaginary part of an entry of SCR (10_state R48, I-15; log 7). -/
opaque scrIm : Nat → Nat → F64

end Sys2Proof.Config
end

