-- ==== Sys2Proof/Syntax.lean ====
section
/-! DEFINITION. The commands of the block (30_encoding R92), and the moves of the agents outside the core: host-port
accesses, the platform's reset input, and the core's turns between them (44_command_control R195). -/

namespace Sys2Proof

/-- The six commands, one constructor per row of the opcode map (30_encoding R92). A command word carries no
operand: operands come from the latched parameter set (30_encoding R93). -/
inductive Instr where
  /-- NOP, 44_command_control R196 -/
  | nop
  /-- READ_SAMPLE, 40_sample_reader R118 -/
  | readSample
  /-- ACQUIRE, 41_bias_acquire R137 -/
  | acquire
  /-- TRANSFORM, 42_fft R151 -/
  | transform
  /-- SCAN, 43_peak_scan R173 -/
  | scan
  /-- RUN, 44_command_control R197 -/
  | run
deriving DecidableEq, Repr, Inhabited

/-- One move of the world outside the core. A list of moves is a schedule: every interleaving of host and core is
some list (44_command_control R195, 60_exceptions R222; log 1). -/
inductive Move where
  /-- The core takes one step; nothing outside moves. -/
  | coreTurn
  /-- A host read of `size` bytes at a decoded offset (20_memory R61). -/
  | read (off : HostOffset) (size : Nat)
  /-- A host write of `size` bytes at a decoded offset (20_memory R61). -/
  | write (off : HostOffset) (size : Nat) (v : Word)
  /-- The host's `wait` loop (30_encoding R96): one read of STATUS, tried again after `turns` core steps while BUSY = 1. -/
  | wait (turns : Nat)
  /-- The platform asserts reset (70_reset_and_hazards R243). `inFlight`: a BusRead that the core's next step would
  make has already reached the ADC (R242). -/
  | assertReset (inFlight : Bool)
  /-- The platform releases reset (70_reset_and_hazards R243). -/
  | releaseReset
deriving DecidableEq, Repr, Inhabited

end Sys2Proof
end

