-- ==== Sys2Proof/Machine/State.lean ====
section
/-! DEFINITION. The architectural state of the block as plain data (10_state), the machine right after reset
(70_reset_and_hazards R240, R241), and the reasons a step can stop. -/

namespace Sys2Proof.Machine

/-- A complex value: a pair of binary64 values (00_scope R13). -/
structure Cplx where
  re : F64
  im : F64
deriving DecidableEq, Repr, Inhabited

/-- An entry of the peak table (10_state R47). -/
structure PeakEntry where
  bin : Word
  freq : F64
  mag : F64
deriving DecidableEq, Repr, Inhabited

/-- The fields of STATUS (10_state R22). Its reserved bits read as zero and are not stored. -/
structure Status where
  busy : Bool
  done : Bool
  err : Bool
  dropped : Bool
  errCode : BitVec 4
  errOp : Byte
deriving DecidableEq, Repr, Inhabited

/-- The parameter registers, offsets 0x014 to 0x044 (10_state R27 to R37). The reserved bits of ADC_MAP0 and
ADC_MAP1 read as zero and are not stored. -/
structure Params where
  fftSize : Word
  sampleCount : Word
  sampleRateHz : Word
  biasWindowS : Word
  windowSize : Word
  centerFreqLo : Word
  centerFreqHi : Word
  thresholdLo : Word
  thresholdHi : Word
  pollLimit : Word
  freqDivOffset : Word
  drdyReg : Byte
  drdyBit : BitVec 3
  b2Reg : Byte
  b1Reg : Byte
  b0Reg : Byte
deriving DecidableEq, Repr, Inhabited

/-- The latched parameter set L (10_state R49). -/
structure Latched where
  n : Word
  s : Word
  r : Word
  ws : Word
  w : DWord
  cf : F64
  th : F64
  p : Word
  k : Word
  drdyReg : Byte
  drdyBit : BitVec 3
  b2Reg : Byte
  b1Reg : Byte
  b0Reg : Byte
deriving DecidableEq, Repr, Inhabited

/-- The running sub-operation of RUN (10_state R50). -/
inductive SubOp where
  | acquire
  | transform
  | scan
deriving DecidableEq, Repr, Inhabited

/-- The position inside an operation (10_state R50). `init` is the model's own: the position of ACQUIRE between its
acceptance and its first writes, for which R50 has no name (log 10). `fin` is the spec's END. -/
inductive Phase where
  | init
  | poll
  | readB2
  | readB1
  | readB0
  | store
  | fft
  | scan
  | fin
deriving DecidableEq, Repr, Inhabited

/-- The sequencer tuple (10_state R50), without ACC, which is the register BIAS_ACC (41_bias_acquire R131) and is
stored once, as `State.acc`. `op = none` is IDLE. -/
structure Seq where
  op : Option Instr
  sub : Option SubOp
  i : Nat
  polls : Nat
  phase : Phase
  b2 : Byte
  b1 : Byte
deriving DecidableEq, Repr, Inhabited

/-- One transaction at one of the block's two interfaces (00_scope R3, 20_memory R70). -/
inductive Event where
  /-- The core read a byte of the ADC register bus. -/
  | busRead (reg byte : Byte)
  /-- The host read a word. -/
  | hostRead (off : HostOffset) (v : Word)
  /-- The host wrote a word (dropped and ignored writes are transactions too). -/
  | hostWrite (off : HostOffset) (v : Word)
deriving DecidableEq, Repr, Inhabited

/-- The bytes of the host space that BUF and PEAK occupy, keyed by host offset (20_memory R62, R63), with strictly
rising addresses. A byte that is not listed has not been written since the last reset. -/
abbrev Memory := List Host.Cell

/-- The state of the block (10_state), of its two interfaces, and the model's own inputs and draw counters. -/
structure State where
  /-- The parameter registers (10_state R27 to R37). -/
  par : Params
  /-- INT_EN.DONE_IE (10_state R24). -/
  doneIe : Bool
  /-- STATUS (10_state R22). -/
  status : Status
  /-- ERR_INDEX (10_state R25). -/
  errIndex : Word
  /-- SAMPLE_RAW, bits 23:0 (10_state R38). -/
  sampleRaw : BitVec 24
  /-- SAMPLE_VAL (10_state R39). -/
  sampleVal : Word
  /-- BIAS (10_state R40). -/
  bias : F64
  /-- BIAS_ACC and ACC, one s64 (10_state R41, 41_bias_acquire R131). -/
  acc : DWord
  /-- BIAS_LEN (10_state R42). -/
  biasLen : DWord
  /-- PEAK_COUNT (10_state R43). -/
  peakCount : Word
  /-- N_MAX, read-only (10_state R44). -/
  nMax : Word
  /-- The written bytes of BUF and PEAK (10_state R46, R47). -/
  mem : Memory
  /-- MODEL: which draw the unwritten bytes of BUF and PEAK are (70_reset_and_hazards R241; log 6). -/
  memEpoch : Nat
  /-- SCR: which draw its content is (10_state R48, 42_fft R156; log 7). -/
  scrDraw : Nat
  /-- The latched parameter set L (10_state R49). -/
  latched : Latched
  /-- The sequencer (10_state R50). -/
  seq : Seq
  /-- The reset input is asserted (70_reset_and_hazards R243). -/
  inReset : Bool
  /-- MODEL: the moves still to come from outside the core (log 1). -/
  env : List Move
  /-- MODEL: the bytes the ADC will answer next; when it is empty each answer is a free value (log 3). -/
  adc : List Byte
  /-- The event history, newest first (00_scope R3; log 18). -/
  history : List Event
  /-- MODEL: how many free values have been drawn (log 19). -/
  draws : Nat
deriving DecidableEq, Repr, Inhabited

/-- The machine stops. -/
inductive Fault where
  /-- Raised by the meaning of a command whose sequencer is in a phase that the command's rule does not have
  (10_state R50). No run from reset reaches it. SAFE: the model stops where the spec has no machine (log 15). -/
  | sequencerPhase
deriving DecidableEq, Repr, Inhabited

/-- The model gives no meaning. -/
inductive Refusal where
  /-- Raised by an arm of `exec` that has no meaning yet; no arm is such. SAFE. -/
  | notModelled (mnemonic : String)
  /-- Raised by the host port at an access that is not an aligned 32-bit word: 20_memory R61, "a model marks the state
  refused" (I-1). SAFE. -/
  | hostAccessShape
  /-- Raised by the host port at an access while reset is asserted: 70_reset_and_hazards R243, "a model refuses host
  accesses". SAFE. -/
  | hostAccessInReset
deriving DecidableEq, Repr, Inhabited

/-- STATUS after reset: every field 0 (10_state R22). -/
def Status.reset : Status :=
  { busy := false, done := false, err := false, dropped := false, errCode := 0, errOp := 0 }

/-- The parameter registers after reset (10_state R27 to R37). -/
def Params.reset : Params :=
  { fftSize := 0, sampleCount := 0, sampleRateHz := 0, biasWindowS := 0, windowSize := 0
    centerFreqLo := 0, centerFreqHi := 0, thresholdLo := 0, thresholdHi := 0
    pollLimit := Config.pollLimitReset, freqDivOffset := Config.freqDivOffsetReset
    drdyReg := 0x00, drdyBit := 5, b2Reg := 0x12, b1Reg := 0x13, b0Reg := 0x14 }

/-- L after reset. The spec: "the latched set L holds no value: no rule reads L before the next acceptance"
(70_reset_and_hazards R240). DESIGN CHOICE (log 8), unsafe: the latch of the reset parameters. -/
def Latched.reset : Latched :=
  { n := 0, s := 0, r := 0, ws := 0, w := 0, cf := 0, th := 0
    p := Config.pollLimitReset, k := Config.freqDivOffsetReset
    drdyReg := 0x00, drdyBit := 5, b2Reg := 0x12, b1Reg := 0x13, b0Reg := 0x14 }

/-- The sequencer after reset: IDLE (70_reset_and_hazards R240). The other components are a DESIGN CHOICE (log 9),
unsafe. -/
def Seq.reset : Seq :=
  { op := none, sub := none, i := 0, polls := 0, phase := .fin, b2 := 0, b1 := 0 }

/-- The machine right after reset (70_reset_and_hazards R240, R241): nothing of BUF and PEAK is written, so every byte
of them is a free value. No move is pending from outside and no ADC answer is listed (log 2). -/
def State.reset : State :=
  { par := Params.reset, doneIe := false, status := Status.reset, errIndex := 0
    sampleRaw := 0, sampleVal := 0, bias := 0, acc := 0, biasLen := 0, peakCount := 0
    nMax := Config.nMaxDefault, mem := [], memEpoch := 0, scrDraw := 0
    latched := Latched.reset, seq := Seq.reset, inReset := false
    env := [], adc := [], history := [], draws := 0 }

end Sys2Proof.Machine
end

