-- ==== Sys2Proof/Machine/Flags.lean ====
section
/-! DEFINITION. The flags of the block, all in STATUS (10_state R22, R52), and who writes them: acceptance, completion,
error entry, a dropped write and the host's write-one-to-clear. -/

namespace Sys2Proof.Machine

/-- The word a read of STATUS returns (10_state R22): ERR_OP in 23:16, ERRCODE in 11:8, DROPPED, ERR, DONE, BUSY in 3:0. -/
def Status.word (t : Status) : Word :=
  (0 : BitVec 8) ++ t.errOp ++ (0 : BitVec 4) ++ t.errCode ++ (0 : BitVec 4) ++
    BitVec.ofBool t.dropped ++ BitVec.ofBool t.err ++ BitVec.ofBool t.done ++ BitVec.ofBool t.busy

/-- Acceptance of a command (44_command_control R191). DROPPED is not changed. -/
def Status.accept (t : Status) : Status :=
  { t with busy := true, done := false, err := false, errCode := 0, errOp := 0 }

/-- The end of a command without error (44_command_control R192). -/
def Status.complete (t : Status) : Status := { t with busy := false, done := true }

/-- Error entry (60_exceptions R213). -/
def Status.enterError (t : Status) (code : BitVec 4) (op : Byte) : Status :=
  { t with busy := false, done := true, err := true, errCode := code, errOp := op }

/-- A host write was dropped (44_command_control R194). -/
def Status.drop (t : Status) : Status := { t with dropped := true }

/-- The host writes `v` to STATUS: write one to clear DONE and DROPPED (10_state R23). -/
def Status.w1c (t : Status) (v : Word) : Status :=
  { t with done := t.done && !v.getLsbD 1, dropped := t.dropped && !v.getLsbD 3 }

/-- The interrupt output: DONE AND DONE_IE (10_state R53, 60_exceptions R220). -/
def State.irq (s : State) : Bool := s.status.done && s.doneIe

end Sys2Proof.Machine
end

