-- ==== Sys2Proof/WellFormed.lean ====
section
/-! DEFINITION. Which terms are well-formed. A command has no operand, so every command is; a host access must be an
aligned 32-bit word (20_memory R61); a capacity must be a power of two up to 65536 (00_scope R7). -/

namespace Sys2Proof

/-- Every command is well-formed: a command word carries no immediate and no register operand (30_encoding R93). -/
def Instr.wf : Instr → Bool
  | .nop => true
  | .readSample => true
  | .acquire => true
  | .transform => true
  | .scan => true
  | .run => true

/-- The access is 32 bits wide (20_memory R61). -/
def Move.sizeOk : Move → Bool
  | .read _ size => size == 4
  | .write _ size _ => size == 4
  | .coreTurn => true
  | .wait _ => true
  | .assertReset _ => true
  | .releaseReset => true

/-- The access is at a multiple of 4 (20_memory R61, R65). -/
def Move.alignOk : Move → Bool
  | .read off _ => off.toNat % 4 == 0
  | .write off _ _ => off.toNat % 4 == 0
  | .coreTurn => true
  | .wait _ => true
  | .assertReset _ => true
  | .releaseReset => true

/-- The move has a meaning in the spec (20_memory R61, 70_reset_and_hazards R250). -/
def Move.wf (m : Move) : Bool := m.sizeOk && m.alignOk

/-- A capacity N_MAX the spec admits: a power of two from 1 to 65536 (00_scope R7). -/
def legalCapacity (nMax : Word) : Bool :=
  decide (1 ≤ nMax.toNat) && ((nMax &&& (nMax - 1)) == 0) && decide (nMax.toNat ≤ 65536)

end Sys2Proof
end

