-- ==== Sys2Proof/Decode.lean ====
section
/-! DEFINITION. Command words to commands and back (30_encoding R90 to R94). Decoding is total; an ILLEGAL word is
rejected by the name of what is wrong with it. -/

namespace Sys2Proof

/-- Why a word is ILLEGAL (30_encoding R91, R94). -/
inductive DecodeError where
  /-- RSV, bits 31:8, is not 0. -/
  | reservedBits
  /-- OP, bits 7:0, is in 0x06 to 0xFF. -/
  | reservedOpcode
deriving DecidableEq, Repr

/-- The field OP of a command word (30_encoding R90). -/
def opField (w : Word) : Byte := w.extractLsb' 0 8

/-- The field RSV of a command word (30_encoding R90). -/
def rsvField (w : Word) : BitVec 24 := w.extractLsb' 8 24

/-- The opcode map of 30_encoding R92. -/
def decodeOp (op : Byte) : Except DecodeError Instr :=
  if op = 0x00 then .ok .nop
  else if op = 0x01 then .ok .readSample
  else if op = 0x02 then .ok .acquire
  else if op = 0x03 then .ok .transform
  else if op = 0x04 then .ok .scan
  else if op = 0x05 then .ok .run
  else .error .reservedOpcode

/-- `decode(w)` of 30_encoding R91, on every 32-bit word. Both errors are the spec's ILLEGAL. -/
def decode (w : Word) : Except DecodeError Instr :=
  if rsvField w ≠ 0 then .error .reservedBits else decodeOp (opField w)

/-- The opcode of a command (30_encoding R92). -/
def Instr.opcode : Instr → Byte
  | .nop => 0x00
  | .readSample => 0x01
  | .acquire => 0x02
  | .transform => 0x03
  | .scan => 0x04
  | .run => 0x05

/-- The command word of a command: RSV = 0 above OP (30_encoding R90, R92). -/
def encode (i : Instr) : Word := (0 : BitVec 24) ++ i.opcode

/-- The instruction that `decode` reads from the table word `w` of `nbits` bits. A command is one 32-bit word
(30_encoding R90), so nothing longer is one. -/
def decodeTableWord (nbits w : Nat) : Option Instr :=
  if 32 < nbits then none else (decode (BitVec.ofNat 32 (w % 2 ^ nbits))).toOption

end Sys2Proof
end

