-- ==== Sys2Proof/Machine/Numerics.lean ====
section
/-! DEFINITION. The numerics primitives of 00_scope R10 to R14, R16 and R17, evaluated exactly on integers and rounded
once. Every finite binary64 value is an integer multiple of 2^-1074, so `scaled` is exact. Each operation that can
give a NaN takes the number of the draw that its NaN would be (log 4). -/

namespace Sys2Proof.Machine

/-! ### The binary64 format (00_scope R10) -/

def F64.neg (x : F64) : Bool := x.getLsbD 63
def F64.expField (x : F64) : Nat := (x.extractLsb' 52 11).toNat
def F64.fracField (x : F64) : Nat := (x.extractLsb' 0 52).toNat
def F64.isFinite (x : F64) : Bool := F64.expField x != 2047
def F64.isInf (x : F64) : Bool := F64.expField x == 2047 && F64.fracField x == 0
def F64.isNaN (x : F64) : Bool := F64.expField x == 2047 && F64.fracField x != 0

def F64.posInf : F64 := 0x7FF0000000000000
def F64.posZero : F64 := 0

/-- The bit pattern with the given sign and the given bits 62:0. -/
def F64.ofSignMag (neg : Bool) (mag : Nat) : F64 := BitVec.ofNat 64 ((if neg then 2 ^ 63 else 0) + mag)

/-- 2^1074: `val x = scaled x / f64Unit` for a finite `x`. -/
def f64Unit : Nat := 2 ^ 1074

/-- `|val x| * 2^1074` of a finite `x` (00_scope R10). -/
def F64.magScaled (x : F64) : Nat :=
  if F64.expField x = 0 then F64.fracField x else (2 ^ 52 + F64.fracField x) * 2 ^ (F64.expField x - 1)

/-- `val x * 2^1074` of a finite `x` (00_scope R10). -/
def F64.scaled (x : F64) : Int := if F64.neg x then -(F64.magScaled x : Int) else (F64.magScaled x : Int)

/-- The NaN of draw number `id`: `NUM.nan` (00_scope R12). -/
def nanOf (id : Nat) : F64 :=
  F64.ofSignMag (Config.nanDraw id).neg (2047 * 2 ^ 52 + ((Config.nanDraw id).frac.val + 1))

/-- `fneg`: the sign bit flipped (00_scope R15). -/
def fneg (x : F64) : F64 := x ^^^ 0x8000000000000000

/-! ### Rounding: `rne` (00_scope R11) -/

/-- The least `k' ≥ k` with `n < 2^(2^k')`; the first argument bounds the search. -/
def log2Up (n : Nat) : Nat → Nat → Nat
  | 0, k => k
  | fuel + 1, k => if n < 2 ^ 2 ^ k then k else log2Up n fuel (k + 1)

/-- The largest `e` with `2^e ≤ n`, for `1 ≤ n < 2^(2^k)`, bit by bit of `e`. -/
def log2Down : Nat → Nat → Nat
  | 0, _ => 0
  | k + 1, n => if 2 ^ 2 ^ k ≤ n then 2 ^ k + log2Down k (n / 2 ^ 2 ^ k) else log2Down k n

/-- The largest `e` with `2^e ≤ n`, for `n ≥ 1`: `Nat.log2` in a form that the kernel evaluates on large numbers
(`ilog2_eq_log2`). -/
def ilog2 (n : Nat) : Nat := log2Down (log2Up n n 0) n

/-- The largest `e` with `2^e ≤ a / b`, for `a, b ≥ 1`. -/
def floorLog2 (a b : Nat) : Int :=
  let k : Int := (ilog2 a : Int) - (ilog2 b : Int)
  if b * 2 ^ k.toNat ≤ a * 2 ^ (-k).toNat then k else k - 1

/-- The exponent of the last place of a binary64 value in the binade of `2^e`. -/
def lastPlace (e : Int) : Int := max (e - 52) (-1074)

/-- The pattern of `(m + up) * 2^q` where `m` has at most 53 bits: a carry goes on into the exponent field, and what is
past the largest finite value is infinity. -/
def roundedPattern (q : Int) (m : Nat) (up : Bool) : Nat :=
  min ((q + 1074).toNat * 2 ^ 52 + m + (if up then 1 else 0)) (2047 * 2 ^ 52)

/-- Bits 62:0 of the binary64 value nearest `a / b`, ties to even. -/
def rneMag (a b : Nat) : Nat :=
  if a = 0 then 0
  else
    let q := lastPlace (floorLog2 a b)
    let num := a * 2 ^ (-q).toNat
    let den := b * 2 ^ q.toNat
    let m := num / den
    let r := num % den
    roundedPattern q m (decide (den < 2 * r) || (decide (2 * r = den) && decide (m % 2 = 1)))

/-- `rne (num / den)`, for `den ≥ 1` (00_scope R11). -/
def rneFrac (num : Int) (den : Nat) : F64 := F64.ofSignMag (decide (num < 0)) (rneMag num.natAbs den)

/-- The largest `m' < m + 2^k`, built from `m` by its lower `k` bits, whose square is at most `a`. -/
def isqrtFrom (a : Nat) : Nat → Nat → Nat
  | 0, m => m
  | k + 1, m => if (m + 2 ^ k) * (m + 2 ^ k) ≤ a then isqrtFrom a k (m + 2 ^ k) else isqrtFrom a k m

/-- Bits 62:0 of the binary64 value nearest `sqrt (a / b)`, ties to even: the exact root is compared with the midpoint
by squares (43_peak_scan R174, "exact real, one rounding"). -/
def rneSqrtMag (a b : Nat) : Nat :=
  if a = 0 then 0
  else
    let q := lastPlace (floorLog2 a b / 2)
    let num := a * 4 ^ (-q).toNat
    let den := b * 4 ^ q.toNat
    let m := isqrtFrom (num / den) 54 0
    let mid := (2 * m + 1) * (2 * m + 1) * den
    roundedPattern q m (decide (mid < 4 * num) || (decide (mid = 4 * num) && decide (m % 2 = 1)))

/-! ### Arithmetic (00_scope R12 to R14) -/

/-- `fadd` (00_scope R12). An exact zero sum is -0 when both operands are -0, else +0. -/
def fadd (id : Nat) (a b : F64) : F64 :=
  if F64.isNaN a || F64.isNaN b then nanOf id
  else if F64.isInf a then (if F64.isInf b && F64.neg a != F64.neg b then nanOf id else a)
  else if F64.isInf b then b
  else if F64.scaled a + F64.scaled b = 0 then F64.ofSignMag (F64.neg a && F64.neg b) 0
  else rneFrac (F64.scaled a + F64.scaled b) f64Unit

/-- `fsub` (00_scope R12): the sum with the negated subtrahend. -/
def fsub (id : Nat) (a b : F64) : F64 := fadd id a (fneg b)

/-- `fmul` (00_scope R12). The sign of a product that is no NaN is the exclusive or of the signs. -/
def fmul (id : Nat) (a b : F64) : F64 :=
  let neg := F64.neg a != F64.neg b
  if F64.isNaN a || F64.isNaN b then nanOf id
  else if F64.isInf a || F64.isInf b then
    if (F64.isFinite a && F64.magScaled a == 0) || (F64.isFinite b && F64.magScaled b == 0) then nanOf id
    else F64.ofSignMag neg (2047 * 2 ^ 52)
  else F64.ofSignMag neg (rneMag (F64.magScaled a * F64.magScaled b) (f64Unit * f64Unit))

/-- `cadd` (00_scope R13). -/
def cadd (id : Nat) (x y : Cplx) : Cplx := ⟨fadd id x.re y.re, fadd (id + 1) x.im y.im⟩

/-- `csub` (00_scope R13). -/
def csub (id : Nat) (x y : Cplx) : Cplx := ⟨fsub id x.re y.re, fsub (id + 1) x.im y.im⟩

/-- `NUM.cmul` at this hardware's default: the plain product, every operation rounded on its own (00_scope R14; log 26). -/
def cmul (id : Nat) (w z : Cplx) : Cplx :=
  ⟨fsub (id + 4) (fmul id w.re z.re) (fmul (id + 1) w.im z.im),
   fadd (id + 5) (fmul (id + 2) w.re z.im) (fmul (id + 3) w.im z.re)⟩

/-! ### Comparison, rounding to integers, magnitude -/

/-- A key that orders the binary64 values that are no NaN: `scaled` on the finite ones, past all of them at infinity. -/
def F64.orderKey (x : F64) : Int :=
  if F64.isInf x then (if F64.neg x then -(2 ^ 2098) else 2 ^ 2098) else F64.scaled x

/-- `fgt`: the IEEE 754 ordered comparison "greater than" (43_peak_scan R175). -/
def fgt (a b : F64) : Bool :=
  !F64.isNaN a && !F64.isNaN b && decide (F64.orderKey b < F64.orderKey a)

/-- `roundHalfAway (num / den)`, for `den ≥ 1` (00_scope R16). -/
def roundHalfAway (num : Int) (den : Nat) : Int :=
  let m : Int := ((2 * num.natAbs + den) / (2 * den) : Nat)
  if num < 0 then -m else m

/-- The magnitude of a bin (43_peak_scan R174) with `fmag` of 00_scope R17: `rne (2 * |z| / s)`, for `s ≥ 1`. -/
def magnitude (id : Nat) (z : Cplx) (s : Nat) : F64 :=
  if F64.isInf z.re || F64.isInf z.im then F64.posInf
  else if F64.isNaN z.re || F64.isNaN z.im then nanOf id
  else
    F64.ofSignMag false
      (rneSqrtMag (4 * (F64.magScaled z.re * F64.magScaled z.re + F64.magScaled z.im * F64.magScaled z.im))
        (s * s * (f64Unit * f64Unit)))

end Sys2Proof.Machine
end

