-- ==== Sys2Proof/Machine/Operands.lean ====
section
/-! DEFINITION. The operand forms: the latched parameter set L (10_state R49), which is where a command's operands come
from (30_encoding R93), and what a command computes from L before it reads or writes anything else. -/

namespace Sys2Proof.Machine

/-- A 64-bit quantity from its two halves, bits 31:0 at the lower offset (20_memory R64). -/
def joinHalves (lo hi : Word) : BitVec 64 := hi ++ lo

/-- Bits 31:0 of a 64-bit quantity. -/
def loHalf (v : BitVec 64) : Word := v.extractLsb' 0 32

/-- Bits 63:32 of a 64-bit quantity. -/
def hiHalf (v : BitVec 64) : Word := v.extractLsb' 32 32

/-- The exact product of two 32-bit values (10_state R42, R49). -/
def mulExact (a b : Word) : DWord := a.setWidth 64 * b.setWidth 64

/-- The latch of the parameter registers (10_state R49). -/
def latch (p : Params) : Latched :=
  { n := p.fftSize, s := p.sampleCount, r := p.sampleRateHz, ws := p.windowSize
    w := mulExact p.biasWindowS p.sampleRateHz
    cf := joinHalves p.centerFreqLo p.centerFreqHi, th := joinHalves p.thresholdLo p.thresholdHi
    p := p.pollLimit, k := p.freqDivOffset
    drdyReg := p.drdyReg, drdyBit := p.drdyBit, b2Reg := p.b2Reg, b1Reg := p.b1Reg, b0Reg := p.b0Reg }

/-- `legalN` (60_exceptions R214): at least 1, a power of two, at most N_MAX. -/
def legalN (nMax n : Word) : Bool :=
  decide (1 ≤ n.toNat) && ((n &&& (n - 1)) == 0) && decide (n.toNat ≤ nMax.toNat)

/-- SCAN's divisor `D = L.N - L.K`, an exact integer (43_peak_scan R171). -/
def scanDivisor (l : Latched) : Int := (l.n.toNat : Int) - l.k.toInt

/-- SCAN's parameters are legal (43_peak_scan R171). -/
def scanParamsLegal (l : Latched) : Bool :=
  decide (1 ≤ l.r.toNat) && decide (1 ≤ scanDivisor l) && decide (1 ≤ l.s.toNat) && F64.isFinite l.cf

/-- The center bin `c` (43_peak_scan R170). -/
def centerBin (l : Latched) : Int :=
  roundHalfAway (F64.scaled l.cf * scanDivisor l) (f64Unit * l.r.toNat)

/-- The first bin of the requested window, before clamping (43_peak_scan R172). -/
def windowLo (l : Latched) : Int := centerBin l - ((l.ws.toNat / 2 : Nat) : Int) + 1

/-- The last bin of the requested window, before clamping (43_peak_scan R172). -/
def windowHi (l : Latched) : Int := centerBin l + ((l.ws.toNat / 2 : Nat) : Int)

/-- The first bin of the clamped window (43_peak_scan R172). -/
def clampedLo (l : Latched) : Int := max (windowLo l) 0

/-- The last bin of the clamped window (43_peak_scan R172). -/
def clampedHi (l : Latched) : Int := min (windowHi l) ((l.n.toNat : Int) - 1)

/-- The bins of the clamped window, ascending (43_peak_scan R173). -/
def windowBins (l : Latched) : List Nat :=
  List.range' (clampedLo l).toNat (clampedHi l - clampedLo l + 1).toNat

/-- The frequency of bin `b`: `rne (b * L.R / D)` (43_peak_scan R176). -/
def binFreq (l : Latched) (b : Nat) : F64 := rneFrac ((b * l.r.toNat : Nat) : Int) (scanDivisor l).toNat

/-- `center(v)` (41_bias_acquire R134), one rounding of `v - ACC/W + 1/2`. -/
def centerSample (v acc : Int) (w : Nat) : F64 :=
  if w = 0 then rneFrac (2 * v + 1) 2 else rneFrac (2 * v * w - 2 * acc + w) (2 * w)

/-- The raw sample of three bytes, MSB first (40_sample_reader R115). -/
def assembleRaw (b2 b1 b0 : Byte) : BitVec 24 := b2 ++ b1 ++ b0

/-- `sext_32` of a raw sample (40_sample_reader R116). -/
def extendSample (raw : BitVec 24) : Word := raw.signExtend 32

end Sys2Proof.Machine
end

