-- ==== Sys2Proof/Machine/Ops.lean ====
section
/-! DEFINITION. The shared operations: the byte memory under BUF and PEAK, the register bus, the sequencer, and the
lifecycle of a command: acceptance, completion, and error entry, which is this block's way of taking an exception
(44_command_control R190 to R198, 60_exceptions R213). There is no return from an error: the next acceptance clears
it (60_exceptions R217). -/

namespace Sys2Proof.Machine

/-! ### Memory -/

/-- The canonical form of a memory: strictly rising addresses. -/
abbrev Memory.wf (m : Memory) : Prop := m.Pairwise (fun x y => x.1 < y.1)

/-- The byte written at `a`, or nothing if no write has reached it since the last reset. -/
def Memory.find : Memory → Nat → Option Byte
  | [], _ => none
  | c :: t, a => if c.1 = a then some c.2 else Memory.find t a

/-- Store a byte. -/
def Memory.write : Memory → Nat → Byte → Memory
  | [], a, v => [(a, v)]
  | c :: t, a, v =>
    if a < c.1 then (a, v) :: c :: t
    else if a = c.1 then (a, v) :: t
    else c :: Memory.write t a v

/-- Store a list of bytes from an address up. -/
def Memory.writeList : Memory → Nat → List Byte → Memory
  | m, _, [] => m
  | m, a, b :: bs => Memory.writeList (Memory.write m a b) (a + 1) bs

/-- The bytes of a 32-bit word, lowest address first (20_memory R64). -/
def wordBytes (v : Word) : List Byte :=
  [v.extractLsb' 0 8, v.extractLsb' 8 8, v.extractLsb' 16 8, v.extractLsb' 24 8]

/-- Store a 32-bit word. -/
@[irreducible] def Memory.writeWord (m : Memory) (a : Nat) (v : Word) : Memory := Memory.writeList m a (wordBytes v)

/-- Store a binary64 value: bits 31:0 at the lower offset (20_memory R64). -/
@[irreducible] def Memory.writeF64 (m : Memory) (a : Nat) (v : F64) : Memory :=
  Memory.writeWord (Memory.writeWord m a (loHalf v)) (a + 4) (hiHalf v)

/-- The host offset of BUF[k] (20_memory R62). -/
def bufAddr (k : Nat) : Nat := 0x100000 + 16 * k

/-- The host offset of PEAK[k] (20_memory R63). -/
def peakAddr (k : Nat) : Nat := 0x200000 + 32 * k

/-- The byte of BUF or PEAK at a host offset: what was written there, or else a free value of the last reset
(70_reset_and_hazards R241; log 6). -/
def State.byteAt (s : State) (a : Nat) : Byte :=
  match Memory.find s.mem a with
  | some b => b
  | none => Config.powerOnByte s.memEpoch a

/-- The 32-bit word at a host offset, little-endian (20_memory R64). -/
def State.wordAt (s : State) (a : Nat) : Word :=
  s.byteAt (a + 3) ++ s.byteAt (a + 2) ++ s.byteAt (a + 1) ++ s.byteAt a

/-- The binary64 value at a host offset (20_memory R64). -/
def State.f64At (s : State) (a : Nat) : F64 := joinHalves (s.wordAt a) (s.wordAt (a + 4))

/-- BUF[k] (10_state R46, 20_memory R62). -/
def State.buf (s : State) (k : Nat) : Cplx := ⟨s.f64At (bufAddr k), s.f64At (bufAddr k + 8)⟩

/-- PEAK[k] (10_state R47, 20_memory R63). -/
def State.peak (s : State) (k : Nat) : PeakEntry :=
  ⟨s.wordAt (peakAddr k), s.f64At (peakAddr k + 8), s.f64At (peakAddr k + 16)⟩

/-- SCR[k], a free value whenever no step is running (10_state R48, 42_fft R156; log 7). -/
def State.scr (s : State) (k : Nat) : Cplx := ⟨Config.scrRe s.scrDraw k, Config.scrIm s.scrDraw k⟩

/-- The memory after `BUF[k] <- z` (20_memory R62). -/
@[irreducible] def Memory.writeBuf (m : Memory) (k : Nat) (z : Cplx) : Memory :=
  Memory.writeF64 (Memory.writeF64 m (bufAddr k) z.re) (bufAddr k + 8) z.im

/-- `BUF[k] <- z` (00_scope R9). -/
def State.setBuf (s : State) (k : Nat) (z : Cplx) : State :=
  { s with mem := Memory.writeBuf s.mem k z }

/-- The memory after `PEAK[k] <- e` (20_memory R63). -/
@[irreducible] def Memory.writePeak (m : Memory) (k : Nat) (e : PeakEntry) : Memory :=
  let withBin := Memory.writeWord m (peakAddr k) e.bin
  let withFreq := Memory.writeF64 withBin (peakAddr k + 8) e.freq
  Memory.writeF64 withFreq (peakAddr k + 16) e.mag

/-- `PEAK[k] <- e` (00_scope R9). -/
def State.setPeak (s : State) (k : Nat) (e : PeakEntry) : State :=
  { s with mem := Memory.writePeak s.mem k e }

/-- `BUF[k], BUF[k+1], ... <- zs`. -/
def State.setBufs : State → Nat → List Cplx → State
  | s, _, [] => s
  | s, k, z :: zs => State.setBufs (s.setBuf k z) (k + 1) zs

/-- `PEAK[k], PEAK[k+1], ... <- es`. -/
def State.setPeaks : State → Nat → List PeakEntry → State
  | s, _, [] => s
  | s, k, e :: es => State.setPeaks (s.setPeak k e) (k + 1) es

/-- The first `n` entries of BUF. -/
def State.bufList (s : State) (n : Nat) : List Cplx := (List.range n).map s.buf

/-! ### The register bus -/

/-- The byte the ADC oracle answers next (20_memory R70): any value. -/
def State.adcAnswer (s : State) : Byte :=
  match s.adc with
  | b :: _ => b
  | [] => Config.adcByte s.draws

/-- The oracle has given one answer. -/
def State.adcAdvance (s : State) : State :=
  match s.adc with
  | _ :: rest => { s with adc := rest }
  | [] => { s with draws := s.draws + 1 }

/-- The state after `BusRead reg`, which returned `s.adcAnswer` (20_memory R70): the event is in the history. -/
def busRead (reg : Byte) (s : State) : State :=
  { s.adcAdvance with history := .busRead reg s.adcAnswer :: s.history }

/-! ### The sequencer -/

/-- Go to a phase of the running operation (10_state R50). -/
def goto (p : Phase) (s : State) : State := { s with seq := { s.seq with phase := p } }

/-- Start the poll loop of sample `i`: `polls <- 0` (40_sample_reader R110). -/
def startSample (i : Nat) (s : State) : State :=
  { s with seq := { s.seq with i := i, polls := 0, phase := .poll } }

/-- RUN starts its next sub-operation (44_command_control R197). -/
def enterSub (sub : SubOp) (p : Phase) (s : State) : State :=
  { s with seq := { s.seq with sub := some sub, phase := p } }

/-- The first phase of a command (10_state R50). -/
def firstPhase : Instr → Phase
  | .nop => .fin
  | .readSample => .poll
  | .acquire => .init
  | .transform => .fft
  | .scan => .scan
  | .run => .init

/-- The sub-operation a command starts with: none, but for RUN (44_command_control R197). -/
def firstSub : Instr → Option SubOp
  | .run => some .acquire
  | .nop => none
  | .readSample => none
  | .acquire => none
  | .transform => none
  | .scan => none

/-- The opcode ERR_OP shows for an error in a sub-operation of RUN (44_command_control R198). -/
def SubOp.opcode : SubOp → Byte
  | .acquire => Instr.acquire.opcode
  | .transform => Instr.transform.opcode
  | .scan => Instr.scan.opcode

/-! ### The lifecycle of a command -/

/-- The errors the core raises (60_exceptions R210, R211). -/
inductive ErrKind where
  | sampleTimeout
  | invalidTransformSize
  | indexOutOfRange
  | illegalCommand
  | invalidParameter
deriving DecidableEq, Repr

/-- STATUS.ERRCODE of an error (60_exceptions R210). -/
def ErrKind.code : ErrKind → BitVec 4
  | .sampleTimeout => 4
  | .invalidTransformSize => 5
  | .indexOutOfRange => 6
  | .illegalCommand => 7
  | .invalidParameter => 8

/-- Error entry, `raise Err(code, info)` (60_exceptions R213): the block's one way of taking an exception. `op` is
what ERR_OP records (44_command_control R198). -/
def raiseErr (e : ErrKind) (info : Nat) (op : Byte) (s : State) : State :=
  { s with
    status := s.status.enterError e.code op
    errIndex := if e = .sampleTimeout then BitVec.ofNat 32 info else s.errIndex
    seq := { s.seq with op := none, sub := none } }

/-- `complete` (44_command_control R192). -/
def complete (s : State) : State :=
  { s with status := s.status.complete, seq := { s.seq with op := none, sub := none } }

/-- What every acceptance does before decoding (44_command_control R191). -/
def acceptFlags (s : State) : State :=
  { s with latched := latch s.par, status := s.status.accept, errIndex := 0 }

/-- Start the rule of a command (44_command_control R191). -/
def startCommand (i : Instr) (s : State) : State :=
  { s with seq := { s.seq with op := some i, sub := firstSub i, i := 0, polls := 0, phase := firstPhase i } }

/-- `accept(w)`, one atomic step (44_command_control R191). An ILLEGAL word ends at once with IllegalCommand. -/
def accept (w : Word) (s : State) : State :=
  match decode w with
  | .ok i => startCommand i (acceptFlags s)
  | .error _ => raiseErr .illegalCommand 0 (opField w) (acceptFlags s)

/-- The core moves next: a pending schedule is made to begin with the core's turn. -/
def State.withCoreTurn (s : State) : State :=
  match s.env with
  | [] => s
  | m :: rest => { s with env := .coreTurn :: m :: rest }

/-- The state in which the command word `w` of `nbits` bits has just been accepted and the core moves next (log 2). -/
def State.withAccepted (s : State) (nbits w : Nat) : State :=
  State.withCoreTurn { accept (BitVec.ofNat 32 (w % 2 ^ nbits)) s with inReset := false }

end Sys2Proof.Machine
end

