-- ==== Sys2Proof/Machine/Reader.lean ====
section
/-! DEFINITION. The sample reader `ReadOneSample` (40_sample_reader R110), one BusRead a step, and READ_SAMPLE
(40_sample_reader R118). -/

namespace Sys2Proof.Machine

/-- Bit L.DRDY_BIT of a poll byte (40_sample_reader R111). -/
def sampleReady (l : Latched) (d : Byte) : Bool := d.getLsbD l.drdyBit.toNat

/-- The number of polls has reached L.P (40_sample_reader R112). -/
def pollsSpent (s : State) : Bool := decide (s.seq.polls = s.latched.p.toNat)

/-- One poll: a BusRead of L.DRDY_REG, then on to READ_B2 when the sample is ready (40_sample_reader R110, R111). -/
def pollOnce (s : State) : State :=
  let t := busRead s.latched.drdyReg s
  { t with seq := { t.seq with
      polls := s.seq.polls + 1
      phase := if sampleReady s.latched s.adcAnswer then .readB2 else .poll } }

/-- One turn of the poll loop for sample `i`: SampleTimeout when L.P polls have all read not ready, with no further
BusRead (40_sample_reader R112, R113). -/
def pollStep (i : Nat) (op : Byte) (s : State) : State :=
  if pollsSpent s then raiseErr .sampleTimeout i op s else pollOnce s

/-- Phase READ_B2: the MSB (40_sample_reader R114). -/
def readB2Step (s : State) : State :=
  let t := busRead s.latched.b2Reg s
  { t with seq := { t.seq with b2 := s.adcAnswer, phase := .readB1 } }

/-- Phase READ_B1: the middle byte (40_sample_reader R114). -/
def readB1Step (s : State) : State :=
  let t := busRead s.latched.b1Reg s
  { t with seq := { t.seq with b1 := s.adcAnswer, phase := .readB0 } }

/-- Phase READ_B0: the LSB; then SAMPLE_RAW and SAMPLE_VAL are written (40_sample_reader R110, R114 to R116). -/
def readB0Step (s : State) : State :=
  let raw := assembleRaw s.seq.b2 s.seq.b1 s.adcAnswer
  { busRead s.latched.b0Reg s with sampleRaw := raw, sampleVal := extendSample raw }

/-- READ_SAMPLE (40_sample_reader R118): `ReadOneSample(0)`, then `complete`. -/
def execReadSample (s : State) : Host.Outcome State Fault Refusal :=
  match s.seq.phase with
  | .poll => .next (pollStep 0 Instr.readSample.opcode s)
  | .readB2 => .next (readB2Step s)
  | .readB1 => .next (readB1Step s)
  | .readB0 => .next (goto .fin (readB0Step s))
  | .fin => .next (complete s)
  | .init => .fault .sequencerPhase
  | .store => .fault .sequencerPhase
  | .fft => .fault .sequencerPhase
  | .scan => .fault .sequencerPhase

/-- The ADC register the core's next step would read, if that step is a BusRead (70_reset_and_hazards R242). -/
def pendingBusRead (s : State) : Option Byte :=
  match s.seq.op with
  | none => none
  | some _ =>
    match s.seq.phase with
    | .poll => if pollsSpent s then none else some s.latched.drdyReg
    | .readB2 => some s.latched.b2Reg
    | .readB1 => some s.latched.b1Reg
    | .readB0 => some s.latched.b0Reg
    | .init => none
    | .store => none
    | .fft => none
    | .scan => none
    | .fin => none

end Sys2Proof.Machine
end

