-- ==== Sys2Proof/Machine/Acquire.lean ====
section
/-! DEFINITION. The bias estimator, the subtractor and ACQUIRE (41_bias_acquire R130 to R138). The body of ACQUIRE is
shared with RUN: `leave` is what follows it, and `op` is what ERR_OP shows for its errors. -/

namespace Sys2Proof.Machine

/-- The first writes of ACQUIRE, once its checks have passed: zero fill, and the estimator's start values
(41_bias_acquire R137). -/
def acquireClear (s : State) : State :=
  { s.setBufs 0 (List.replicate s.latched.n.toNat ⟨F64.posZero, F64.posZero⟩) with
    acc := 0, bias := F64.posZero, biasLen := s.latched.w }

/-- Phase INIT: the checks in their order, then the first writes (41_bias_acquire R137, 60_exceptions R215). -/
def acquireInit (leave : State → State) (op : Byte) (s : State) : State :=
  if !legalN s.nMax s.latched.n then raiseErr .invalidTransformSize 0 op s
  else if s.latched.n.toNat < s.latched.s.toNat then raiseErr .indexOutOfRange 0 op s
  else if s.latched.s.toNat = 0 then leave (acquireClear s)
  else startSample 0 (acquireClear s)

/-- A sample inside the bias window: `ACC <- ACC + v`, `BIAS <- rne(ACC / W)` (41_bias_acquire R131, R133). -/
def accumulate (s : State) : State :=
  let acc := s.acc + s.sampleVal.signExtend 64
  { s with acc := acc, bias := rneFrac acc.toInt s.latched.w.toNat }

/-- A sample past the bias window: `BUF[i] <- (center(v), +0.0)` (41_bias_acquire R134). -/
def storeCentered (s : State) : State :=
  s.setBuf s.seq.i ⟨centerSample s.sampleVal.toInt s.acc.toInt s.latched.w.toNat, F64.posZero⟩

/-- What ACQUIRE does with sample `i` (41_bias_acquire R137). -/
def useSample (s : State) : State :=
  if s.seq.i < s.latched.w.toNat then accumulate s else storeCentered s

/-- Phase STORE: the writes for sample `i`, then the next sample or the end of the body (41_bias_acquire R137). -/
def acquireStore (leave : State → State) (s : State) : State :=
  if s.seq.i + 1 = s.latched.s.toNat then
    leave { useSample s with seq := { s.seq with i := s.seq.i + 1 } }
  else startSample (s.seq.i + 1) (useSample s)

/-- One step of the body of ACQUIRE (41_bias_acquire R137). -/
def acquireBody (leave : State → State) (op : Byte) (s : State) : Host.Outcome State Fault Refusal :=
  match s.seq.phase with
  | .init => .next (acquireInit leave op s)
  | .poll => .next (pollStep s.seq.i op s)
  | .readB2 => .next (readB2Step s)
  | .readB1 => .next (readB1Step s)
  | .readB0 => .next (goto .store (readB0Step s))
  | .store => .next (acquireStore leave s)
  | .fft => .fault .sequencerPhase
  | .scan => .fault .sequencerPhase
  | .fin => .fault .sequencerPhase

/-- ACQUIRE (41_bias_acquire R137). -/
def execAcquire (s : State) : Host.Outcome State Fault Refusal :=
  if s.seq.phase = .fin then .next (complete s)
  else acquireBody (goto .fin) Instr.acquire.opcode s

end Sys2Proof.Machine
end

