-- ==== Sys2Proof/Machine/Twiddle.lean ====
section
/-! DEFINITION. `TWIDDLE(i, n)` at this hardware's default (00_scope R15). `cosF` and `sinF` are cos and sin correctly
rounded, for arguments from 0 to PI64: consecutive partial sums of the alternating Taylor series bound the value from
below and above, and as soon as both bounds round to the same binary64 value that value is the answer (log 13). -/

namespace Sys2Proof.Machine

/-- The nested sum `1 - x²/c(j) * (1 - x²/c(j+1) * (...))` of `r` levels from level `j` on, as a fraction, where
`x² = p / q`. -/
def nestedSum (c : Nat → Nat) (p q : Nat) : Nat → Nat → Int × Nat
  | 0, _ => (1, 1)
  | r + 1, j =>
    let t := nestedSum c p q r (j + 1)
    (((q * c j * t.2 : Nat) : Int) - (p : Int) * t.1, q * c j * t.2)

/-- The Taylor polynomial of cos at `x = m / 2^1074` with `r` terms after the 1, as a fraction. -/
def cosPartial (m r : Nat) : Int × Nat :=
  nestedSum (fun j => (2 * j - 1) * (2 * j)) (m * m) (f64Unit * f64Unit) r 1

/-- The Taylor polynomial of sin at `x = m / 2^1074` with `r` terms after the `x`, as a fraction. -/
def sinPartial (m r : Nat) : Int × Nat :=
  let t := nestedSum (fun j => (2 * j) * (2 * j + 1)) (m * m) (f64Unit * f64Unit) r 1
  ((m : Int) * t.1, f64Unit * t.2)

/-- The rounded partial sums of an alternating series, taken further until a lower bound (an odd number of terms) and an
upper bound (one more) round alike. The first argument bounds the tries. -/
def roundSeries (partialSum : Nat → Int × Nat) : Nat → Nat → F64
  | 0, r => rneFrac (partialSum r).1 (partialSum r).2
  | tries + 1, r =>
    let lo := rneFrac (partialSum r).1 (partialSum r).2
    let hi := rneFrac (partialSum (r + 1)).1 (partialSum (r + 1)).2
    if lo = hi then lo else roundSeries partialSum tries (r + 6)

/-- `cosF` (00_scope R15) of a finite argument from 0 to PI64. -/
def cosF (x : F64) : F64 := roundSeries (cosPartial (F64.magScaled x)) 32 23

/-- `sinF` (00_scope R15) of a finite argument from 0 to PI64. -/
def sinF (x : F64) : F64 := roundSeries (sinPartial (F64.magScaled x)) 32 23

/-- `θ = rne (val PI64 * i / n)` (00_scope R15). -/
def twiddleAngle (i n : Nat) : F64 := rneFrac (F64.scaled Config.pi64 * (i : Int)) (f64Unit * n)

/-- `TWIDDLE(i, n)` for `i < n` (00_scope R15; log 26). -/
def twiddle (i n : Nat) : Cplx := ⟨cosF (twiddleAngle i n), fneg (sinF (twiddleAngle i n))⟩

end Sys2Proof.Machine
end

