-- ==== Sys2Proof/Machine/Fft.lean ====
section
/-! DEFINITION. The recursive radix-2 decimation-in-time FFT (42_fft R152) over any arithmetic, and TRANSFORM
(42_fft R151). The arithmetic is the record NUM of 00_scope R7: this hardware's is `hwNum`. -/

namespace Sys2Proof.Machine

/-- The arithmetic of the combine loop. The first argument of an operation numbers the operation within one transform, so
that an operation that gives a NaN draws its own (log 4). -/
structure FftNum (α : Type) where
  zero : α
  add : Nat → α → α → α
  sub : Nat → α → α → α
  mul : Nat → α → α → α
  twiddle : Nat → Nat → α

/-- This hardware's NUM (00_scope R13 to R15). `base` is the first draw the transform may use. A butterfly has ten
operations: the product six, the sum two, the difference two. -/
def hwNum (base : Nat) : FftNum Cplx :=
  { zero := ⟨F64.posZero, F64.posZero⟩
    mul := fun id w z => cmul (base + 10 * id) w z
    add := fun id x y => cadd (base + 10 * id + 6) x y
    sub := fun id x y => csub (base + 10 * id + 8) x y
    twiddle := twiddle }

/-- One turn of the combine loop: the butterfly at loop index `i` (42_fft R152). Its number is `s * n + off + i`, which
no other butterfly of the transform has. -/
def butterfly {α : Type} (num : FftNum α) (n : Nat) (src : List α) (off s i : Nat) (dst : List α) : List α :=
  let e := src.getD (off + i) num.zero
  let t := num.mul (s * n + off + i) (num.twiddle i n) (src.getD (off + i + s) num.zero)
  (dst.set (off + i / 2) (num.add (s * n + off + i) e t)).set (off + (i + n) / 2) (num.sub (s * n + off + i) e t)

/-- The combine loop: `for i = 0, 2s, 4s, ... while i < n` (42_fft R152). -/
def combine {α : Type} (num : FftNum α) (n : Nat) (src : List α) (off s : Nat) (dst : List α) : List α :=
  (List.range (n / (2 * s))).foldl (fun d j => butterfly num n src off s (2 * s * j) d) dst

/-- `Rec(dst, src, off, s)` (42_fft R152): the two buffers afterwards. The first number bounds the depth. -/
def fftRec {α : Type} (num : FftNum α) (n : Nat) : Nat → List α → List α → Nat → Nat → List α × List α
  | 0, dst, src, _, _ => (dst, src)
  | depth + 1, dst, src, off, s =>
    if n ≤ s then (dst, src)
    else
      let even := fftRec num n depth src dst off (2 * s)
      let odd := fftRec num n depth even.1 even.2 (off + s) (2 * s)
      (combine num n odd.1 off s odd.2, odd.1)

/-- `FFT(n)` (42_fft R152): SCR starts as a copy of the buffer; the depth is log2(n) + 1 with the base call. -/
def fft {α : Type} (num : FftNum α) (n : Nat) (xs : List α) : List α :=
  (fftRec num n (Nat.log2 n + 1) xs xs 0 1).1

/-- How many draws a transform of size `n` sets aside for NaNs. -/
def fftDraws (n : Nat) : Nat := 10 * (n * n)

/-- The result of `FFT(n)` on BUF[0..n-1] (42_fft R152). -/
def fftOfBuf (s : State) (n : Nat) : List Cplx := fft (hwNum s.draws) n (s.bufList n)

/-- `FFT(n)` on BUF: BUF[0..n-1] holds the result; SCR is a new draw (42_fft R156; log 7). -/
def transformBuf (n : Nat) (s : State) : State :=
  { s.setBufs 0 (fftOfBuf s n) with
    scrDraw := s.draws + fftDraws n, draws := s.draws + fftDraws n + 1 }

/-- The body of TRANSFORM (42_fft R151), shared with RUN. -/
def transformBody (leave : State → State) (op : Byte) (s : State) : State :=
  if !legalN s.nMax s.latched.n then raiseErr .invalidTransformSize 0 op s
  else leave (transformBuf s.latched.n.toNat s)

/-- TRANSFORM (42_fft R151). -/
def execTransform (s : State) : Host.Outcome State Fault Refusal :=
  match s.seq.phase with
  | .fft => .next (transformBody (goto .fin) Instr.transform.opcode s)
  | .fin => .next (complete s)
  | .init => .fault .sequencerPhase
  | .poll => .fault .sequencerPhase
  | .readB2 => .fault .sequencerPhase
  | .readB1 => .fault .sequencerPhase
  | .readB0 => .fault .sequencerPhase
  | .store => .fault .sequencerPhase
  | .scan => .fault .sequencerPhase

end Sys2Proof.Machine
end

