-- ==== Sys2Proof/Machine/Scan.lean ====
section
/-! DEFINITION. The magnitude peak extractor and SCAN (43_peak_scan R170 to R178). -/

namespace Sys2Proof.Machine

/-- The magnitude of bin `b` of BUF (43_peak_scan R174). -/
def binMagnitude (s : State) (b : Nat) : F64 := magnitude (s.draws + b) (s.buf b) s.latched.s.toNat

/-- Bin `b` is emitted (43_peak_scan R175). -/
def binEmitted (s : State) (b : Nat) : Bool := fgt (binMagnitude s b) s.latched.th

/-- The entry for bin `b` (43_peak_scan R174, R176). -/
def binEntry (s : State) (b : Nat) : PeakEntry :=
  ⟨BitVec.ofNat 32 b, binFreq s.latched b, binMagnitude s b⟩

/-- The entries SCAN emits, in ascending bin order (43_peak_scan R173, R175). -/
def scanEntries (s : State) : List PeakEntry := ((windowBins s.latched).filter (binEmitted s)).map (binEntry s)

/-- SCAN's loop over the clamped window (43_peak_scan R173). -/
def scanWindow (s : State) : State :=
  { s.setPeaks 0 (scanEntries s) with
    peakCount := BitVec.ofNat 32 (scanEntries s).length, draws := s.draws + s.latched.n.toNat }

/-- The body of SCAN (43_peak_scan R173), shared with RUN: PEAK_COUNT <- 0, the checks in their order, then the loop. -/
def scanBody (op : Byte) (s : State) : State :=
  let t := { s with peakCount := 0 }
  if !legalN s.nMax s.latched.n then raiseErr .invalidTransformSize 0 op t
  else if !scanParamsLegal s.latched then raiseErr .invalidParameter 0 op t
  else if windowHi s.latched < windowLo s.latched then goto .fin t
  else if clampedHi s.latched < clampedLo s.latched then raiseErr .indexOutOfRange 0 op t
  else goto .fin (scanWindow s)

/-- SCAN (43_peak_scan R173). -/
def execScan (s : State) : Host.Outcome State Fault Refusal :=
  match s.seq.phase with
  | .scan => .next (scanBody Instr.scan.opcode s)
  | .fin => .next (complete s)
  | .init => .fault .sequencerPhase
  | .poll => .fault .sequencerPhase
  | .readB2 => .fault .sequencerPhase
  | .readB1 => .fault .sequencerPhase
  | .readB0 => .fault .sequencerPhase
  | .store => .fault .sequencerPhase
  | .fft => .fault .sequencerPhase

end Sys2Proof.Machine
end

