-- ==== Sys2Proof/Machine/Control.lean ====
section
/-! DEFINITION. NOP (44_command_control R196) and RUN (44_command_control R197). -/

namespace Sys2Proof.Machine

/-- NOP: `complete`, the step after acceptance (44_command_control R196). -/
def execNop (s : State) : Host.Outcome State Fault Refusal := .next (complete s)

/-- One step of RUN before its end: a step of the running sub-operation, whose opcode is what ERR_OP shows
(44_command_control R197, R198). -/
def runBody (s : State) : Host.Outcome State Fault Refusal :=
  match s.seq.sub with
  | some .acquire => acquireBody (enterSub .transform .fft) (SubOp.opcode .acquire) s
  | some .transform =>
    if s.seq.phase = .fft then .next (transformBody (enterSub .scan .scan) (SubOp.opcode .transform) s)
    else .fault .sequencerPhase
  | some .scan =>
    if s.seq.phase = .scan then .next (scanBody (SubOp.opcode .scan) s)
    else .fault .sequencerPhase
  | none => .fault .sequencerPhase

/-- RUN: ACQUIRE, TRANSFORM and SCAN on one L, then `complete` (44_command_control R197). -/
def execRun (s : State) : Host.Outcome State Fault Refusal :=
  if s.seq.phase = .fin then .next (complete s) else runBody s

end Sys2Proof.Machine
end

