-- ==== Sys2Proof/Machine/Dispatch.lean ====
section
/-! DEFINITION. One arm per command: `exec i s` is one core step of the command `i` (44_command_control R195). -/

namespace Sys2Proof.Machine

def exec (i : Instr) (s : State) : Host.Outcome State Fault Refusal :=
  match i with
  | .nop => Sys2Proof.Machine.execNop s
  | .readSample => Sys2Proof.Machine.execReadSample s
  | .acquire => Sys2Proof.Machine.execAcquire s
  | .transform => Sys2Proof.Machine.execTransform s
  | .scan => Sys2Proof.Machine.execScan s
  | .run => Sys2Proof.Machine.execRun s

end Sys2Proof.Machine
end

