-- ==== Sys2Proof/Machine/HostPort.lean ====
section
/-! DEFINITION. The host port (20_memory R60 to R67, R72), the host writes of 44_command_control R190 and R194, the
host's `wait` loop (30_encoding R96) and the reset input (70_reset_and_hazards R240 to R243). -/

namespace Sys2Proof.Machine

/-- The rows of the register map (10_state section 1). -/
inductive HostReg where
  | id | cmd | status | intEn | errIndex
  | fftSize | sampleCount | sampleRateHz | biasWindowS | windowSize
  | centerFreqLo | centerFreqHi | thresholdLo | thresholdHi
  | pollLimit | freqDivOffset | adcMap0 | adcMap1
  | sampleRaw | sampleVal | biasLo | biasHi | biasAccLo | biasAccHi | biasLenLo | biasLenHi
  | peakCount | nMax
deriving DecidableEq, Repr

/-- The register at word number `k` of the register region (10_state section 1). -/
def regAt : Nat → Option HostReg
  | 0 => some .id
  | 1 => some .cmd
  | 2 => some .status
  | 3 => some .intEn
  | 4 => some .errIndex
  | 5 => some .fftSize
  | 6 => some .sampleCount
  | 7 => some .sampleRateHz
  | 8 => some .biasWindowS
  | 9 => some .windowSize
  | 10 => some .centerFreqLo
  | 11 => some .centerFreqHi
  | 12 => some .thresholdLo
  | 13 => some .thresholdHi
  | 14 => some .pollLimit
  | 15 => some .freqDivOffset
  | 16 => some .adcMap0
  | 17 => some .adcMap1
  | 18 => some .sampleRaw
  | 19 => some .sampleVal
  | 20 => some .biasLo
  | 21 => some .biasHi
  | 22 => some .biasAccLo
  | 23 => some .biasAccHi
  | 24 => some .biasLenLo
  | 25 => some .biasLenHi
  | 26 => some .peakCount
  | 27 => some .nMax
  | _ => none

/-- A register's host offset (10_state section 1, 30_encoding R97). -/
def HostReg.offset : HostReg → HostOffset
  | .id => 0x000
  | .cmd => 0x004
  | .status => 0x008
  | .intEn => 0x00C
  | .errIndex => 0x010
  | .fftSize => 0x014
  | .sampleCount => 0x018
  | .sampleRateHz => 0x01C
  | .biasWindowS => 0x020
  | .windowSize => 0x024
  | .centerFreqLo => 0x028
  | .centerFreqHi => 0x02C
  | .thresholdLo => 0x030
  | .thresholdHi => 0x034
  | .pollLimit => 0x038
  | .freqDivOffset => 0x03C
  | .adcMap0 => 0x040
  | .adcMap1 => 0x044
  | .sampleRaw => 0x048
  | .sampleVal => 0x04C
  | .biasLo => 0x050
  | .biasHi => 0x054
  | .biasAccLo => 0x058
  | .biasAccHi => 0x05C
  | .biasLenLo => 0x060
  | .biasLenHi => 0x064
  | .peakCount => 0x068
  | .nMax => 0x06C

/-- The result registers: "SAMPLE_RAW, SAMPLE_VAL, BIAS_*, PEAK_COUNT and ERR_INDEX" (10_state section 1; log 12). -/
def HostReg.isResult : HostReg → Bool
  | .sampleRaw | .sampleVal | .biasLo | .biasHi | .biasAccLo | .biasAccHi | .biasLenLo | .biasLenHi => true
  | .peakCount | .errIndex => true
  | _ => false

/-- The parameter registers: offsets 0x014 to 0x044 (10_state section 1). -/
def HostReg.isParam : HostReg → Bool
  | .fftSize | .sampleCount | .sampleRateHz | .biasWindowS | .windowSize => true
  | .centerFreqLo | .centerFreqHi | .thresholdLo | .thresholdHi => true
  | .pollLimit | .freqDivOffset | .adcMap0 | .adcMap1 => true
  | _ => false

/-- What a host offset stands for (20_memory R60). -/
inductive HostTarget where
  | reg (r : HostReg)
  | buf
  | peak
  | reserved
deriving DecidableEq, Repr

/-- The region map (20_memory R60), for a word offset. -/
def hostTarget (nMax : Word) (off : Nat) : HostTarget :=
  if off < 0x000070 then
    match regAt (off / 4) with
    | some r => .reg r
    | none => .reserved
  else if 0x100000 ≤ off ∧ off < 0x100000 + 16 * nMax.toNat then .buf
  else if 0x200000 ≤ off ∧ off < 0x200000 + 32 * nMax.toNat then .peak
  else .reserved

/-- The block's offset for a platform address, with BASE as an argument: an access outside the 4 MiB range never
reaches the block (20_memory R60, R61; log 17). -/
def hostOffset (base addr : Nat) : Option HostOffset :=
  if base ≤ addr ∧ addr < base + 2 ^ 22 then some (BitVec.ofNat 22 (addr - base)) else none

/-- The value of a register (10_state R20 to R44): CMD reads 0, reserved bits read 0. -/
def State.regWord (s : State) : HostReg → Word
  | .id => Config.idValue
  | .cmd => 0
  | .status => s.status.word
  | .intEn => (0 : BitVec 31) ++ BitVec.ofBool s.doneIe
  | .errIndex => s.errIndex
  | .fftSize => s.par.fftSize
  | .sampleCount => s.par.sampleCount
  | .sampleRateHz => s.par.sampleRateHz
  | .biasWindowS => s.par.biasWindowS
  | .windowSize => s.par.windowSize
  | .centerFreqLo => s.par.centerFreqLo
  | .centerFreqHi => s.par.centerFreqHi
  | .thresholdLo => s.par.thresholdLo
  | .thresholdHi => s.par.thresholdHi
  | .pollLimit => s.par.pollLimit
  | .freqDivOffset => s.par.freqDivOffset
  | .adcMap0 => (0 : BitVec 21) ++ s.par.drdyBit ++ s.par.drdyReg
  | .adcMap1 => (0 : BitVec 8) ++ s.par.b0Reg ++ s.par.b1Reg ++ s.par.b2Reg
  | .sampleRaw => (0 : BitVec 8) ++ s.sampleRaw
  | .sampleVal => s.sampleVal
  | .biasLo => loHalf s.bias
  | .biasHi => hiHalf s.bias
  | .biasAccLo => loHalf s.acc
  | .biasAccHi => hiHalf s.acc
  | .biasLenLo => loHalf s.biasLen
  | .biasLenHi => hiHalf s.biasLen
  | .peakCount => s.peakCount
  | .nMax => s.nMax

/-- A word of the PEAK window: the words at +4, +24 and +28 of an entry read 0 (20_memory R63). -/
def State.peakWord (s : State) (off : Nat) : Word :=
  if off % 32 = 4 ∨ off % 32 = 24 ∨ off % 32 = 28 then 0 else s.wordAt off

/-- What a host offset reads while the block is idle (20_memory R60 to R63). -/
def State.idleRead (s : State) (off : HostOffset) : Word :=
  match hostTarget s.nMax off.toNat with
  | .reg r => s.regWord r
  | .buf => s.wordAt off.toNat
  | .peak => s.peakWord off.toNat
  | .reserved => 0

/-- A host read of this offset returns an unspecified word now (20_memory R72). -/
def State.readIsDraw (s : State) (off : HostOffset) : Bool :=
  s.status.busy &&
    match hostTarget s.nMax off.toNat with
    | .reg r => r.isResult
    | .buf => true
    | .peak => true
    | .reserved => false

/-- What a host read of this offset returns (20_memory R72; log 5). -/
def State.readValue (s : State) (off : HostOffset) : Word :=
  if s.readIsDraw off then Config.busyReadWord s.draws else s.idleRead off

/-- `HostRead(off)`: no side effect (20_memory R67), but for the model's history and draw counter. -/
def hostRead (off : HostOffset) (s : State) : State :=
  { s with
    history := .hostRead off (s.readValue off) :: s.history
    draws := if s.readIsDraw off then s.draws + 1 else s.draws }

/-- Store a parameter register: every bit that is not reserved (10_state R20, R27 to R37). -/
def Params.write (p : Params) (r : HostReg) (v : Word) : Params :=
  match r with
  | .fftSize => { p with fftSize := v }
  | .sampleCount => { p with sampleCount := v }
  | .sampleRateHz => { p with sampleRateHz := v }
  | .biasWindowS => { p with biasWindowS := v }
  | .windowSize => { p with windowSize := v }
  | .centerFreqLo => { p with centerFreqLo := v }
  | .centerFreqHi => { p with centerFreqHi := v }
  | .thresholdLo => { p with thresholdLo := v }
  | .thresholdHi => { p with thresholdHi := v }
  | .pollLimit => { p with pollLimit := v }
  | .freqDivOffset => { p with freqDivOffset := v }
  | .adcMap0 => { p with drdyReg := v.extractLsb' 0 8, drdyBit := v.extractLsb' 8 3 }
  | .adcMap1 => { p with b2Reg := v.extractLsb' 0 8, b1Reg := v.extractLsb' 8 8, b0Reg := v.extractLsb' 16 8 }
  | _ => p

/-- A host write is dropped (44_command_control R194). -/
def dropWrite (s : State) : State := { s with status := s.status.drop }

/-- The effect of a host write of `v` to a register (10_state R20 to R44, 44_command_control R190, R194). -/
def writeReg (r : HostReg) (v : Word) (s : State) : State :=
  match r with
  | .cmd => if s.status.busy then dropWrite s else accept v s
  | .status => { s with status := s.status.w1c v }
  | .intEn => { s with doneIe := v.getLsbD 0 }
  | _ =>
    if r.isParam then
      if s.status.busy then dropWrite s else { s with par := s.par.write r v }
    else s

/-- The effect of a host write of `v` at an offset (20_memory R60 to R63, R67). -/
def writeTarget (off : HostOffset) (v : Word) (s : State) : State :=
  match hostTarget s.nMax off.toNat with
  | .reg r => writeReg r v s
  | .buf => if s.status.busy then dropWrite s else { s with mem := Memory.writeWord s.mem off.toNat v }
  | .peak => s
  | .reserved => s

/-- `HostWrite(off, v)` (20_memory R61). -/
def hostWrite (off : HostOffset) (v : Word) (s : State) : State :=
  writeTarget off v { s with history := .hostWrite off v :: s.history }

/-- One turn of the host's `wait` loop (30_encoding R96): a read of STATUS, and while it shows BUSY = 1 the loop stays
pending behind `turns` steps of the core (log 21). -/
def hostWait (turns : Nat) (s : State) : State :=
  let t := hostRead HostReg.status.offset s
  if s.status.busy then { t with env := List.replicate turns .coreTurn ++ .wait turns :: t.env } else t

/-- Reset is asserted (70_reset_and_hazards R240 to R243): every register at its reset value, the unwritten bytes of
BUF and PEAK and all of SCR a new draw. The inputs and the history are not the block's and stay; N_MAX is constant. -/
def applyReset (s : State) : State :=
  { State.reset with
    nMax := s.nMax, memEpoch := s.draws + 1, scrDraw := s.draws + 1, draws := s.draws + 1
    inReset := true, env := s.env, adc := s.adc, history := s.history }

/-- Reset with a BusRead in flight: it has reached the ADC and is in the history, and its byte is discarded
(70_reset_and_hazards R242). -/
def assertReset (inFlight : Bool) (s : State) : State :=
  if inFlight then
    match pendingBusRead s with
    | some reg => applyReset (busRead reg s)
    | none => applyReset s
  else applyReset s

/-- A host access: refused while reset is asserted (70_reset_and_hazards R243) and when it is not an aligned 32-bit word
(20_memory R61). -/
def hostAccess (m : Move) (effect : State → State) (s : State) : Host.Outcome State Fault Refusal :=
  if s.inReset then .refused .hostAccessInReset
  else if m.wf then .next (effect s)
  else .refused .hostAccessShape

/-- One move from outside the core (44_command_control R195). The state no longer lists the move. -/
def outsideMove (m : Move) (s : State) : Host.Outcome State Fault Refusal :=
  match m with
  | .coreTurn => .next s
  | .read off size => hostAccess (.read off size) (hostRead off) s
  | .write off size v => hostAccess (.write off size v) (hostWrite off v) s
  | .wait turns => hostAccess (.wait turns) (hostWait turns) s
  | .assertReset inFlight => .next (assertReset inFlight s)
  | .releaseReset => .next { s with inReset := false }

end Sys2Proof.Machine
end

