-- ==== Sys2Proof/Machine/Step.lean ====
section
/-! DEFINITION. The step relation as a function (44_command_control R195): at each step exactly one agent moves, and the
state's list of moves says which (log 1). -/

namespace Sys2Proof.Machine

/-- One step of the core: one core step of the accepted command. An idle core, and a core whose reset is asserted, does
nothing (60_exceptions R235, 70_reset_and_hazards R243). -/
def coreStep (s : State) : Host.Outcome State Fault Refusal :=
  if s.inReset then .next s
  else
    match s.seq.op with
    | none => .next s
    | some i => exec i s

/-- One step of the machine. With no move listed, the core moves. -/
def step (s : State) : Host.Outcome State Fault Refusal :=
  match s.env with
  | [] => coreStep s
  | .coreTurn :: rest => coreStep { s with env := rest }
  | m :: rest => outsideMove m { s with env := rest }

/-- The block fetches nothing (20_memory R69): a command is what the host has written to CMD. This is `s` right after the
acceptance of the command word `w` (44_command_control R191), with the core to move next, so that the very next step is
the command's first core step (log 2). -/
def State.withFetchWord (s : State) (nbits w : Nat) : State := s.withAccepted nbits w

end Sys2Proof.Machine
end

