-- ==== Sys2Proof/Machine/Script.lean ====
section
/-! DEFINITION. The host-script syntax of 30_encoding R95 to R97 as data, and its expansion into host-port accesses.
The script is the host's, not the block's. -/

namespace Sys2Proof.Machine

/-- Host-script statements (30_encoding R95, R96). A 64-bit name is given by the offset of its low half. -/
inductive Stmt where
  /-- `wr OFF, V` -/
  | wr (off : HostOffset) (v : Word)
  /-- `rd OFF`, and `rd OFF == V`: the expectation is the test's, not the hardware's. -/
  | rd (off : HostOffset) (expected : Option Word)
  /-- `wr64 NAME, F` -/
  | wr64 (lo : HostOffset) (f : F64)
  /-- `rd64 NAME` -/
  | rd64 (lo : HostOffset)
  /-- `cmd MNEMONIC` -/
  | cmd (i : Instr)
  /-- `wait`, with the core's turns between two reads of STATUS (log 21). -/
  | wait (turns : Nat)
  /-- `clrdone` -/
  | clrdone
  /-- `clrdrop` -/
  | clrdrop
deriving DecidableEq, Repr

/-- The expansion of a statement into host-port transactions (30_encoding R95, R96). -/
def Stmt.expand : Stmt → List Move
  | .wr off v => [.write off 4 v]
  | .rd off _ => [.read off 4]
  | .wr64 lo f => [.write lo 4 (loHalf f), .write (lo + 4) 4 (hiHalf f)]
  | .rd64 lo => [.read lo 4, .read (lo + 4) 4]
  | .cmd i => [.write HostReg.cmd.offset 4 (encode i)]
  | .wait turns => [.wait turns]
  | .clrdone => [.write HostReg.status.offset 4 0x00000002]
  | .clrdrop => [.write HostReg.status.offset 4 0x00000008]

/-- A host script as moves, with no turn of the core but in its `wait` loops. -/
def expandScript (p : List Stmt) : List Move := p.flatMap Stmt.expand

/-- `BUF(k).re_LO`; the other words follow at +4, +8 and +12 (30_encoding R97). -/
def bufReLo (k : Nat) : HostOffset := BitVec.ofNat 22 (bufAddr k)

/-- `BUF(k).im_LO` (30_encoding R97). -/
def bufImLo (k : Nat) : HostOffset := BitVec.ofNat 22 (bufAddr k + 8)

/-- `PEAK(k).bin` (30_encoding R97). -/
def peakBin (k : Nat) : HostOffset := BitVec.ofNat 22 (peakAddr k)

/-- `PEAK(k).freq_LO` (30_encoding R97). -/
def peakFreqLo (k : Nat) : HostOffset := BitVec.ofNat 22 (peakAddr k + 8)

/-- `PEAK(k).mag_LO` (30_encoding R97). -/
def peakMagLo (k : Nat) : HostOffset := BitVec.ofNat 22 (peakAddr k + 16)

/-- The values the host has read, oldest first: a script's trace (30_encoding R95). -/
def hostTrace (s : State) : List Word :=
  s.history.reverse.filterMap (fun e => match e with
    | .hostRead _ v => some v
    | .hostWrite _ _ => none
    | .busRead _ _ => none)

/-- The BusReads made, oldest first (20_memory R70). -/
def busTrace (s : State) : List (Byte × Byte) :=
  s.history.reverse.filterMap (fun e => match e with
    | .busRead reg b => some (reg, b)
    | .hostRead _ _ => none
    | .hostWrite _ _ => none)

end Sys2Proof.Machine
end

