-- ==== Sys2Proof/Safety.lean ====
section
/-! DEFINITION. What the statements call legal: the invariant of the block's state, clause by clause as the spec gives
it, and a host that makes only accesses with a meaning. -/

namespace Sys2Proof.Machine

/-- STATUS is in a legal state (10_state R22): BUSY = 1 implies DONE, ERR, ERRCODE and ERR_OP are 0; ERR = 1 implies
BUSY = 0 and ERRCODE ≠ 0; ERRCODE and ERR_OP are 0 when ERR = 0. -/
def Status.legal (t : Status) : Prop :=
  (t.busy = true → t.done = false ∧ t.err = false ∧ t.errCode = 0 ∧ t.errOp = 0) ∧
  (t.err = true → t.busy = false ∧ t.errCode ≠ 0) ∧
  (t.err = false → t.errCode = 0 ∧ t.errOp = 0)

/-- ERRCODE is a code the core raises, or 0: never 1 to 3 and never 9 to 15 (60_exceptions R210, I-12). -/
def Status.codeLegal (t : Status) : Prop :=
  t.errCode = 0 ∨ t.errCode = 4 ∨ t.errCode = 5 ∨ t.errCode = 6 ∨ t.errCode = 7 ∨ t.errCode = 8

/-- The phases of the sample reader and of STORE, in which a sample is under way (10_state R50). -/
def Phase.sampling : Phase → Bool
  | .poll | .readB2 | .readB1 | .readB0 | .store => true
  | .init | .fft | .scan | .fin => false

/-- The sequencer is in a phase that its command's rule has, and RUN alone has a sub-operation (10_state R50). -/
def Seq.legal (q : Seq) : Prop :=
  match q.op, q.sub with
  | none, none => True
  | some .nop, none => q.phase = .fin
  | some .readSample, none => (q.phase.sampling = true ∧ q.phase ≠ .store) ∨ q.phase = .fin
  | some .acquire, none => q.phase = .init ∨ q.phase.sampling = true ∨ q.phase = .fin
  | some .transform, none => q.phase = .fft ∨ q.phase = .fin
  | some .scan, none => q.phase = .scan ∨ q.phase = .fin
  | some .run, some .acquire => q.phase = .init ∨ q.phase.sampling = true
  | some .run, some .transform => q.phase = .fft
  | some .run, some .scan => q.phase = .scan ∨ q.phase = .fin
  | _, _ => False

/-- ACQUIRE, alone or in RUN, is past its checks with a sample under way. -/
def State.acquiring (s : State) : Prop :=
  (s.seq.op = some .acquire ∨ (s.seq.op = some .run ∧ s.seq.sub = some .acquire)) ∧ s.seq.phase.sampling = true

/-- RUN is past ACQUIRE. -/
def State.pastAcquire (s : State) : Prop :=
  s.seq.op = some .run ∧ (s.seq.sub = some .transform ∨ s.seq.sub = some .scan)

/-- The host offset `a` is a byte of BUF or of PEAK (20_memory R60). -/
def storedOffset (nMax : Word) (a : Nat) : Prop :=
  (0x100000 ≤ a ∧ a < 0x100000 + 16 * nMax.toNat) ∨ (0x200000 ≤ a ∧ a < 0x200000 + 32 * nMax.toNat)

/-- The invariant of the block. -/
structure State.Inv (s : State) : Prop where
  /-- N_MAX is a power of two from 1 to 65536 (00_scope R7). -/
  capacity : legalCapacity s.nMax = true
  /-- The memory is in canonical form. -/
  memWf : Memory.wf s.mem
  /-- Only bytes of BUF and PEAK are stored (20_memory R60). -/
  memRange : ∀ c ∈ s.mem, storedOffset s.nMax c.1
  /-- 10_state R22. -/
  status : s.status.legal
  /-- 60_exceptions R210. -/
  code : s.status.codeLegal
  /-- BUSY = 1 exactly while a command is in progress (10_state R22, R50). -/
  busyOp : s.status.busy = true ↔ s.seq.op ≠ none
  /-- While reset is asserted no command is in progress (70_reset_and_hazards R242, R243). -/
  resetIdle : s.inReset = true → s.seq.op = none
  /-- 10_state R50. -/
  seqLegal : s.seq.legal
  /-- L equals the registers for the whole command (10_state R49). -/
  latchAgrees : s.status.busy = true → s.latched = latch s.par
  /-- 0 ≤ i ≤ L.S and 0 ≤ polls ≤ L.P (10_state R50). -/
  counts : s.status.busy = true → s.seq.i ≤ s.latched.s.toNat ∧ s.seq.polls ≤ s.latched.p.toNat
  /-- While ACQUIRE reads a sample its checks have passed and the index is one of its samples (41_bias_acquire R137). -/
  acquiring : s.acquiring →
    s.seq.i < s.latched.s.toNat ∧ legalN s.nMax s.latched.n = true ∧ s.latched.s.toNat ≤ s.latched.n.toNat
  /-- Past ACQUIRE, RUN has a legal size (44_command_control R197). -/
  pastAcquire : s.pastAcquire → legalN s.nMax s.latched.n = true ∧ s.latched.s.toNat ≤ s.latched.n.toNat
  /-- |ACC| ≤ 2^39, and while a sample is under way at most i samples are in it (41_bias_acquire R131). -/
  accBound : s.acc.toInt.natAbs ≤ 2 ^ 39 ∧ (s.acquiring → s.acc.toInt.natAbs ≤ s.seq.i * 2 ^ 23)
  /-- SAMPLE_VAL = sext_32(SAMPLE_RAW) (10_state R39). -/
  sample : s.sampleVal = extendSample s.sampleRaw
  /-- PEAK never overflows (43_peak_scan R178). -/
  peakCount : s.peakCount.toNat ≤ s.nMax.toNat
  /-- Only a SampleTimeout writes a nonzero ERR_INDEX, and acceptance clears it (10_state R25). -/
  errIndex : s.errIndex ≠ 0 → s.status.errCode = 4
  /-- MODEL: the draws in use have been drawn (log 19). -/
  epochs : s.memEpoch ≤ s.draws ∧ s.scrDraw ≤ s.draws

/-- Every move still to come has a meaning (20_memory R61, 70_reset_and_hazards R250). -/
def State.hostLegal (s : State) : Prop := ∀ m ∈ s.env, m.wf = true

/-- The state with `moves` still to come from outside the core. -/
def State.facing (s : State) (moves : List Move) : State := { s with env := moves }

/-- The step answers a next state that satisfies `P`. -/
def NextSatisfies (o : Host.Outcome State Fault Refusal) (P : State → Prop) : Prop := ∃ t, o = .next t ∧ P t

/-! ### What a step leaves alone -/

/-- Everything that no core step writes: the parameter registers, INT_EN, N_MAX, L, the reset input and the moves still
to come. -/
def SameSetup (s t : State) : Prop :=
  t.par = s.par ∧ t.doneIe = s.doneIe ∧ t.nMax = s.nMax ∧ t.latched = s.latched ∧ t.inReset = s.inReset ∧ t.env = s.env

/-- SAMPLE_RAW and SAMPLE_VAL are unchanged. -/
def SameSample (s t : State) : Prop := t.sampleRaw = s.sampleRaw ∧ t.sampleVal = s.sampleVal

/-- BIAS, BIAS_ACC and BIAS_LEN are unchanged. -/
def SameBias (s t : State) : Prop := t.bias = s.bias ∧ t.acc = s.acc ∧ t.biasLen = s.biasLen

/-- Every byte of BUF and PEAK reads as before. -/
def SameBytes (s t : State) : Prop := ∀ a, t.byteAt a = s.byteAt a

/-- Every byte outside the `len` bytes from `a` on reads as before. -/
def SameBytesOutside (a len : Nat) (s t : State) : Prop := ∀ b, ¬ (a ≤ b ∧ b < a + len) → t.byteAt b = s.byteAt b

/-- Every entry of SCR is unchanged. -/
def SameScr (s t : State) : Prop := ∀ k, t.scr k = s.scr k

/-- No transaction happened at either interface. -/
def SameBus (s t : State) : Prop := t.adc = s.adc ∧ t.history = s.history

/-- The command ended without error: the status and the sequencer are as 44_command_control R192 leaves them. -/
def EndedOk (s t : State) : Prop :=
  t.status = { s.status with busy := false, done := true } ∧ t.seq = { s.seq with op := none, sub := none }

/-- The command ended with an error: the status and the sequencer are as 60_exceptions R213 leaves them. -/
def EndedErr (code : BitVec 4) (op : Byte) (s t : State) : Prop :=
  t.status = { s.status with busy := false, done := true, err := true, errCode := code, errOp := op } ∧
  t.seq = { s.seq with op := none, sub := none }

/-! ### The commands by what they do -/

/-- The command `i`, with RUN in the sub-operation `sub`, is reading samples (40_sample_reader R110). -/
def ReadsSamples (i : Instr) (sub : Option SubOp) : Prop :=
  i = .readSample ∨ i = .acquire ∨ (i = .run ∧ sub = some .acquire)

/-- The command `i`, with RUN in the sub-operation `sub`, is acquiring (41_bias_acquire R137). -/
def Acquires (i : Instr) (sub : Option SubOp) : Prop := i = .acquire ∨ (i = .run ∧ sub = some .acquire)

/-- What ERR_OP shows for an error in the command `i` with RUN in `sub` (44_command_control R198). -/
def errOpOf (i : Instr) (sub : Option SubOp) : Byte :=
  match i, sub with
  | .run, some .acquire => 0x02
  | .run, some .transform => 0x03
  | .run, some .scan => 0x04
  | .run, none => 0x05
  | .nop, _ => 0x00
  | .readSample, _ => 0x01
  | .acquire, _ => 0x02
  | .transform, _ => 0x03
  | .scan, _ => 0x04

/-- The bytes of one whole sample read: the polls that read not ready, the ready poll, and the three data bytes
(40_sample_reader R110). -/
structure SampleRead where
  notReady : List Byte
  ready : Byte
  b2 : Byte
  b1 : Byte
  b0 : Byte
deriving DecidableEq, Repr

/-- The bytes in the order the ADC answers them. -/
def SampleRead.bytes (r : SampleRead) : List Byte := r.notReady ++ [r.ready, r.b2, r.b1, r.b0]

/-- The polls read as they must for the sample to be read: not ready, fewer than L.P times, then ready
(40_sample_reader R111, R112). -/
def SampleRead.ok (l : Latched) (r : SampleRead) : Prop :=
  r.notReady.length < l.p.toNat ∧ (∀ d ∈ r.notReady, d.getLsbD l.drdyBit.toNat = false) ∧
  r.ready.getLsbD l.drdyBit.toNat = true

/-- The events of the sample read, newest first. -/
def SampleRead.events (l : Latched) (r : SampleRead) : List Event :=
  [.busRead l.b0Reg r.b0, .busRead l.b1Reg r.b1, .busRead l.b2Reg r.b2, .busRead l.drdyReg r.ready] ++
    (r.notReady.map (Event.busRead l.drdyReg)).reverse

/-- The raw sample (40_sample_reader R115). -/
def SampleRead.raw (r : SampleRead) : BitVec 24 := BitVec.ofNat 24 (r.b2.toNat * 65536 + r.b1.toNat * 256 + r.b0.toNat)

/-- The sample (40_sample_reader R116). -/
def SampleRead.value (r : SampleRead) : Int := r.raw.toInt

/-- The core has just accepted the command `i`, and moves on undisturbed (44_command_control R191). -/
def JustAccepted (i : Instr) (s : State) : Prop :=
  s.inReset = false ∧ s.env = [] ∧ s.seq.op = some i ∧ s.seq.sub = firstSub i ∧ s.seq.i = 0 ∧ s.seq.polls = 0 ∧
  s.seq.phase = firstPhase i

/-- How many BusReads a state's history holds. -/
def State.busReads (s : State) : Nat :=
  (s.history.filter (fun e => match e with
    | .busRead _ _ => true
    | .hostRead _ _ => false
    | .hostWrite _ _ => false)).length

/-! ### Rounding -/

/-- `x` is a binary64 value nearest to `num / den`, and has an even last bit if another one is as near
(00_scope R11). All is scaled by 2^1074, so that the distances are integers. -/
def IsNearest (num : Int) (den : Nat) (x : F64) : Prop :=
  F64.isFinite x = true ∧
  ∀ y : F64, F64.isFinite y = true →
    (num * f64Unit - F64.scaled x * den).natAbs ≤ (num * f64Unit - F64.scaled y * den).natAbs ∧
    ((num * f64Unit - F64.scaled x * den).natAbs = (num * f64Unit - F64.scaled y * den).natAbs →
      F64.scaled y ≠ F64.scaled x → x.getLsbD 0 = false)

/-- The bound from which `num / den` rounds to infinity: 2^1024 * (1 - 2^-54) (00_scope R11). -/
def Overflows (num : Int) (den : Nat) : Prop := (2 ^ 1024 - 2 ^ 970) * den ≤ num.natAbs

/-- `k` steps of the machine. -/
def runSteps (k : Nat) (s : State) : Host.Outcome State Fault Refusal :=
  match k with
  | 0 => .next s
  | k + 1 =>
    match step s with
    | .next t => runSteps k t
    | .fault r => .fault r
    | .refused r => .refused r

end Sys2Proof.Machine
end

