-- ==== Sys2Proof/Certificates/Slice0/Obligations.lean ====
section
/-! DEFINITION. The statements for the provers, from the numbered rules of spec/. `s.facing moves` is the state `s` with
`moves` still to come from outside the core. -/

open Sys2Proof Sys2Proof.Machine

/-! ### Encoding (30_encoding) -/

/-- R91, R92, R94: the opcode map, and which words are ILLEGAL and why. -/
def Obligations.DecodeIsTheOpcodeMap : Prop :=
  (∀ (w : Word) (i : Instr), decode w = .ok i ↔
    (w, i) ∈ [((0x00000000 : Word), Instr.nop), (0x00000001, .readSample), (0x00000002, .acquire),
      (0x00000003, .transform), (0x00000004, .scan), (0x00000005, .run)]) ∧
  (∀ w : Word, decode w = .error .reservedOpcode ↔ 6 ≤ w.toNat ∧ w.toNat ≤ 255) ∧
  (∀ w : Word, decode w = .error .reservedBits ↔ 256 ≤ w.toNat)

/-- R90, R92: decoding an encoded command gives it back, and a word that decodes to a command is its encoding. -/
def Obligations.DecodeEncodeRoundTrip : Prop :=
  (∀ i : Instr, i.wf = true → decode (encode i) = .ok i) ∧
  (∀ (w : Word) (i : Instr), decode w = .ok i → encode i = w) ∧
  (∀ (w : Word) (i : Instr), decodeTableWord 32 w.toNat = some i ↔ w = encode i)

/-- R92 and R94 on words written out bit by bit; the expansion of every host-script statement into host accesses
(R95, R96) and the offsets that its symbolic names stand for (R97). The number of core turns that a `wait` carries is the
model's (log 21). -/
def Obligations.KnownWordsDecode : Prop :=
  decode 0b00000000000000000000000000000010 = .ok .acquire ∧
  decode 0b00000000000000000000000000000101 = .ok .run ∧
  decode 0b00000000000000000000000100000000 = .error .reservedBits ∧
  decode 0b00000000000000000000000000000110 = .error .reservedOpcode ∧
  (∀ (off : HostOffset) (v : Word) (e : Option Word), (Stmt.wr off v).expand = [.write off 4 v] ∧
    (Stmt.rd off e).expand = [.read off 4]) ∧
  (∀ (lo : HostOffset) (f : F64),
    (Stmt.wr64 lo f).expand = [.write lo 4 (f.extractLsb' 0 32), .write (lo + 4) 4 (f.extractLsb' 32 32)] ∧
    (Stmt.rd64 lo).expand = [.read lo 4, .read (lo + 4) 4]) ∧
  (∀ e ∈ ([(.nop, 0x00000000), (.readSample, 0x00000001), (.acquire, 0x00000002), (.transform, 0x00000003),
      (.scan, 0x00000004), (.run, 0x00000005)] : List (Instr × Word)),
    (Stmt.cmd e.1).expand = [.write 0x004 4 e.2]) ∧
  (∀ turns : Nat, (Stmt.wait turns).expand = [.wait turns]) ∧
  Stmt.clrdone.expand = [.write 0x008 4 0x00000002] ∧ Stmt.clrdrop.expand = [.write 0x008 4 0x00000008] ∧
  (∀ (a : Stmt) (script : List Stmt), expandScript (a :: script) = a.expand ++ expandScript script) ∧
  expandScript [] = [] ∧
  ([.id, .cmd, .status, .intEn, .errIndex, .fftSize, .sampleCount, .sampleRateHz, .biasWindowS, .windowSize,
      .centerFreqLo, .centerFreqHi, .thresholdLo, .thresholdHi, .pollLimit, .freqDivOffset, .adcMap0, .adcMap1,
      .sampleRaw, .sampleVal, .biasLo, .biasHi, .biasAccLo, .biasAccHi, .biasLenLo, .biasLenHi, .peakCount,
      .nMax].map HostReg.offset =
    [0x000, 0x004, 0x008, 0x00C, 0x010, 0x014, 0x018, 0x01C, 0x020, 0x024, 0x028, 0x02C, 0x030, 0x034, 0x038, 0x03C,
      0x040, 0x044, 0x048, 0x04C, 0x050, 0x054, 0x058, 0x05C, 0x060, 0x064, 0x068, 0x06C]) ∧
  (∀ k : Nat, bufReLo k = BitVec.ofNat 22 (0x100000 + 16 * k) ∧ bufImLo k = BitVec.ofNat 22 (0x100000 + 16 * k + 8) ∧
    peakBin k = BitVec.ofNat 22 (0x200000 + 32 * k) ∧ peakFreqLo k = BitVec.ofNat 22 (0x200000 + 32 * k + 8) ∧
    peakMagLo k = BitVec.ofNat 22 (0x200000 + 32 * k + 16))

/-! ### The step (44_command_control R195, 20_memory R69) -/

/-- A core step of a machine whose reset is released is `exec` of the accepted command. -/
def Obligations.StepRunsAcceptedCommand : Prop :=
  ∀ (s : State) (i : Instr) (rest : List Move), s.inReset = false → s.seq.op = some i → i.wf = true →
    step (s.facing []) = exec i (s.facing []) ∧
    step (s.facing (.coreTurn :: rest)) = exec i (s.facing rest)

/-- A word that decodes, once it is accepted, is what the very next step runs. -/
def Obligations.AcceptedWordRunsNext : Prop :=
  ∀ (s : State) (nbits w : Nat) (i : Instr), decodeTableWord nbits w = some i →
    ∃ u : State, u.seq.op = some i ∧ u.status.busy = true ∧ u.latched = latch s.par ∧ u.env = s.env ∧ u.mem = s.mem ∧
      step (s.withFetchWord nbits w) = exec i u

/-! ### Reset (70_reset_and_hazards) -/

/-- R240: what every register reads right after reset, the interrupt, and the idle sequencer. -/
def Obligations.ResetRegisterValues : Prop :=
  (∀ e ∈ ([(0x000, 0x4E464654), (0x004, 0), (0x008, 0), (0x00C, 0), (0x010, 0), (0x014, 0), (0x018, 0), (0x01C, 0),
      (0x020, 0), (0x024, 0), (0x028, 0), (0x02C, 0), (0x030, 0), (0x034, 0), (0x038, 0x00002710), (0x03C, 2),
      (0x040, 0x00000500), (0x044, 0x00141312), (0x048, 0), (0x04C, 0), (0x050, 0), (0x054, 0), (0x058, 0), (0x05C, 0),
      (0x060, 0), (0x064, 0), (0x068, 0), (0x06C, State.reset.nMax)] : List (HostOffset × Word)),
    State.reset.readValue e.1 = e.2) ∧
  State.reset.irq = false ∧ State.reset.seq.op = none

/-- The invariant holds right after reset. Where it speaks of a value that the spec leaves open at reset (L, the counters of
the sequencer, N_MAX) it rests on the model's choices of logs 8, 9 and 11. -/
def Obligations.ResetMeetsInvariant : Prop := State.reset.Inv

/-- Every step, of the core or of the outside, keeps the invariant. -/
def Obligations.StepKeepsInvariant : Prop :=
  ∀ s t : State, s.Inv → step s = .next t → t.Inv

/-- Under the invariant no step faults, and a step is refused only for a host access that the spec gives no meaning:
one of another shape (20_memory R61) or one while reset is asserted (R243). -/
def Obligations.InvariantRulesOutFaults : Prop :=
  ∀ s : State, s.Inv →
    (∀ r, step s ≠ .fault r) ∧
    ∀ r, step s = .refused r →
      ∃ m rest, s.env = m :: rest ∧ ((r = .hostAccessInReset ∧ s.inReset = true) ∨ (r = .hostAccessShape ∧ m.wf = false))

/-- R240 to R243: asserting reset puts every register at its reset value, ends the command without completing it, and loses
BUF and PEAK; a BusRead in flight may be in the history, and its byte is discarded. That unwritten bytes are one
draw for each reset is the model's form of "unspecified" (log 6). -/
def Obligations.AssertingReset : Prop :=
  ∀ (s : State) (inFlight : Bool) (rest : List Move),
    NextSatisfies (step (s.facing (.assertReset inFlight :: rest))) fun t =>
      (∀ r : HostReg, r ≠ .nMax → t.regWord r = State.reset.regWord r) ∧ t.nMax = s.nMax ∧
      t.irq = false ∧ t.seq.op = none ∧ t.inReset = true ∧ t.env = rest ∧
      (∀ a, t.byteAt a = Config.powerOnByte t.memEpoch a) ∧ (s.memEpoch ≤ s.draws → t.memEpoch ≠ s.memEpoch) ∧
      (inFlight = false → SameBus s t) ∧
      (inFlight = true → pendingBusRead s = none → SameBus s t) ∧
      (inFlight = true → ∀ reg, pendingBusRead s = some reg → t.history = .busRead reg s.adcAnswer :: s.history)

/-- R243: while reset is asserted host accesses are refused, the core does nothing, and release changes nothing else. -/
def Obligations.HeldInReset : Prop :=
  ∀ (s : State) (rest : List Move), s.inReset = true →
    (∀ off size, step (s.facing (.read off size :: rest)) = .refused .hostAccessInReset) ∧
    (∀ off size v, step (s.facing (.write off size v :: rest)) = .refused .hostAccessInReset) ∧
    (∀ turns, step (s.facing (.wait turns :: rest)) = .refused .hostAccessInReset) ∧
    step (s.facing (.coreTurn :: rest)) = .next (s.facing rest) ∧
    step (s.facing []) = .next (s.facing []) ∧
    step (s.facing (.releaseReset :: rest)) = .next { s with env := rest, inReset := false }

/-! ### Host reads and writes (20_memory, 10_state) -/

/-- R250 (and 20_memory R61): an access that is not an aligned 32-bit word is refused, every other one is made. -/
def Obligations.AccessShape : Prop :=
  ∀ (s : State) (off : HostOffset) (size : Nat) (v : Word) (rest : List Move), s.inReset = false →
    ((size ≠ 4 ∨ off.toNat % 4 ≠ 0) →
      step (s.facing (.read off size :: rest)) = .refused .hostAccessShape ∧
      step (s.facing (.write off size v :: rest)) = .refused .hostAccessShape) ∧
    (size = 4 → off.toNat % 4 = 0 →
      NextSatisfies (step (s.facing (.read off size :: rest))) (fun t => t.env = rest) ∧
      NextSatisfies (step (s.facing (.write off size v :: rest))) (fun t => t.env = rest))

/-- R22: the bits of the word that a read of STATUS returns. -/
def Obligations.StatusWordLayout : Prop :=
  ∀ t : Status, t.word.getLsbD 0 = t.busy ∧ t.word.getLsbD 1 = t.done ∧ t.word.getLsbD 2 = t.err ∧
    t.word.getLsbD 3 = t.dropped ∧ t.word.extractLsb' 4 4 = 0 ∧ t.word.extractLsb' 8 4 = t.errCode ∧
    t.word.extractLsb' 12 4 = 0 ∧ t.word.extractLsb' 16 8 = t.errOp ∧ t.word.extractLsb' 24 8 = 0

/-- R20 to R44 and 20_memory R72: what a read of each register returns, busy or idle, and that it changes nothing. The
word of a busy read is a free value (log 5). The last clause, the busy reads of ERR_INDEX and of N_MAX, is no rule of the
spec: it is the model's choice of log 12. -/
def Obligations.RegisterReads : Prop :=
  ∀ (s : State) (rest : List Move), s.inReset = false →
    (∀ e ∈ ([(0x000, 0x4E464654), (0x004, 0), (0x008, s.status.word), (0x00C, if s.doneIe then 1 else 0),
        (0x014, s.par.fftSize), (0x018, s.par.sampleCount), (0x01C, s.par.sampleRateHz), (0x020, s.par.biasWindowS),
        (0x024, s.par.windowSize), (0x028, s.par.centerFreqLo), (0x02C, s.par.centerFreqHi),
        (0x030, s.par.thresholdLo), (0x034, s.par.thresholdHi), (0x038, s.par.pollLimit),
        (0x03C, s.par.freqDivOffset), (0x040, BitVec.ofNat 32 (s.par.drdyBit.toNat * 256 + s.par.drdyReg.toNat)),
        (0x044, BitVec.ofNat 32 (s.par.b0Reg.toNat * 65536 + s.par.b1Reg.toNat * 256 + s.par.b2Reg.toNat))] :
        List (HostOffset × Word)),
      step (s.facing (.read e.1 4 :: rest)) =
        .next { s with env := rest, history := .hostRead e.1 e.2 :: s.history }) ∧
    (s.status.busy = false → ∀ e ∈ ([(0x010, s.errIndex), (0x048, s.sampleRaw.setWidth 32), (0x04C, s.sampleVal),
        (0x050, s.bias.extractLsb' 0 32), (0x054, s.bias.extractLsb' 32 32), (0x058, s.acc.extractLsb' 0 32),
        (0x05C, s.acc.extractLsb' 32 32), (0x060, s.biasLen.extractLsb' 0 32), (0x064, s.biasLen.extractLsb' 32 32),
        (0x068, s.peakCount), (0x06C, s.nMax)] : List (HostOffset × Word)),
      step (s.facing (.read e.1 4 :: rest)) =
        .next { s with env := rest, history := .hostRead e.1 e.2 :: s.history }) ∧
    (s.status.busy = true →
      ∀ off ∈ ([0x048, 0x04C, 0x050, 0x054, 0x058, 0x05C, 0x060, 0x064, 0x068] : List HostOffset),
      step (s.facing (.read off 4 :: rest)) =
        .next { s with
          env := rest, history := .hostRead off (Config.busyReadWord s.draws) :: s.history, draws := s.draws + 1 }) ∧
    (s.status.busy = true →
      step (s.facing (.read 0x010 4 :: rest)) =
        .next { s with
          env := rest, history := .hostRead 0x010 (Config.busyReadWord s.draws) :: s.history, draws := s.draws + 1 } ∧
      step (s.facing (.read 0x06C 4 :: rest)) =
        .next { s with env := rest, history := .hostRead 0x06C s.nMax :: s.history })

/-- R62, R63, R64: what a read of each word of BUF[k] and PEAK[k] returns while the block is idle; busy, a free value
(R72; log 5). R60 and 10_state R45: a reserved offset reads 0, busy or idle. -/
def Obligations.BufferReads : Prop :=
  ∀ (s : State) (rest : List Move), s.inReset = false → legalCapacity s.nMax = true →
    (s.status.busy = false → ∀ k : Nat, k < s.nMax.toNat → ∀ e ∈ ([(0x100000 + 16 * k, (s.buf k).re.extractLsb' 0 32),
        (0x100000 + 16 * k + 4, (s.buf k).re.extractLsb' 32 32), (0x100000 + 16 * k + 8, (s.buf k).im.extractLsb' 0 32),
        (0x100000 + 16 * k + 12, (s.buf k).im.extractLsb' 32 32), (0x200000 + 32 * k, (s.peak k).bin),
        (0x200000 + 32 * k + 4, 0), (0x200000 + 32 * k + 8, (s.peak k).freq.extractLsb' 0 32),
        (0x200000 + 32 * k + 12, (s.peak k).freq.extractLsb' 32 32),
        (0x200000 + 32 * k + 16, (s.peak k).mag.extractLsb' 0 32),
        (0x200000 + 32 * k + 20, (s.peak k).mag.extractLsb' 32 32), (0x200000 + 32 * k + 24, 0),
        (0x200000 + 32 * k + 28, 0)] : List (Nat × Word)),
      step (s.facing (.read (BitVec.ofNat 22 e.1) 4 :: rest)) =
        .next { s with env := rest, history := .hostRead (BitVec.ofNat 22 e.1) e.2 :: s.history }) ∧
    (s.status.busy = true → ∀ k : Nat, k < s.nMax.toNat → ∀ a ∈ ([0x100000 + 16 * k, 0x100000 + 16 * k + 4,
        0x100000 + 16 * k + 8, 0x100000 + 16 * k + 12, 0x200000 + 32 * k, 0x200000 + 32 * k + 4, 0x200000 + 32 * k + 8,
        0x200000 + 32 * k + 12, 0x200000 + 32 * k + 16, 0x200000 + 32 * k + 20, 0x200000 + 32 * k + 24,
        0x200000 + 32 * k + 28] : List Nat),
      step (s.facing (.read (BitVec.ofNat 22 a) 4 :: rest)) =
        .next { s with
          env := rest, draws := s.draws + 1
          history := .hostRead (BitVec.ofNat 22 a) (Config.busyReadWord s.draws) :: s.history }) ∧
    (∀ off : HostOffset, off.toNat % 4 = 0 →
      ((0x070 ≤ off.toNat ∧ off.toNat < 0x100000) ∨
        (0x100000 + 16 * s.nMax.toNat ≤ off.toNat ∧ off.toNat < 0x200000) ∨
        0x200000 + 32 * s.nMax.toNat ≤ off.toNat) →
      step (s.facing (.read off 4 :: rest)) = .next { s with env := rest, history := .hostRead off 0 :: s.history })

/-- R67: no host read has a side effect, and a read of an idle block is idempotent. 30_encoding R95: the value read is
recorded in the script's trace. R96: `wait` reads STATUS, goes on when the word read shows BUSY = 0, and else reads it again
behind the core turns that the move names (the model's form of the loop, log 21). -/
def Obligations.HostReadHasNoSideEffect : Prop :=
  ∀ (s : State) (off : HostOffset) (rest : List Move), s.inReset = false → off.toNat % 4 = 0 →
    (∀ turns : Nat, step (s.facing (.wait turns :: rest)) =
      .next { s with
        history := .hostRead 0x008 s.status.word :: s.history
        env := if s.status.word.getLsbD 0 = false then rest
          else List.replicate turns .coreTurn ++ .wait turns :: rest }) ∧
    (NextSatisfies (step (s.facing (.read off 4 :: rest))) fun t =>
      ∃ v, t.history = .hostRead off v :: s.history ∧ hostTrace t = hostTrace s ++ [v]) ∧
    ∃ v₁ v₂ d, step (s.facing (.read off 4 :: .read off 4 :: rest)) =
        .next { s with env := .read off 4 :: rest, history := .hostRead off v₁ :: s.history, draws := d } ∧
      NextSatisfies (step { s with env := .read off 4 :: rest, history := .hostRead off v₁ :: s.history, draws := d })
        (fun t => t = { s with
            env := rest, history := .hostRead off v₂ :: .hostRead off v₁ :: s.history, draws := t.draws }) ∧
      (s.status.busy = false → v₂ = v₁ ∧ d = s.draws)

/-- R20, R27 to R37: a write to a parameter register of an idle block stores every bit that is not reserved, and nothing
else changes. -/
def Obligations.ParameterWriteReadsBack : Prop :=
  ∀ (s : State) (rest : List Move) (v : Word), s.inReset = false → s.status.busy = false →
    let table : List (HostOffset × Word) :=
      [(0x014, 0xFFFFFFFF), (0x018, 0xFFFFFFFF), (0x01C, 0xFFFFFFFF), (0x020, 0xFFFFFFFF), (0x024, 0xFFFFFFFF),
        (0x028, 0xFFFFFFFF), (0x02C, 0xFFFFFFFF), (0x030, 0xFFFFFFFF), (0x034, 0xFFFFFFFF), (0x038, 0xFFFFFFFF),
        (0x03C, 0xFFFFFFFF), (0x040, 0x000007FF), (0x044, 0x00FFFFFF)]
    ∀ e ∈ table, NextSatisfies (step (s.facing (.write e.1 4 v :: rest))) fun t =>
      t.readValue e.1 = v &&& e.2 ∧
      (∀ e' ∈ table, e'.1 ≠ e.1 → t.readValue e'.1 = s.readValue e'.1) ∧
      t = { s with par := t.par, env := rest, history := .hostWrite e.1 v :: s.history } ∧ SameBytes s t

/-- R62, R64: a write to a word of the BUF window of an idle block replaces that word, and so half of one F64, and nothing
else. -/
def Obligations.BufWordWriteReadsBack : Prop :=
  ∀ (s : State) (rest : List Move) (k j : Nat) (v : Word), s.inReset = false → s.status.busy = false →
    legalCapacity s.nMax = true → k < s.nMax.toNat → j < 4 →
    NextSatisfies (step (s.facing (.write (BitVec.ofNat 22 (0x100000 + 16 * k + 4 * j)) 4 v :: rest))) fun t =>
      t.readValue (BitVec.ofNat 22 (0x100000 + 16 * k + 4 * j)) = v ∧
      SameBytesOutside (0x100000 + 16 * k + 4 * j) 4 s t ∧
      (j = 0 → t.buf k = ⟨(s.buf k).re.extractLsb' 32 32 ++ v, (s.buf k).im⟩) ∧
      (j = 1 → t.buf k = ⟨v ++ (s.buf k).re.extractLsb' 0 32, (s.buf k).im⟩) ∧
      (j = 2 → t.buf k = ⟨(s.buf k).re, (s.buf k).im.extractLsb' 32 32 ++ v⟩) ∧
      (j = 3 → t.buf k = ⟨(s.buf k).re, v ++ (s.buf k).im.extractLsb' 0 32⟩) ∧
      t = { s with
        mem := t.mem, env := rest
        history := .hostWrite (BitVec.ofNat 22 (0x100000 + 16 * k + 4 * j)) v :: s.history }

/-- R191: acceptance, of a word that decodes and of an ILLEGAL one. The position in which a command starts (`firstPhase`, in
`JustAccepted`) is the model's for ACQUIRE and RUN: INIT, which the list of 10_state R50 does not have (log 10). -/
def Obligations.CommandWriteAccepts : Prop :=
  ∀ (s : State) (rest : List Move) (w : Word), s.inReset = false → s.status.busy = false →
    NextSatisfies (step (s.facing (.write 0x004 4 w :: rest))) fun t =>
      (t.latched.n = s.par.fftSize ∧ t.latched.s = s.par.sampleCount ∧ t.latched.r = s.par.sampleRateHz ∧
        t.latched.ws = s.par.windowSize ∧
        t.latched.w.toNat = s.par.biasWindowS.toNat * s.par.sampleRateHz.toNat ∧
        t.latched.cf = s.par.centerFreqHi ++ s.par.centerFreqLo ∧ t.latched.th = s.par.thresholdHi ++ s.par.thresholdLo ∧
        t.latched.p = s.par.pollLimit ∧ t.latched.k = s.par.freqDivOffset ∧ t.latched.drdyReg = s.par.drdyReg ∧
        t.latched.drdyBit = s.par.drdyBit ∧ t.latched.b2Reg = s.par.b2Reg ∧ t.latched.b1Reg = s.par.b1Reg ∧
        t.latched.b0Reg = s.par.b0Reg) ∧
      t.errIndex = 0 ∧
      (∀ i, decode w = .ok i → JustAccepted i (t.facing []) ∧
        t.status = ⟨true, false, false, s.status.dropped, 0, 0⟩) ∧
      (∀ e, decode w = .error e → t.seq.op = none ∧ t.seq.sub = none ∧
        t.status = ⟨false, true, true, s.status.dropped, 7, w.extractLsb' 0 8⟩) ∧
      t.par = s.par ∧ t.doneIe = s.doneIe ∧ t.nMax = s.nMax ∧ t.inReset = s.inReset ∧ t.env = rest ∧
      SameSample s t ∧ SameBias s t ∧ t.peakCount = s.peakCount ∧ SameBytes s t ∧ SameScr s t ∧ t.adc = s.adc ∧
      t.history = .hostWrite 0x004 w :: s.history

/-- R194: the writes that are dropped while the block is busy, the two that never are, and the ones that are ignored. -/
def Obligations.BusyWritesAreDropped : Prop :=
  ∀ (s : State) (rest : List Move) (off : HostOffset) (v : Word), s.inReset = false → legalCapacity s.nMax = true →
    off.toNat % 4 = 0 →
    (s.status.busy = true →
      (off.toNat = 0x004 ∨ (0x014 ≤ off.toNat ∧ off.toNat ≤ 0x044) ∨
        (0x100000 ≤ off.toNat ∧ off.toNat < 0x100000 + 16 * s.nMax.toNat)) →
      step (s.facing (.write off 4 v :: rest)) =
        .next { s with
          env := rest, history := .hostWrite off v :: s.history, status := { s.status with dropped := true } }) ∧
    (off.toNat = 0x008 →
      step (s.facing (.write off 4 v :: rest)) =
        .next { s with
          env := rest, history := .hostWrite off v :: s.history
          status := { s.status with
            done := s.status.done && !v.getLsbD 1, dropped := s.status.dropped && !v.getLsbD 3 } }) ∧
    (off.toNat = 0x00C →
      step (s.facing (.write off 4 v :: rest)) =
        .next { s with env := rest, history := .hostWrite off v :: s.history, doneIe := v.getLsbD 0 }) ∧
    ((off.toNat = 0x000 ∨ off.toNat = 0x010 ∨ (0x048 ≤ off.toNat ∧ off.toNat < 0x100000) ∨
        0x100000 + 16 * s.nMax.toNat ≤ off.toNat) →
      step (s.facing (.write off 4 v :: rest)) =
        .next { s with env := rest, history := .hostWrite off v :: s.history })

/-- R220: the interrupt is DONE AND DONE_IE; the end of a command raises it when enabled, and a write of STATUS bit 1 and
the next acceptance lower it; the acceptance of an ILLEGAL word is its end too (44_command_control R191). -/
def Obligations.InterruptLevel : Prop :=
  ∀ (s : State) (rest : List Move), (s.irq = true ↔ s.status.done = true ∧ s.doneIe = true) ∧
    (∀ (i : Instr) (t : State), exec i s = .next t → s.seq.op = some i → t.seq.op = none → t.irq = s.doneIe) ∧
    (s.inReset = false → ∀ v : Word, v.getLsbD 1 = true →
      NextSatisfies (step (s.facing (.write 0x008 4 v :: rest))) fun t => t.irq = false) ∧
    (s.inReset = false → s.status.busy = false → ∀ i : Instr,
      NextSatisfies (step (s.facing (.write 0x004 4 (encode i) :: rest))) fun t => t.irq = false) ∧
    (s.inReset = false → s.status.busy = false → ∀ w : Word, (∀ i, decode w ≠ .ok i) →
      NextSatisfies (step (s.facing (.write 0x004 4 w :: rest))) fun t => t.seq.op = none ∧ t.irq = s.doneIe)

/-- R217 and 10_state R23: the error state persists until the next accepted command (or reset). -/
def Obligations.ErrorStatePersists : Prop :=
  ∀ s t : State, s.Inv → step s = .next t → s.status.err = true →
    (t.status.err = true ∧ t.status.errCode = s.status.errCode ∧ t.status.errOp = s.status.errOp ∧
      t.errIndex = s.errIndex) ∨
    (∃ w rest, s.env = .write 0x004 4 w :: rest) ∨ (∃ b rest, s.env = .assertReset b :: rest)

/-- R253 and 10_state R22: DROPPED is sticky. Only a write of 1 to its bit or reset clears it, and only a dropped write
(44_command_control R194: to CMD, a parameter register or the BUF window of a busy block) sets it. -/
def Obligations.DroppedIsSticky : Prop :=
  ∀ s t : State, step s = .next t →
    (s.status.dropped = true → t.status.dropped = false →
      (∃ v rest, s.env = .write 0x008 4 v :: rest ∧ v.getLsbD 3 = true) ∨ (∃ b rest, s.env = .assertReset b :: rest)) ∧
    (s.status.dropped = false → t.status.dropped = true →
      s.status.busy = true ∧ ∃ off v rest, s.env = .write off 4 v :: rest ∧ off.toNat % 4 = 0 ∧
        (off.toNat = 0x004 ∨ (0x014 ≤ off.toNat ∧ off.toNat ≤ 0x044) ∨
          (0x100000 ≤ off.toNat ∧ off.toNat < 0x100000 + 16 * s.nMax.toNat)))

/-! ### The end of a command, NOP (44_command_control) -/

/-- R192: `complete` is the last step of every command that ends without error. -/
def Obligations.CompletionStep : Prop :=
  ∀ (i : Instr) (s : State), s.seq.phase = .fin → NextSatisfies (exec i s) fun t =>
    t = { s with status := { s.status with busy := false, done := true }, seq := { s.seq with op := none, sub := none } } ∧
    SameBytes s t

/-- R196: NOP, from the write of its word to its completion; while the block is busy the write is dropped. -/
def Obligations.NopWhole : Prop :=
  ∀ (s : State) (rest : List Move), s.inReset = false →
    (s.status.busy = false →
      NextSatisfies (runSteps 2 (s.facing (.write 0x004 4 0x00000000 :: .coreTurn :: rest))) fun t =>
        t.status = ⟨false, true, false, s.status.dropped, 0, 0⟩ ∧ t.errIndex = 0 ∧ t.latched = latch s.par ∧
        t.seq.op = none ∧ t.seq.sub = none ∧ t.par = s.par ∧ t.doneIe = s.doneIe ∧ t.nMax = s.nMax ∧
        t.inReset = s.inReset ∧ t.env = rest ∧ SameSample s t ∧ SameBias s t ∧ t.peakCount = s.peakCount ∧
        SameBytes s t ∧ SameScr s t ∧ t.adc = s.adc ∧ t.history = .hostWrite 0x004 0x00000000 :: s.history) ∧
    (s.status.busy = true →
      step (s.facing (.write 0x004 4 0x00000000 :: rest)) =
        .next { s with
          env := rest, history := .hostWrite 0x004 0x00000000 :: s.history
          status := { s.status with dropped := true } }) ∧
    exec .nop s = .next { s with
      status := { s.status with busy := false, done := true }, seq := { s.seq with op := none, sub := none } }

/-! ### The sample reader (40_sample_reader) -/

/-- R110, R111: one poll, in each command that reads samples. -/
def Obligations.PollReadsDataReady : Prop :=
  ∀ (i : Instr) (s : State), ReadsSamples i s.seq.sub → s.seq.phase = .poll → s.seq.polls ≠ s.latched.p.toNat →
    NextSatisfies (exec i s) fun t =>
      t = { s with
        adc := t.adc, draws := t.draws, history := .busRead s.latched.drdyReg s.adcAnswer :: s.history
        seq := { s.seq with
          polls := s.seq.polls + 1
          phase := if s.adcAnswer.getLsbD s.latched.drdyBit.toNat then .readB2 else .poll } } ∧
      (∀ b rest, s.adc = b :: rest → s.adcAnswer = b ∧ t.adc = rest) ∧ SameBytes s t

/-- R113: after L.P polls that read not ready the command ends with SampleTimeout, and nothing else is read or written. -/
def Obligations.PollTimeout : Prop :=
  ∀ (i : Instr) (s : State), ReadsSamples i s.seq.sub → s.seq.phase = .poll → s.seq.polls = s.latched.p.toNat →
    NextSatisfies (exec i s) fun t =>
      EndedErr 4 (errOpOf i s.seq.sub) s t ∧
      t.errIndex = BitVec.ofNat 32 (if i = .readSample then 0 else s.seq.i) ∧
      SameSetup s t ∧ SameSample s t ∧ SameBias s t ∧ t.peakCount = s.peakCount ∧ SameBytes s t ∧ SameScr s t ∧ SameBus s t

/-- R114, R115: the three data bytes, and what their sample is. -/
def Obligations.DataBytesReadInOrder : Prop :=
  ∀ (i : Instr) (s : State), ReadsSamples i s.seq.sub →
    (s.seq.phase = .readB2 → NextSatisfies (exec i s) fun t =>
      t = { s with
        adc := t.adc, draws := t.draws, history := .busRead s.latched.b2Reg s.adcAnswer :: s.history
        seq := { s.seq with b2 := s.adcAnswer, phase := .readB1 } } ∧ SameBytes s t) ∧
    (s.seq.phase = .readB1 → NextSatisfies (exec i s) fun t =>
      t = { s with
        adc := t.adc, draws := t.draws, history := .busRead s.latched.b1Reg s.adcAnswer :: s.history
        seq := { s.seq with b1 := s.adcAnswer, phase := .readB0 } } ∧ SameBytes s t) ∧
    (s.seq.phase = .readB0 → NextSatisfies (exec i s) fun t =>
      t = { s with
        adc := t.adc, draws := t.draws, history := .busRead s.latched.b0Reg s.adcAnswer :: s.history
        sampleRaw := t.sampleRaw, sampleVal := t.sampleVal
        seq := { s.seq with phase := if i = .readSample then .fin else .store } } ∧
      t.sampleRaw.toNat = s.seq.b2.toNat * 65536 + s.seq.b1.toNat * 256 + s.adcAnswer.toNat ∧
      t.sampleVal.toInt = t.sampleRaw.toInt ∧ SameBytes s t)

/-- R116: the two definitions of the sign extension agree for every raw sample. -/
def Obligations.SignExtensionMethodsAgree : Prop :=
  ∀ raw : BitVec 24,
    (extendSample raw).toInt = (if raw.getLsbD 23 = true then (raw.toNat : Int) - 16777216 else (raw.toNat : Int)) ∧
    extendSample raw = (raw.setWidth 32 <<< 8).sshiftRight 8

/-- R117: the range of a sample, that the map from raw samples is a bijection onto it, and the three values of the
source. -/
def Obligations.SampleRangeIsBijective : Prop :=
  (∀ raw : BitVec 24, -8388608 ≤ (extendSample raw).toInt ∧ (extendSample raw).toInt ≤ 8388607) ∧
  (∀ v : Int, -8388608 ≤ v → v ≤ 8388607 → ∃ raw : BitVec 24, (extendSample raw).toInt = v ∧
    ∀ other : BitVec 24, (extendSample other).toInt = v → other = raw) ∧
  (extendSample 0xFFFFFF).toInt = -1 ∧ (extendSample 0x800000).toInt = -8388608 ∧
  (extendSample 0x7FFFFF).toInt = 8388607

/-- R118: READ_SAMPLE from its acceptance to its end, when the sample becomes ready within L.P polls. The number of core steps is
the model's (log 20). -/
def Obligations.ReadSampleSucceeds : Prop :=
  ∀ (s : State) (r : SampleRead) (rest : List Byte), JustAccepted .readSample s → r.ok s.latched →
    s.adc = r.bytes ++ rest →
    NextSatisfies (runSteps (r.notReady.length + 5) s) fun t =>
      t.sampleRaw = r.raw ∧ t.sampleVal.toInt = r.value ∧ t.history = r.events s.latched ++ s.history ∧ t.adc = rest ∧
      t.status = { s.status with busy := false, done := true } ∧ t.seq.op = none ∧ t.seq.sub = none ∧
      t.errIndex = s.errIndex ∧ SameSetup s t ∧ SameBias s t ∧ t.peakCount = s.peakCount ∧ SameBytes s t ∧ SameScr s t

/-! ### The checks (60_exceptions R214, R215) -/

/-- R214: the sizes that `legalN` admits are the powers of two from 1 to N_MAX. -/
def Obligations.LegalSizeIsPowerOfTwo : Prop :=
  (∀ nMax n : Word, legalN nMax n = true ↔ (∃ k, n.toNat = 2 ^ k) ∧ n.toNat ≤ nMax.toNat) ∧
  (∀ nMax : Word, legalCapacity nMax = true ↔ ∃ k, k ≤ 16 ∧ nMax.toNat = 2 ^ k)

/-- R215, R216: the checks of ACQUIRE, TRANSFORM and SCAN, alone and in RUN, in their order, and that nothing else has been
done when they fail. -/
def Obligations.ChecksInOrder : Prop :=
  ∀ (i : Instr) (s : State),
    let fails (code : BitVec 4) (t : State) : Prop :=
      EndedErr code (errOpOf i s.seq.sub) s t ∧ t.errIndex = s.errIndex ∧ SameSetup s t ∧ SameSample s t ∧
      SameBias s t ∧ SameBytes s t ∧ SameScr s t ∧ SameBus s t
    (Acquires i s.seq.sub → s.seq.phase = .init →
      (legalN s.nMax s.latched.n = false →
        NextSatisfies (exec i s) fun t => fails 5 t ∧ t.peakCount = s.peakCount) ∧
      (legalN s.nMax s.latched.n = true → s.latched.n.toNat < s.latched.s.toNat →
        NextSatisfies (exec i s) fun t => fails 6 t ∧ t.peakCount = s.peakCount)) ∧
    (i = .transform ∨ (i = .run ∧ s.seq.sub = some .transform) → s.seq.phase = .fft →
      legalN s.nMax s.latched.n = false →
        NextSatisfies (exec i s) fun t => fails 5 t ∧ t.peakCount = s.peakCount) ∧
    (i = .scan ∨ (i = .run ∧ s.seq.sub = some .scan) → s.seq.phase = .scan →
      (legalN s.nMax s.latched.n = false → NextSatisfies (exec i s) fun t => fails 5 t ∧ t.peakCount = 0) ∧
      (legalN s.nMax s.latched.n = true →
        (s.latched.r.toNat = 0 ∨ (s.latched.n.toNat : Int) - s.latched.k.toInt ≤ 0 ∨ s.latched.s.toNat = 0 ∨
          F64.isFinite s.latched.cf = false) →
        NextSatisfies (exec i s) fun t => fails 8 t ∧ t.peakCount = 0) ∧
      (legalN s.nMax s.latched.n = true → 1 ≤ s.latched.r.toNat →
        1 ≤ (s.latched.n.toNat : Int) - s.latched.k.toInt → 1 ≤ s.latched.s.toNat →
        F64.isFinite s.latched.cf = true → windowLo s.latched ≤ windowHi s.latched →
        min (windowHi s.latched) ((s.latched.n.toNat : Int) - 1) < max (windowLo s.latched) 0 →
        NextSatisfies (exec i s) fun t => fails 6 t ∧ t.peakCount = 0))

/-! ### ACQUIRE (41_bias_acquire) -/

/-- R137: the first writes of ACQUIRE, alone and in RUN, once its checks have passed. -/
def Obligations.AcquireStart : Prop :=
  ∀ (i : Instr) (s : State), Acquires i s.seq.sub → s.seq.phase = .init → legalN s.nMax s.latched.n = true →
    s.latched.s.toNat ≤ s.latched.n.toNat →
    NextSatisfies (exec i s) fun t =>
      (∀ k, k < s.latched.n.toNat → t.buf k = ⟨0, 0⟩) ∧
      SameBytesOutside 0x100000 (16 * s.latched.n.toNat) s t ∧
      t.acc = 0 ∧ t.bias = 0 ∧ t.biasLen = s.latched.w ∧
      (1 ≤ s.latched.s.toNat → t.seq = { s.seq with i := 0, polls := 0, phase := .poll }) ∧
      (s.latched.s.toNat = 0 → i = .acquire → t.seq = { s.seq with phase := .fin }) ∧
      (s.latched.s.toNat = 0 → i = .run → t.seq = { s.seq with sub := some .transform, phase := .fft }) ∧
      t.status = s.status ∧ t.errIndex = s.errIndex ∧ SameSetup s t ∧ SameSample s t ∧ t.peakCount = s.peakCount ∧
      SameScr s t ∧ SameBus s t

/-- R131, R133, R134, R137: what ACQUIRE, alone and in RUN, does with a sample inside and past the bias window. -/
def Obligations.AcquireUsesSample : Prop :=
  ∀ (i : Instr) (s : State), Acquires i s.seq.sub → s.seq.phase = .store →
    NextSatisfies (exec i s) fun t =>
      (s.seq.i < s.latched.w.toNat →
        t.acc = s.acc + s.sampleVal.signExtend 64 ∧ t.bias = rneFrac t.acc.toInt s.latched.w.toNat ∧ SameBytes s t) ∧
      (s.latched.w.toNat ≤ s.seq.i →
        t.buf s.seq.i = ⟨centerSample s.sampleVal.toInt s.acc.toInt s.latched.w.toNat, 0⟩ ∧
        SameBytesOutside (0x100000 + 16 * s.seq.i) 16 s t ∧ t.acc = s.acc ∧ t.bias = s.bias) ∧
      (s.seq.i + 1 ≠ s.latched.s.toNat → t.seq = { s.seq with i := s.seq.i + 1, polls := 0, phase := .poll }) ∧
      (s.seq.i + 1 = s.latched.s.toNat → i = .acquire → t.seq = { s.seq with i := s.seq.i + 1, phase := .fin }) ∧
      (s.seq.i + 1 = s.latched.s.toNat → i = .run →
        t.seq = { s.seq with i := s.seq.i + 1, sub := some .transform, phase := .fft }) ∧
      t.biasLen = s.biasLen ∧ t.status = s.status ∧ t.errIndex = s.errIndex ∧ SameSetup s t ∧ SameSample s t ∧
      t.peakCount = s.peakCount ∧ SameScr s t ∧ SameBus s t

/-- R134, R136: `center` is one rounding of v - ACC/W + 1/2; over a constant stream the bias is the constant and every stored
sample is 0.5; with W = 0 the result is v + 0.5 exactly; the result is finite and never -0.0. -/
def Obligations.CenteringLaws : Prop :=
  (∀ (v a : Int) (w : Nat), v.natAbs ≤ 2 ^ 23 → a.natAbs ≤ w * 2 ^ 23 → 1 ≤ w → w < 2 ^ 64 →
    IsNearest (2 * v * w - 2 * a + w) (2 * w) (centerSample v a w) ∧ centerSample v a w ≠ 0x8000000000000000) ∧
  (∀ (c : Int) (w : Nat), c.natAbs ≤ 2 ^ 23 → 1 ≤ w → w < 2 ^ 64 →
    F64.isFinite (rneFrac (c * w) w) = true ∧ F64.scaled (rneFrac (c * w) w) = c * f64Unit ∧
    centerSample c (c * w) w = 0x3FE0000000000000) ∧
  (∀ v a : Int, v.natAbs ≤ 2 ^ 23 → F64.isFinite (centerSample v a 0) = true ∧
    2 * F64.scaled (centerSample v a 0) = (2 * v + 1) * f64Unit)

/-- R131, R133, R135, R137: the whole of ACQUIRE, from its acceptance to its end, when every sample becomes ready. The
number of core steps is the model's (log 20). -/
def Obligations.AcquireWhole : Prop :=
  ∀ (s : State) (rs : List SampleRead) (rest : List Byte), JustAccepted .acquire s → legalCapacity s.nMax = true →
    legalN s.nMax s.latched.n = true → s.latched.s.toNat = rs.length → rs.length ≤ s.latched.n.toNat →
    (∀ r ∈ rs, r.ok s.latched) → s.adc = rs.flatMap SampleRead.bytes ++ rest →
    NextSatisfies (runSteps (1 + (rs.map (fun r => r.notReady.length + 5)).sum + 1) s) fun t =>
      t.acc.toInt = ((rs.take s.latched.w.toNat).map SampleRead.value).sum ∧
      t.bias = (if s.latched.w = 0 ∨ rs = [] then 0 else rneFrac t.acc.toInt s.latched.w.toNat) ∧
      t.biasLen = s.latched.w ∧
      (∀ k r, rs[k]? = some r → s.latched.w.toNat ≤ k →
        t.buf k = ⟨centerSample r.value t.acc.toInt s.latched.w.toNat, 0⟩) ∧
      (∀ k, k < s.latched.n.toNat → k < s.latched.w.toNat ∨ rs.length ≤ k → t.buf k = ⟨0, 0⟩) ∧
      SameBytesOutside 0x100000 (16 * s.latched.n.toNat) s t ∧
      (∀ r, rs.getLast? = some r → t.sampleRaw = r.raw ∧ t.sampleVal.toInt = r.value) ∧
      (rs = [] → SameSample s t) ∧
      t.history = (rs.reverse.flatMap (SampleRead.events s.latched)) ++ s.history ∧ t.adc = rest ∧
      t.status = { s.status with busy := false, done := true } ∧ t.seq.op = none ∧ t.seq.sub = none ∧
      t.errIndex = s.errIndex ∧ SameSetup s t ∧ t.peakCount = s.peakCount ∧ SameScr s t

/-- R137, R138: what ACQUIRE leaves when the sample after those of `rs` never becomes ready. The number of core steps is the
model's (log 20). -/
def Obligations.AcquireTimesOut : Prop :=
  ∀ (s : State) (rs : List SampleRead) (polls rest : List Byte), JustAccepted .acquire s →
    legalCapacity s.nMax = true → legalN s.nMax s.latched.n = true → rs.length < s.latched.s.toNat →
    s.latched.s.toNat ≤ s.latched.n.toNat → (∀ r ∈ rs, r.ok s.latched) → polls.length = s.latched.p.toNat →
    (∀ d ∈ polls, d.getLsbD s.latched.drdyBit.toNat = false) →
    s.adc = rs.flatMap SampleRead.bytes ++ polls ++ rest →
    NextSatisfies (runSteps (1 + (rs.map (fun r => r.notReady.length + 5)).sum + polls.length + 1) s) fun t =>
      t.status = ⟨false, true, true, s.status.dropped, 4, 0x02⟩ ∧ t.errIndex.toNat = rs.length ∧ t.seq.op = none ∧
      t.acc.toInt = ((rs.take s.latched.w.toNat).map SampleRead.value).sum ∧
      t.bias = (if s.latched.w = 0 ∨ rs = [] then 0 else rneFrac t.acc.toInt s.latched.w.toNat) ∧
      t.biasLen = s.latched.w ∧
      (∀ k r, rs[k]? = some r → s.latched.w.toNat ≤ k →
        t.buf k = ⟨centerSample r.value t.acc.toInt s.latched.w.toNat, 0⟩) ∧
      (∀ k, k < s.latched.n.toNat → k < s.latched.w.toNat ∨ rs.length ≤ k → t.buf k = ⟨0, 0⟩) ∧
      SameBytesOutside 0x100000 (16 * s.latched.n.toNat) s t ∧
      (∀ r, rs.getLast? = some r → t.sampleRaw = r.raw ∧ t.sampleVal.toInt = r.value) ∧
      (rs = [] → SameSample s t) ∧
      t.history = (polls.map (Event.busRead s.latched.drdyReg)).reverse ++
        (rs.reverse.flatMap (SampleRead.events s.latched)) ++ s.history ∧ t.adc = rest ∧
      SameSetup s t ∧ t.peakCount = s.peakCount ∧ SameScr s t

/-! ### TRANSFORM (42_fft) -/

/-- R151, R152, R156: TRANSFORM, alone and in RUN, replaces BUF[0..n-1] by the result of the reference recursion. The
arithmetic is `hwNum s.draws`: that a NaN of it is the draw with that number is the model's choice (log 4). In RUN the next
step is SCAN's (44_command_control R197). -/
def Obligations.TransformWritesSpectrum : Prop :=
  ∀ (i : Instr) (s : State), (i = .transform ∨ (i = .run ∧ s.seq.sub = some .transform)) → s.seq.phase = .fft →
    legalN s.nMax s.latched.n = true →
    NextSatisfies (exec i s) fun t =>
      (∀ k, k < s.latched.n.toNat → t.buf k =
        (fft (hwNum s.draws) s.latched.n.toNat ((List.range s.latched.n.toNat).map s.buf)).getD k ⟨0, 0⟩) ∧
      SameBytesOutside 0x100000 (16 * s.latched.n.toNat) s t ∧
      (i = .transform → t.seq = { s.seq with phase := .fin }) ∧
      (i = .run → t.seq = { s.seq with sub := some .scan, phase := .scan }) ∧
      t.status = s.status ∧ t.errIndex = s.errIndex ∧ SameSetup s t ∧ SameSample s t ∧ SameBias s t ∧
      t.peakCount = s.peakCount ∧ SameBus s t

/-- R151, the corner cases: sizes 1 and 2, over any arithmetic; and what this hardware's arithmetic is (00_scope R13, R14):
sums and differences by parts, and the plain product with every operation rounded on its own. Which draw an operation's NaN is
stays open here (log 4 numbers them). -/
def Obligations.TransformSmallSizes : Prop :=
  (∀ (num : FftNum Cplx) (x y : Cplx), fft num 1 [x] = [x] ∧
    ∃ id, fft num 2 [x, y] =
      [num.add id x (num.mul id (num.twiddle 0 2) y), num.sub id x (num.mul id (num.twiddle 0 2) y)]) ∧
  (∀ (base id : Nat) (w z : Cplx),
    (∃ d₁ d₂ d₃ d₄ d₅ d₆, (hwNum base).mul id w z =
      ⟨fsub d₁ (fmul d₂ w.re z.re) (fmul d₃ w.im z.im), fadd d₄ (fmul d₅ w.re z.im) (fmul d₆ w.im z.re)⟩) ∧
    (∃ d₁ d₂, (hwNum base).add id w z = ⟨fadd d₁ w.re z.re, fadd d₂ w.im z.im⟩) ∧
    (∃ d₁ d₂, (hwNum base).sub id w z = ⟨fsub d₁ w.re z.re, fsub d₂ w.im z.im⟩) ∧
    (hwNum base).zero = ⟨0, 0⟩ ∧ (hwNum base).twiddle = twiddle)

/-- R150, R153: over the complex numbers, with exact twiddles, the recursion of R152 is the unscaled DFT in natural
order. -/
def Obligations.FftIsTheDft : Prop :=
  ∀ (k : Nat) (xs : List ℂ), xs.length = 2 ^ k →
    fft { zero := 0, add := fun _ x y => x + y, sub := fun _ x y => x - y, mul := fun _ w z => w * z
          twiddle := fun i n => Complex.exp (-(Complex.I * Real.pi * i / n)) } (2 ^ k) xs =
      (List.range (2 ^ k)).map fun (j : Nat) =>
        ∑ m ∈ Finset.range (2 ^ k), xs.getD m 0 * Complex.exp (-(2 * Real.pi * Complex.I * m * j / 2 ^ k))

/-- R157: under the default product and any finite twiddles, an impulse transforms to real parts of exactly 1.0 and imaginary
parts that are zeros, and zeros transform to zeros. -/
def Obligations.ImpulseGivesOnes : Prop :=
  ∀ (base k : Nat) (tw : Nat → Nat → Cplx),
    (∀ i n, F64.isFinite (tw i n).re = true ∧ F64.isFinite (tw i n).im = true) →
    (∀ z ∈ fft { hwNum base with twiddle := tw } (2 ^ k) (⟨0x3FF0000000000000, 0⟩ :: List.replicate (2 ^ k - 1) ⟨0, 0⟩),
      z.re = 0x3FF0000000000000 ∧ (z.im = 0 ∨ z.im = 0x8000000000000000)) ∧
    (∀ z ∈ fft { hwNum base with twiddle := tw } (2 ^ k) (List.replicate (2 ^ k) ⟨0, 0⟩),
      (z.re = 0 ∨ z.re = 0x8000000000000000) ∧ (z.im = 0 ∨ z.im = 0x8000000000000000))

/-- 00_scope R15, for this hardware's twiddle: property T1, and at every index the default's formula, the cosine and the
sine with its sign bit flipped of the binary64 value nearest `val(PI64) * i / n`, where PI64 is 0x400921FB54442D18. -/
def Obligations.TwiddleAtZero : Prop :=
  ∀ n : Nat, 1 ≤ n →
    ((twiddle 0 n).re = 0x3FF0000000000000 ∧
      ((twiddle 0 n).im = 0 ∨ (twiddle 0 n).im = 0x8000000000000000)) ∧
    (∀ i : Nat, i < n → ∃ θ : F64, IsNearest (F64.scaled 0x400921FB54442D18 * i) (f64Unit * n) θ ∧
      twiddle i n = ⟨cosF θ, sinF θ ^^^ 0x8000000000000000⟩)

/-! ### SCAN (43_peak_scan) -/

/-- R173, R175, R176: SCAN, alone and in RUN, once its checks have passed. -/
def Obligations.ScanWritesPeaks : Prop :=
  ∀ (i : Instr) (s : State), (i = .scan ∨ (i = .run ∧ s.seq.sub = some .scan)) → s.seq.phase = .scan →
    legalN s.nMax s.latched.n = true → 1 ≤ s.latched.r.toNat → 1 ≤ (s.latched.n.toNat : Int) - s.latched.k.toInt →
    1 ≤ s.latched.s.toNat → F64.isFinite s.latched.cf = true →
    let frame (t : State) : Prop := t.seq = { s.seq with phase := .fin } ∧ t.status = s.status ∧
      t.errIndex = s.errIndex ∧ SameSetup s t ∧ SameSample s t ∧ SameBias s t ∧ SameScr s t ∧ SameBus s t
    (windowHi s.latched < windowLo s.latched →
      NextSatisfies (exec i s) fun t => t.peakCount = 0 ∧ SameBytes s t ∧ frame t) ∧
    (windowLo s.latched ≤ windowHi s.latched →
      max (windowLo s.latched) 0 ≤ min (windowHi s.latched) ((s.latched.n.toNat : Int) - 1) →
      NextSatisfies (exec i s) fun t => ∃ bins : List Nat,
        bins.Pairwise (· < ·) ∧
        (∀ b : Nat, b ∈ bins ↔
          (max (windowLo s.latched) 0 ≤ b ∧ (b : Int) ≤ min (windowHi s.latched) ((s.latched.n.toNat : Int) - 1) ∧
            fgt (magnitude (s.draws + b) (s.buf b) s.latched.s.toNat) s.latched.th = true)) ∧
        t.peakCount.toNat = bins.length ∧
        (∀ j b, bins[j]? = some b → t.peak j =
          ⟨BitVec.ofNat 32 b, rneFrac ((b * s.latched.r.toNat : Nat) : Int)
              ((s.latched.n.toNat : Int) - s.latched.k.toInt).toNat,
            magnitude (s.draws + b) (s.buf b) s.latched.s.toNat⟩) ∧
        SameBytesOutside 0x200000 (32 * bins.length) s t ∧ frame t)

/-- R172: the requested window's size, when it is empty, and its clamping. -/
def Obligations.ScanWindowBounds : Prop :=
  ∀ l : Latched,
    (windowHi l < windowLo l ↔ l.ws.toNat ≤ 1) ∧
    (2 ≤ l.ws.toNat → l.ws.toNat % 2 = 0 → windowHi l - windowLo l + 1 = l.ws.toNat) ∧
    (3 ≤ l.ws.toNat → l.ws.toNat % 2 = 1 → windowHi l - windowLo l + 1 = l.ws.toNat - 1) ∧
    windowHi l = centerBin l + (l.ws.toNat / 2 : Nat) ∧
    (∀ b : Nat, b ∈ windowBins l ↔ windowLo l ≤ b ∧ (b : Int) ≤ windowHi l ∧ b < l.n.toNat)

/-- R16, R170: `roundHalfAway` gives the nearest integer, and at a tie the one farther from zero; the center bin is that of
`val(L.CF) * D / L.R`, exactly. -/
def Obligations.CenterBinIsRoundHalfAway : Prop :=
  (∀ (num : Int) (den : Nat), 1 ≤ den →
    2 * (num - roundHalfAway num den * den).natAbs ≤ den ∧
    (2 * (num - roundHalfAway num den * den).natAbs = den → num.natAbs < (roundHalfAway num den).natAbs * den)) ∧
  roundHalfAway 5 2 = 3 ∧ roundHalfAway (-5) 2 = -3 ∧
  (∀ l : Latched, 1 ≤ l.r.toNat → 1 ≤ (l.n.toNat : Int) - l.k.toInt → F64.isFinite l.cf = true →
    centerBin l = roundHalfAway (F64.scaled l.cf * ((l.n.toNat : Int) - l.k.toInt)) (f64Unit * l.r.toNat))

/-- R178, for SCAN alone and in RUN: one nonzero bin gives exactly one entry; the entries never overflow PEAK; a threshold
below zero emits every bin of the window whose magnitude is no NaN, each as its entry, in ascending order. -/
def Obligations.ScanLaws : Prop :=
  ∀ (i : Instr) (s : State), (i = .scan ∨ (i = .run ∧ s.seq.sub = some .scan)) → s.seq.phase = .scan → legalN s.nMax s.latched.n = true → 1 ≤ s.latched.r.toNat →
    1 ≤ (s.latched.n.toNat : Int) - s.latched.k.toInt → 1 ≤ s.latched.s.toNat → F64.isFinite s.latched.cf = true →
    clampedLo s.latched ≤ clampedHi s.latched → windowLo s.latched ≤ windowHi s.latched →
    let entry (b : Nat) : PeakEntry :=
      ⟨BitVec.ofNat 32 b, rneFrac ((b * s.latched.r.toNat : Nat) : Int)
          ((s.latched.n.toNat : Int) - s.latched.k.toInt).toNat,
        magnitude (s.draws + b) (s.buf b) s.latched.s.toNat⟩
    (∀ k ∈ windowBins s.latched, fgt (magnitude (s.draws + k) (s.buf k) s.latched.s.toNat) s.latched.th = true →
      F64.isNaN s.latched.th = false → 0 ≤ F64.orderKey s.latched.th →
      (∀ b ∈ windowBins s.latched, b ≠ k → (s.buf b).re.extractLsb' 0 63 = 0 ∧ (s.buf b).im.extractLsb' 0 63 = 0) →
      NextSatisfies (exec i s) fun t => t.peakCount = 1 ∧ t.peak 0 = entry k) ∧
    (NextSatisfies (exec i s) fun t =>
      (t.peakCount.toNat : Int) ≤ clampedHi s.latched - clampedLo s.latched + 1 ∧
      clampedHi s.latched - clampedLo s.latched + 1 ≤ s.latched.n.toNat ∧ s.latched.n.toNat ≤ s.nMax.toNat) ∧
    (F64.isNaN s.latched.th = false → F64.orderKey s.latched.th < 0 →
      NextSatisfies (exec i s) fun t => ∃ bins : List Nat,
        bins.Pairwise (· < ·) ∧
        (∀ b : Nat, b ∈ bins ↔ b ∈ windowBins s.latched ∧
          F64.isNaN (magnitude (s.draws + b) (s.buf b) s.latched.s.toNat) = false) ∧
        t.peakCount.toNat = bins.length ∧ ∀ j b, bins[j]? = some b → t.peak j = entry b)

/-! ### RUN and the commands together (44_command_control, 60_exceptions) -/

/-- R197: each step of RUN is the step of its running sub-operation, and the end of one is the start of the next; inside RUN
the check of TRANSFORM cannot fail. -/
def Obligations.RunIsItsSubOperations : Prop :=
  ∀ s : State,
    let then_ (o : Host.Outcome State Fault Refusal) (f : State → State) : Host.Outcome State Fault Refusal :=
      match o with
      | .next t => .next (if t.seq.phase = .fin then f t else t)
      | .fault r => .fault r
      | .refused r => .refused r
    (s.seq.sub = some .acquire → s.seq.phase ≠ .fin → exec .run s =
      then_ (exec .acquire s) fun t => { t with seq := { t.seq with sub := some .transform, phase := .fft } }) ∧
    (s.seq.sub = some .transform → s.seq.phase = .fft → exec .run s =
      then_ (exec .transform s) fun t => { t with seq := { t.seq with sub := some .scan, phase := .scan } }) ∧
    (s.seq.sub = some .scan → s.seq.phase = .scan → exec .run s = exec .scan s) ∧
    (s.Inv → s.seq.op = some .run → s.seq.sub = some .transform →
      NextSatisfies (exec .run s) fun t =>
        t.status = s.status ∧ t.seq.op = some .run ∧ t.seq.sub = some .scan ∧ t.seq.phase = .scan)

/-- R198: what ERR_OP shows, for an error in a command and for an ILLEGAL word. -/
def Obligations.ErrOpNamesTheOperation : Prop :=
  (∀ (i : Instr) (s t : State), exec i s = .next t → s.status.err = false → t.status.err = true →
    t.status.errOp = errOpOf i s.seq.sub) ∧
  (∀ (s : State) (w : Word) (rest : List Move), s.inReset = false → s.status.busy = false →
    (∀ i, decode w ≠ .ok i) →
    NextSatisfies (step (s.facing (.write 0x004 4 w :: rest))) fun t =>
      t.status.err = true ∧ t.status.errOp = w.extractLsb' 0 8)

/-- R210 to R212: every error that a core step raises has one of the causes of the spec's list. -/
def Obligations.ErrorCausesAreExhaustive : Prop :=
  ∀ (i : Instr) (s t : State), exec i s = .next t → s.status.err = false → t.status.err = true →
    (t.status.errCode = 4 ∧ ReadsSamples i s.seq.sub ∧ s.seq.polls = s.latched.p.toNat) ∨
    (t.status.errCode = 5 ∧ (i = .acquire ∨ i = .transform ∨ i = .scan ∨ i = .run) ∧
      legalN s.nMax s.latched.n = false) ∨
    (t.status.errCode = 6 ∧ Acquires i s.seq.sub ∧ s.latched.n.toNat < s.latched.s.toNat) ∨
    (t.status.errCode = 6 ∧ (i = .scan ∨ (i = .run ∧ s.seq.sub = some .scan)) ∧
      windowLo s.latched ≤ windowHi s.latched ∧ clampedHi s.latched < clampedLo s.latched) ∨
    (t.status.errCode = 8 ∧ (i = .scan ∨ (i = .run ∧ s.seq.sub = some .scan)) ∧
      (s.latched.r.toNat = 0 ∨ (s.latched.n.toNat : Int) - s.latched.k.toInt ≤ 0 ∨ s.latched.s.toNat = 0 ∨
        F64.isFinite s.latched.cf = false))

/-- 10_state R49, R52: a core step neither reads nor writes the parameter registers, INT_EN or the moves to come, and writes
neither L, N_MAX, the reset input nor DROPPED. -/
def Obligations.CommandsReadOnlyTheLatch : Prop :=
  ∀ (i : Instr) (s t : State), exec i s = .next t →
    SameSetup s t ∧ t.status.dropped = s.status.dropped ∧
    ∀ (p : Params) (d : Bool) (e : List Move),
      exec i { s with par := p, doneIe := d, env := e } = .next { t with par := p, doneIe := d, env := e }

/-- 10_state R46, R47: a core step writes no byte but those of BUF[0..n-1], when it acquires or transforms, and of
PEAK[0..n-1], when it scans. -/
def Obligations.CommandsStayInTheirEntries : Prop :=
  ∀ (i : Instr) (s t : State), s.Inv → s.seq.op = some i → exec i s = .next t → ∀ a, t.byteAt a ≠ s.byteAt a →
    (0x100000 ≤ a ∧ a < 0x100000 + 16 * s.latched.n.toNat ∧
      (Acquires i s.seq.sub ∨ i = .transform ∨ (i = .run ∧ s.seq.sub = some .transform))) ∨
    (0x200000 ≤ a ∧ a < 0x200000 + 32 * s.latched.n.toNat ∧ (i = .scan ∨ (i = .run ∧ s.seq.sub = some .scan)))

/-- 20_memory R67, R71: a step makes at most one transaction, and a BusRead only while a command that reads samples is in
progress, of the register that the command's phase names (40_sample_reader R110 to R114): the data-ready register while polls
are left, then the three data registers. A BusRead in flight when reset is asserted is no other (log 16). -/
def Obligations.OneTransactionPerStep : Prop :=
  ∀ s t : State, s.Inv → step s = .next t →
    t.history = s.history ∨ ∃ e, t.history = e :: s.history ∧ ∀ reg b, e = .busRead reg b →
      s.status.busy = true ∧ b = s.adcAnswer ∧ (∃ i, s.seq.op = some i ∧ ReadsSamples i s.seq.sub) ∧
      ((s.seq.phase = .poll ∧ s.seq.polls ≠ s.latched.p.toNat ∧ reg = s.latched.drdyReg) ∨
        (s.seq.phase = .readB2 ∧ reg = s.latched.b2Reg) ∨ (s.seq.phase = .readB1 ∧ reg = s.latched.b1Reg) ∨
        (s.seq.phase = .readB0 ∧ reg = s.latched.b0Reg))

/-- R255: every command ends within a bounded number of core steps and BusReads, whatever the ADC answers. The bounds
on the BusReads are the rule's; the exact bounds on the core steps are the model's, which says what one step is (log 20). -/
def Obligations.CommandsTerminate : Prop :=
  ∀ (i : Instr) (s : State), JustAccepted i s →
    let samples := s.latched.s.toNat
    let perSample := s.latched.p.toNat + 3
    let reads : Nat :=
      match i with
      | .nop | .transform | .scan => 0
      | .readSample => perSample
      | .acquire | .run => samples * perSample
    let steps : Nat :=
      match i with
      | .nop => 1
      | .transform | .scan => 2
      | .readSample => perSample + 1
      | .acquire | .run => samples * (perSample + 1) + 4
    ∃ k ≤ steps, NextSatisfies (runSteps k s) fun t =>
      t.seq.op = none ∧ t.status.busy = false ∧ t.status.done = true ∧ t.busReads ≤ s.busReads + reads

/-! ### Numerics (00_scope R10 to R17) -/

/-- R11 on rationals: `rneFrac` gives a nearest binary64 value with ties to even, infinity from the overflow bound on, and +0
for zero. -/
def Obligations.RoundingIsNearestEven : Prop :=
  ∀ (num : Int) (den : Nat), 1 ≤ den →
    (¬ Overflows num den → IsNearest num den (rneFrac num den)) ∧
    (Overflows num den →
      rneFrac num den = if num < 0 then 0xFFF0000000000000 else 0x7FF0000000000000) ∧
    rneFrac 0 den = 0

/-- R11, R12: sums, differences and products of finite values are correctly rounded, to an infinity from the overflow bound
on; the sign of an exact zero sum or difference, and of a product; and the operations with infinities that are not
invalid. -/
def Obligations.ArithmeticIsCorrectlyRounded : Prop :=
  ∀ (id : Nat) (a b : F64),
    let infinity (negative : Bool) : F64 := if negative then 0xFFF0000000000000 else 0x7FF0000000000000
    let zero (negative : Bool) : F64 := if negative then 0x8000000000000000 else 0
    (F64.isFinite a = true → F64.isFinite b = true →
      (¬ Overflows (F64.scaled a + F64.scaled b) f64Unit →
        IsNearest (F64.scaled a + F64.scaled b) f64Unit (fadd id a b)) ∧
      (¬ Overflows (F64.scaled a - F64.scaled b) f64Unit →
        IsNearest (F64.scaled a - F64.scaled b) f64Unit (fsub id a b)) ∧
      (¬ Overflows (F64.scaled a * F64.scaled b) (f64Unit * f64Unit) →
        IsNearest (F64.scaled a * F64.scaled b) (f64Unit * f64Unit) (fmul id a b)) ∧
      (Overflows (F64.scaled a + F64.scaled b) f64Unit →
        fadd id a b = infinity (decide (F64.scaled a + F64.scaled b < 0))) ∧
      (Overflows (F64.scaled a - F64.scaled b) f64Unit →
        fsub id a b = infinity (decide (F64.scaled a - F64.scaled b < 0))) ∧
      (Overflows (F64.scaled a * F64.scaled b) (f64Unit * f64Unit) →
        fmul id a b = infinity (F64.neg a != F64.neg b)) ∧
      (F64.scaled a + F64.scaled b = 0 → fadd id a b = zero (F64.neg a && F64.neg b)) ∧
      (F64.scaled a - F64.scaled b = 0 → fsub id a b = zero (F64.neg a && !F64.neg b)) ∧
      F64.neg (fmul id a b) = (F64.neg a != F64.neg b)) ∧
    (F64.isInf a = true → F64.isFinite b = true →
      fadd id a b = a ∧ fadd id b a = a ∧ fsub id a b = a ∧ fsub id b a = infinity (!F64.neg a) ∧
      (F64.scaled b ≠ 0 →
        fmul id a b = infinity (F64.neg a != F64.neg b) ∧ fmul id b a = infinity (F64.neg a != F64.neg b))) ∧
    (F64.isInf a = true → F64.isInf b = true →
      (F64.neg a = F64.neg b → fadd id a b = a) ∧ (F64.neg a ≠ F64.neg b → fsub id a b = a) ∧
      fmul id a b = infinity (F64.neg a != F64.neg b))

/-- R12: an invalid operation, or one with a NaN operand, gives some NaN, whatever the free values are (log 4). -/
def Obligations.InvalidOperationsGiveNaN : Prop :=
  ∀ (id : Nat) (a b : F64),
    (F64.isNaN a = true ∨ F64.isNaN b = true → F64.isNaN (fadd id a b) = true ∧ F64.isNaN (fsub id a b) = true ∧
      F64.isNaN (fmul id a b) = true) ∧
    (F64.isInf a = true → F64.isInf b = true →
      (F64.neg a ≠ F64.neg b → F64.isNaN (fadd id a b) = true) ∧
      (F64.neg a = F64.neg b → F64.isNaN (fsub id a b) = true)) ∧
    (F64.isInf a = true → b.extractLsb' 0 63 = 0 →
      F64.isNaN (fmul id a b) = true ∧ F64.isNaN (fmul id b a) = true)

/-- R17 and 43_peak_scan R174: the magnitude of an entry with an infinite part is +inf, beside a NaN too; that of another
entry with a NaN part is a NaN; that of a finite entry is the exact real `2 * sqrt(re^2 + im^2) / L.S` rounded once: a nearest
binary64 value, with an even last bit where another is as near, and +inf exactly from the overflow bound on (R11). -/
def Obligations.MagnitudeIsNearest : Prop :=
  ∀ (id : Nat) (z : Cplx) (n : Nat), 1 ≤ n →
    (F64.isInf z.re = true ∨ F64.isInf z.im = true → magnitude id z n = 0x7FF0000000000000) ∧
    (F64.isInf z.re = false → F64.isInf z.im = false → F64.isNaN z.re = true ∨ F64.isNaN z.im = true →
      F64.isNaN (magnitude id z n) = true) ∧
    (F64.isFinite z.re = true → F64.isFinite z.im = true →
      let exact : ℝ := 2 * Real.sqrt ((F64.scaled z.re : ℝ) ^ 2 + (F64.scaled z.im : ℝ) ^ 2) / n
      F64.neg (magnitude id z n) = false ∧
      (exact < (2 ^ 1024 - 2 ^ 970 : ℝ) * f64Unit →
        F64.isFinite (magnitude id z n) = true ∧
        ∀ y : F64, F64.isFinite y = true →
          |exact - F64.scaled (magnitude id z n)| ≤ |exact - F64.scaled y| ∧
          (|exact - F64.scaled (magnitude id z n)| = |exact - F64.scaled y| →
            F64.scaled y ≠ F64.scaled (magnitude id z n) → (magnitude id z n).getLsbD 0 = false)) ∧
      ((2 ^ 1024 - 2 ^ 970 : ℝ) * f64Unit ≤ exact → magnitude id z n = 0x7FF0000000000000))

/-- R175: `fgt` is false with a NaN, is the order of the values on finite operands, and puts +inf above and -inf below every
finite value. -/
def Obligations.GreaterThanIsOrdered : Prop :=
  ∀ a b : F64,
    (F64.isNaN a = true ∨ F64.isNaN b = true → fgt a b = false) ∧
    (F64.isFinite a = true → F64.isFinite b = true → (fgt a b = true ↔ F64.scaled b < F64.scaled a)) ∧
    (F64.isFinite b = true → fgt 0x7FF0000000000000 b = true ∧ fgt b 0xFFF0000000000000 = true ∧
      fgt b 0x7FF0000000000000 = false ∧ fgt 0xFFF0000000000000 b = false) ∧
    (fgt a b = true → fgt b a = false)

/-- 00_scope R15: consecutive partial sums bracket cos and sin, so that where the two first tried round alike `cosF` and
`sinF` are correctly rounded. The bounded loop is the model's way to compute them (log 13). -/
def Obligations.CosSinCorrectlyRounded : Prop :=
  ∀ x : F64, F64.isFinite x = true → F64.neg x = false →
    let nearest (r : ℝ) (y : F64) : Prop := ∀ z : F64, F64.isFinite z = true →
      |r * f64Unit - F64.scaled y| ≤ |r * f64Unit - F64.scaled z|
    let alike (partialSum : Nat → Int × Nat) : Prop :=
      rneFrac (partialSum 23).1 (partialSum 23).2 = rneFrac (partialSum 24).1 (partialSum 24).2 ∧
      F64.isFinite (rneFrac (partialSum 23).1 (partialSum 23).2) = true
    (alike (cosPartial (F64.magScaled x)) → nearest (Real.cos (F64.scaled x / f64Unit)) (cosF x)) ∧
    (alike (sinPartial (F64.magScaled x)) → nearest (Real.sin (F64.scaled x / f64Unit)) (sinF x))
end

