-- ==== Sys2Proof/Laws/State.lean ====
section
/-! SUPPORT. The fields of the state after each shared update: one lemma per field per update, so that no later proof
unfolds an update. -/

namespace Sys2Proof.Machine

/-! ### STATUS -/

@[simp] theorem Status.accept_busy (t : Status) : (t.accept).busy = true := rfl
@[simp] theorem Status.accept_done (t : Status) : (t.accept).done = false := rfl
@[simp] theorem Status.accept_err (t : Status) : (t.accept).err = false := rfl
@[simp] theorem Status.accept_dropped (t : Status) : (t.accept).dropped = t.dropped := rfl
@[simp] theorem Status.accept_errCode (t : Status) : (t.accept).errCode = 0 := rfl
@[simp] theorem Status.accept_errOp (t : Status) : (t.accept).errOp = 0 := rfl

@[simp] theorem Status.complete_busy (t : Status) : (t.complete).busy = false := rfl
@[simp] theorem Status.complete_done (t : Status) : (t.complete).done = true := rfl
@[simp] theorem Status.complete_err (t : Status) : (t.complete).err = t.err := rfl
@[simp] theorem Status.complete_dropped (t : Status) : (t.complete).dropped = t.dropped := rfl
@[simp] theorem Status.complete_errCode (t : Status) : (t.complete).errCode = t.errCode := rfl
@[simp] theorem Status.complete_errOp (t : Status) : (t.complete).errOp = t.errOp := rfl

@[simp] theorem Status.enterError_busy (t : Status) (code : BitVec 4) (op : Byte) : (t.enterError code op).busy = false := rfl
@[simp] theorem Status.enterError_done (t : Status) (code : BitVec 4) (op : Byte) : (t.enterError code op).done = true := rfl
@[simp] theorem Status.enterError_err (t : Status) (code : BitVec 4) (op : Byte) : (t.enterError code op).err = true := rfl
@[simp] theorem Status.enterError_dropped (t : Status) (code : BitVec 4) (op : Byte) : (t.enterError code op).dropped = t.dropped := rfl
@[simp] theorem Status.enterError_errCode (t : Status) (code : BitVec 4) (op : Byte) : (t.enterError code op).errCode = code := rfl
@[simp] theorem Status.enterError_errOp (t : Status) (code : BitVec 4) (op : Byte) : (t.enterError code op).errOp = op := rfl

@[simp] theorem Status.drop_busy (t : Status) : (t.drop).busy = t.busy := rfl
@[simp] theorem Status.drop_done (t : Status) : (t.drop).done = t.done := rfl
@[simp] theorem Status.drop_err (t : Status) : (t.drop).err = t.err := rfl
@[simp] theorem Status.drop_dropped (t : Status) : (t.drop).dropped = true := rfl
@[simp] theorem Status.drop_errCode (t : Status) : (t.drop).errCode = t.errCode := rfl
@[simp] theorem Status.drop_errOp (t : Status) : (t.drop).errOp = t.errOp := rfl

@[simp] theorem Status.w1c_busy (t : Status) (v : Word) : (t.w1c v).busy = t.busy := rfl
@[simp] theorem Status.w1c_done (t : Status) (v : Word) : (t.w1c v).done = (t.done && !v.getLsbD 1) := rfl
@[simp] theorem Status.w1c_err (t : Status) (v : Word) : (t.w1c v).err = t.err := rfl
@[simp] theorem Status.w1c_dropped (t : Status) (v : Word) : (t.w1c v).dropped = (t.dropped && !v.getLsbD 3) := rfl
@[simp] theorem Status.w1c_errCode (t : Status) (v : Word) : (t.w1c v).errCode = t.errCode := rfl
@[simp] theorem Status.w1c_errOp (t : Status) (v : Word) : (t.w1c v).errOp = t.errOp := rfl

/-! ### `complete` -/

@[simp] theorem complete_par (s : State) : (complete s).par = s.par := rfl
@[simp] theorem complete_doneIe (s : State) : (complete s).doneIe = s.doneIe := rfl
@[simp] theorem complete_status (s : State) : (complete s).status = s.status.complete := rfl
@[simp] theorem complete_errIndex (s : State) : (complete s).errIndex = s.errIndex := rfl
@[simp] theorem complete_sampleRaw (s : State) : (complete s).sampleRaw = s.sampleRaw := rfl
@[simp] theorem complete_sampleVal (s : State) : (complete s).sampleVal = s.sampleVal := rfl
@[simp] theorem complete_bias (s : State) : (complete s).bias = s.bias := rfl
@[simp] theorem complete_acc (s : State) : (complete s).acc = s.acc := rfl
@[simp] theorem complete_biasLen (s : State) : (complete s).biasLen = s.biasLen := rfl
@[simp] theorem complete_peakCount (s : State) : (complete s).peakCount = s.peakCount := rfl
@[simp] theorem complete_nMax (s : State) : (complete s).nMax = s.nMax := rfl
@[simp] theorem complete_mem (s : State) : (complete s).mem = s.mem := rfl
@[simp] theorem complete_memEpoch (s : State) : (complete s).memEpoch = s.memEpoch := rfl
@[simp] theorem complete_scrDraw (s : State) : (complete s).scrDraw = s.scrDraw := rfl
@[simp] theorem complete_latched (s : State) : (complete s).latched = s.latched := rfl
@[simp] theorem complete_seq (s : State) : (complete s).seq = { s.seq with op := none, sub := none } := rfl
@[simp] theorem complete_inReset (s : State) : (complete s).inReset = s.inReset := rfl
@[simp] theorem complete_env (s : State) : (complete s).env = s.env := rfl
@[simp] theorem complete_adc (s : State) : (complete s).adc = s.adc := rfl
@[simp] theorem complete_history (s : State) : (complete s).history = s.history := rfl
@[simp] theorem complete_draws (s : State) : (complete s).draws = s.draws := rfl

/-! ### `raiseErr` -/

@[simp] theorem raiseErr_par (e : ErrKind) (info : Nat) (op : Byte) (s : State) : (raiseErr e info op s).par = s.par := rfl
@[simp] theorem raiseErr_doneIe (e : ErrKind) (info : Nat) (op : Byte) (s : State) : (raiseErr e info op s).doneIe = s.doneIe := rfl
@[simp] theorem raiseErr_status (e : ErrKind) (info : Nat) (op : Byte) (s : State) : (raiseErr e info op s).status = s.status.enterError e.code op := rfl
@[simp] theorem raiseErr_errIndex (e : ErrKind) (info : Nat) (op : Byte) (s : State) : (raiseErr e info op s).errIndex = if e = .sampleTimeout then BitVec.ofNat 32 info else s.errIndex := rfl
@[simp] theorem raiseErr_sampleRaw (e : ErrKind) (info : Nat) (op : Byte) (s : State) : (raiseErr e info op s).sampleRaw = s.sampleRaw := rfl
@[simp] theorem raiseErr_sampleVal (e : ErrKind) (info : Nat) (op : Byte) (s : State) : (raiseErr e info op s).sampleVal = s.sampleVal := rfl
@[simp] theorem raiseErr_bias (e : ErrKind) (info : Nat) (op : Byte) (s : State) : (raiseErr e info op s).bias = s.bias := rfl
@[simp] theorem raiseErr_acc (e : ErrKind) (info : Nat) (op : Byte) (s : State) : (raiseErr e info op s).acc = s.acc := rfl
@[simp] theorem raiseErr_biasLen (e : ErrKind) (info : Nat) (op : Byte) (s : State) : (raiseErr e info op s).biasLen = s.biasLen := rfl
@[simp] theorem raiseErr_peakCount (e : ErrKind) (info : Nat) (op : Byte) (s : State) : (raiseErr e info op s).peakCount = s.peakCount := rfl
@[simp] theorem raiseErr_nMax (e : ErrKind) (info : Nat) (op : Byte) (s : State) : (raiseErr e info op s).nMax = s.nMax := rfl
@[simp] theorem raiseErr_mem (e : ErrKind) (info : Nat) (op : Byte) (s : State) : (raiseErr e info op s).mem = s.mem := rfl
@[simp] theorem raiseErr_memEpoch (e : ErrKind) (info : Nat) (op : Byte) (s : State) : (raiseErr e info op s).memEpoch = s.memEpoch := rfl
@[simp] theorem raiseErr_scrDraw (e : ErrKind) (info : Nat) (op : Byte) (s : State) : (raiseErr e info op s).scrDraw = s.scrDraw := rfl
@[simp] theorem raiseErr_latched (e : ErrKind) (info : Nat) (op : Byte) (s : State) : (raiseErr e info op s).latched = s.latched := rfl
@[simp] theorem raiseErr_seq (e : ErrKind) (info : Nat) (op : Byte) (s : State) : (raiseErr e info op s).seq = { s.seq with op := none, sub := none } := rfl
@[simp] theorem raiseErr_inReset (e : ErrKind) (info : Nat) (op : Byte) (s : State) : (raiseErr e info op s).inReset = s.inReset := rfl
@[simp] theorem raiseErr_env (e : ErrKind) (info : Nat) (op : Byte) (s : State) : (raiseErr e info op s).env = s.env := rfl
@[simp] theorem raiseErr_adc (e : ErrKind) (info : Nat) (op : Byte) (s : State) : (raiseErr e info op s).adc = s.adc := rfl
@[simp] theorem raiseErr_history (e : ErrKind) (info : Nat) (op : Byte) (s : State) : (raiseErr e info op s).history = s.history := rfl
@[simp] theorem raiseErr_draws (e : ErrKind) (info : Nat) (op : Byte) (s : State) : (raiseErr e info op s).draws = s.draws := rfl

/-! ### `acceptFlags` -/

@[simp] theorem acceptFlags_par (s : State) : (acceptFlags s).par = s.par := rfl
@[simp] theorem acceptFlags_doneIe (s : State) : (acceptFlags s).doneIe = s.doneIe := rfl
@[simp] theorem acceptFlags_status (s : State) : (acceptFlags s).status = s.status.accept := rfl
@[simp] theorem acceptFlags_errIndex (s : State) : (acceptFlags s).errIndex = 0 := rfl
@[simp] theorem acceptFlags_sampleRaw (s : State) : (acceptFlags s).sampleRaw = s.sampleRaw := rfl
@[simp] theorem acceptFlags_sampleVal (s : State) : (acceptFlags s).sampleVal = s.sampleVal := rfl
@[simp] theorem acceptFlags_bias (s : State) : (acceptFlags s).bias = s.bias := rfl
@[simp] theorem acceptFlags_acc (s : State) : (acceptFlags s).acc = s.acc := rfl
@[simp] theorem acceptFlags_biasLen (s : State) : (acceptFlags s).biasLen = s.biasLen := rfl
@[simp] theorem acceptFlags_peakCount (s : State) : (acceptFlags s).peakCount = s.peakCount := rfl
@[simp] theorem acceptFlags_nMax (s : State) : (acceptFlags s).nMax = s.nMax := rfl
@[simp] theorem acceptFlags_mem (s : State) : (acceptFlags s).mem = s.mem := rfl
@[simp] theorem acceptFlags_memEpoch (s : State) : (acceptFlags s).memEpoch = s.memEpoch := rfl
@[simp] theorem acceptFlags_scrDraw (s : State) : (acceptFlags s).scrDraw = s.scrDraw := rfl
@[simp] theorem acceptFlags_latched (s : State) : (acceptFlags s).latched = latch s.par := rfl
@[simp] theorem acceptFlags_seq (s : State) : (acceptFlags s).seq = s.seq := rfl
@[simp] theorem acceptFlags_inReset (s : State) : (acceptFlags s).inReset = s.inReset := rfl
@[simp] theorem acceptFlags_env (s : State) : (acceptFlags s).env = s.env := rfl
@[simp] theorem acceptFlags_adc (s : State) : (acceptFlags s).adc = s.adc := rfl
@[simp] theorem acceptFlags_history (s : State) : (acceptFlags s).history = s.history := rfl
@[simp] theorem acceptFlags_draws (s : State) : (acceptFlags s).draws = s.draws := rfl

/-! ### `startCommand` -/

@[simp] theorem startCommand_par (i : Instr) (s : State) : (startCommand i s).par = s.par := rfl
@[simp] theorem startCommand_doneIe (i : Instr) (s : State) : (startCommand i s).doneIe = s.doneIe := rfl
@[simp] theorem startCommand_status (i : Instr) (s : State) : (startCommand i s).status = s.status := rfl
@[simp] theorem startCommand_errIndex (i : Instr) (s : State) : (startCommand i s).errIndex = s.errIndex := rfl
@[simp] theorem startCommand_sampleRaw (i : Instr) (s : State) : (startCommand i s).sampleRaw = s.sampleRaw := rfl
@[simp] theorem startCommand_sampleVal (i : Instr) (s : State) : (startCommand i s).sampleVal = s.sampleVal := rfl
@[simp] theorem startCommand_bias (i : Instr) (s : State) : (startCommand i s).bias = s.bias := rfl
@[simp] theorem startCommand_acc (i : Instr) (s : State) : (startCommand i s).acc = s.acc := rfl
@[simp] theorem startCommand_biasLen (i : Instr) (s : State) : (startCommand i s).biasLen = s.biasLen := rfl
@[simp] theorem startCommand_peakCount (i : Instr) (s : State) : (startCommand i s).peakCount = s.peakCount := rfl
@[simp] theorem startCommand_nMax (i : Instr) (s : State) : (startCommand i s).nMax = s.nMax := rfl
@[simp] theorem startCommand_mem (i : Instr) (s : State) : (startCommand i s).mem = s.mem := rfl
@[simp] theorem startCommand_memEpoch (i : Instr) (s : State) : (startCommand i s).memEpoch = s.memEpoch := rfl
@[simp] theorem startCommand_scrDraw (i : Instr) (s : State) : (startCommand i s).scrDraw = s.scrDraw := rfl
@[simp] theorem startCommand_latched (i : Instr) (s : State) : (startCommand i s).latched = s.latched := rfl
@[simp] theorem startCommand_seq (i : Instr) (s : State) : (startCommand i s).seq = { s.seq with op := some i, sub := firstSub i, i := 0, polls := 0, phase := firstPhase i } := rfl
@[simp] theorem startCommand_inReset (i : Instr) (s : State) : (startCommand i s).inReset = s.inReset := rfl
@[simp] theorem startCommand_env (i : Instr) (s : State) : (startCommand i s).env = s.env := rfl
@[simp] theorem startCommand_adc (i : Instr) (s : State) : (startCommand i s).adc = s.adc := rfl
@[simp] theorem startCommand_history (i : Instr) (s : State) : (startCommand i s).history = s.history := rfl
@[simp] theorem startCommand_draws (i : Instr) (s : State) : (startCommand i s).draws = s.draws := rfl

/-! ### `goto` -/

@[simp] theorem goto_par (p : Phase) (s : State) : (goto p s).par = s.par := rfl
@[simp] theorem goto_doneIe (p : Phase) (s : State) : (goto p s).doneIe = s.doneIe := rfl
@[simp] theorem goto_status (p : Phase) (s : State) : (goto p s).status = s.status := rfl
@[simp] theorem goto_errIndex (p : Phase) (s : State) : (goto p s).errIndex = s.errIndex := rfl
@[simp] theorem goto_sampleRaw (p : Phase) (s : State) : (goto p s).sampleRaw = s.sampleRaw := rfl
@[simp] theorem goto_sampleVal (p : Phase) (s : State) : (goto p s).sampleVal = s.sampleVal := rfl
@[simp] theorem goto_bias (p : Phase) (s : State) : (goto p s).bias = s.bias := rfl
@[simp] theorem goto_acc (p : Phase) (s : State) : (goto p s).acc = s.acc := rfl
@[simp] theorem goto_biasLen (p : Phase) (s : State) : (goto p s).biasLen = s.biasLen := rfl
@[simp] theorem goto_peakCount (p : Phase) (s : State) : (goto p s).peakCount = s.peakCount := rfl
@[simp] theorem goto_nMax (p : Phase) (s : State) : (goto p s).nMax = s.nMax := rfl
@[simp] theorem goto_mem (p : Phase) (s : State) : (goto p s).mem = s.mem := rfl
@[simp] theorem goto_memEpoch (p : Phase) (s : State) : (goto p s).memEpoch = s.memEpoch := rfl
@[simp] theorem goto_scrDraw (p : Phase) (s : State) : (goto p s).scrDraw = s.scrDraw := rfl
@[simp] theorem goto_latched (p : Phase) (s : State) : (goto p s).latched = s.latched := rfl
@[simp] theorem goto_seq (p : Phase) (s : State) : (goto p s).seq = { s.seq with phase := p } := rfl
@[simp] theorem goto_inReset (p : Phase) (s : State) : (goto p s).inReset = s.inReset := rfl
@[simp] theorem goto_env (p : Phase) (s : State) : (goto p s).env = s.env := rfl
@[simp] theorem goto_adc (p : Phase) (s : State) : (goto p s).adc = s.adc := rfl
@[simp] theorem goto_history (p : Phase) (s : State) : (goto p s).history = s.history := rfl
@[simp] theorem goto_draws (p : Phase) (s : State) : (goto p s).draws = s.draws := rfl

/-! ### `startSample` -/

@[simp] theorem startSample_par (i : Nat) (s : State) : (startSample i s).par = s.par := rfl
@[simp] theorem startSample_doneIe (i : Nat) (s : State) : (startSample i s).doneIe = s.doneIe := rfl
@[simp] theorem startSample_status (i : Nat) (s : State) : (startSample i s).status = s.status := rfl
@[simp] theorem startSample_errIndex (i : Nat) (s : State) : (startSample i s).errIndex = s.errIndex := rfl
@[simp] theorem startSample_sampleRaw (i : Nat) (s : State) : (startSample i s).sampleRaw = s.sampleRaw := rfl
@[simp] theorem startSample_sampleVal (i : Nat) (s : State) : (startSample i s).sampleVal = s.sampleVal := rfl
@[simp] theorem startSample_bias (i : Nat) (s : State) : (startSample i s).bias = s.bias := rfl
@[simp] theorem startSample_acc (i : Nat) (s : State) : (startSample i s).acc = s.acc := rfl
@[simp] theorem startSample_biasLen (i : Nat) (s : State) : (startSample i s).biasLen = s.biasLen := rfl
@[simp] theorem startSample_peakCount (i : Nat) (s : State) : (startSample i s).peakCount = s.peakCount := rfl
@[simp] theorem startSample_nMax (i : Nat) (s : State) : (startSample i s).nMax = s.nMax := rfl
@[simp] theorem startSample_mem (i : Nat) (s : State) : (startSample i s).mem = s.mem := rfl
@[simp] theorem startSample_memEpoch (i : Nat) (s : State) : (startSample i s).memEpoch = s.memEpoch := rfl
@[simp] theorem startSample_scrDraw (i : Nat) (s : State) : (startSample i s).scrDraw = s.scrDraw := rfl
@[simp] theorem startSample_latched (i : Nat) (s : State) : (startSample i s).latched = s.latched := rfl
@[simp] theorem startSample_seq (i : Nat) (s : State) : (startSample i s).seq = { s.seq with i := i, polls := 0, phase := .poll } := rfl
@[simp] theorem startSample_inReset (i : Nat) (s : State) : (startSample i s).inReset = s.inReset := rfl
@[simp] theorem startSample_env (i : Nat) (s : State) : (startSample i s).env = s.env := rfl
@[simp] theorem startSample_adc (i : Nat) (s : State) : (startSample i s).adc = s.adc := rfl
@[simp] theorem startSample_history (i : Nat) (s : State) : (startSample i s).history = s.history := rfl
@[simp] theorem startSample_draws (i : Nat) (s : State) : (startSample i s).draws = s.draws := rfl

/-! ### `enterSub` -/

@[simp] theorem enterSub_par (sub : SubOp) (p : Phase) (s : State) : (enterSub sub p s).par = s.par := rfl
@[simp] theorem enterSub_doneIe (sub : SubOp) (p : Phase) (s : State) : (enterSub sub p s).doneIe = s.doneIe := rfl
@[simp] theorem enterSub_status (sub : SubOp) (p : Phase) (s : State) : (enterSub sub p s).status = s.status := rfl
@[simp] theorem enterSub_errIndex (sub : SubOp) (p : Phase) (s : State) : (enterSub sub p s).errIndex = s.errIndex := rfl
@[simp] theorem enterSub_sampleRaw (sub : SubOp) (p : Phase) (s : State) : (enterSub sub p s).sampleRaw = s.sampleRaw := rfl
@[simp] theorem enterSub_sampleVal (sub : SubOp) (p : Phase) (s : State) : (enterSub sub p s).sampleVal = s.sampleVal := rfl
@[simp] theorem enterSub_bias (sub : SubOp) (p : Phase) (s : State) : (enterSub sub p s).bias = s.bias := rfl
@[simp] theorem enterSub_acc (sub : SubOp) (p : Phase) (s : State) : (enterSub sub p s).acc = s.acc := rfl
@[simp] theorem enterSub_biasLen (sub : SubOp) (p : Phase) (s : State) : (enterSub sub p s).biasLen = s.biasLen := rfl
@[simp] theorem enterSub_peakCount (sub : SubOp) (p : Phase) (s : State) : (enterSub sub p s).peakCount = s.peakCount := rfl
@[simp] theorem enterSub_nMax (sub : SubOp) (p : Phase) (s : State) : (enterSub sub p s).nMax = s.nMax := rfl
@[simp] theorem enterSub_mem (sub : SubOp) (p : Phase) (s : State) : (enterSub sub p s).mem = s.mem := rfl
@[simp] theorem enterSub_memEpoch (sub : SubOp) (p : Phase) (s : State) : (enterSub sub p s).memEpoch = s.memEpoch := rfl
@[simp] theorem enterSub_scrDraw (sub : SubOp) (p : Phase) (s : State) : (enterSub sub p s).scrDraw = s.scrDraw := rfl
@[simp] theorem enterSub_latched (sub : SubOp) (p : Phase) (s : State) : (enterSub sub p s).latched = s.latched := rfl
@[simp] theorem enterSub_seq (sub : SubOp) (p : Phase) (s : State) : (enterSub sub p s).seq = { s.seq with sub := some sub, phase := p } := rfl
@[simp] theorem enterSub_inReset (sub : SubOp) (p : Phase) (s : State) : (enterSub sub p s).inReset = s.inReset := rfl
@[simp] theorem enterSub_env (sub : SubOp) (p : Phase) (s : State) : (enterSub sub p s).env = s.env := rfl
@[simp] theorem enterSub_adc (sub : SubOp) (p : Phase) (s : State) : (enterSub sub p s).adc = s.adc := rfl
@[simp] theorem enterSub_history (sub : SubOp) (p : Phase) (s : State) : (enterSub sub p s).history = s.history := rfl
@[simp] theorem enterSub_draws (sub : SubOp) (p : Phase) (s : State) : (enterSub sub p s).draws = s.draws := rfl

/-! ### `dropWrite` -/

@[simp] theorem dropWrite_par (s : State) : (dropWrite s).par = s.par := rfl
@[simp] theorem dropWrite_doneIe (s : State) : (dropWrite s).doneIe = s.doneIe := rfl
@[simp] theorem dropWrite_status (s : State) : (dropWrite s).status = s.status.drop := rfl
@[simp] theorem dropWrite_errIndex (s : State) : (dropWrite s).errIndex = s.errIndex := rfl
@[simp] theorem dropWrite_sampleRaw (s : State) : (dropWrite s).sampleRaw = s.sampleRaw := rfl
@[simp] theorem dropWrite_sampleVal (s : State) : (dropWrite s).sampleVal = s.sampleVal := rfl
@[simp] theorem dropWrite_bias (s : State) : (dropWrite s).bias = s.bias := rfl
@[simp] theorem dropWrite_acc (s : State) : (dropWrite s).acc = s.acc := rfl
@[simp] theorem dropWrite_biasLen (s : State) : (dropWrite s).biasLen = s.biasLen := rfl
@[simp] theorem dropWrite_peakCount (s : State) : (dropWrite s).peakCount = s.peakCount := rfl
@[simp] theorem dropWrite_nMax (s : State) : (dropWrite s).nMax = s.nMax := rfl
@[simp] theorem dropWrite_mem (s : State) : (dropWrite s).mem = s.mem := rfl
@[simp] theorem dropWrite_memEpoch (s : State) : (dropWrite s).memEpoch = s.memEpoch := rfl
@[simp] theorem dropWrite_scrDraw (s : State) : (dropWrite s).scrDraw = s.scrDraw := rfl
@[simp] theorem dropWrite_latched (s : State) : (dropWrite s).latched = s.latched := rfl
@[simp] theorem dropWrite_seq (s : State) : (dropWrite s).seq = s.seq := rfl
@[simp] theorem dropWrite_inReset (s : State) : (dropWrite s).inReset = s.inReset := rfl
@[simp] theorem dropWrite_env (s : State) : (dropWrite s).env = s.env := rfl
@[simp] theorem dropWrite_adc (s : State) : (dropWrite s).adc = s.adc := rfl
@[simp] theorem dropWrite_history (s : State) : (dropWrite s).history = s.history := rfl
@[simp] theorem dropWrite_draws (s : State) : (dropWrite s).draws = s.draws := rfl

/-! ### `hostRead` -/

@[simp] theorem hostRead_par (off : HostOffset) (s : State) : (hostRead off s).par = s.par := rfl
@[simp] theorem hostRead_doneIe (off : HostOffset) (s : State) : (hostRead off s).doneIe = s.doneIe := rfl
@[simp] theorem hostRead_status (off : HostOffset) (s : State) : (hostRead off s).status = s.status := rfl
@[simp] theorem hostRead_errIndex (off : HostOffset) (s : State) : (hostRead off s).errIndex = s.errIndex := rfl
@[simp] theorem hostRead_sampleRaw (off : HostOffset) (s : State) : (hostRead off s).sampleRaw = s.sampleRaw := rfl
@[simp] theorem hostRead_sampleVal (off : HostOffset) (s : State) : (hostRead off s).sampleVal = s.sampleVal := rfl
@[simp] theorem hostRead_bias (off : HostOffset) (s : State) : (hostRead off s).bias = s.bias := rfl
@[simp] theorem hostRead_acc (off : HostOffset) (s : State) : (hostRead off s).acc = s.acc := rfl
@[simp] theorem hostRead_biasLen (off : HostOffset) (s : State) : (hostRead off s).biasLen = s.biasLen := rfl
@[simp] theorem hostRead_peakCount (off : HostOffset) (s : State) : (hostRead off s).peakCount = s.peakCount := rfl
@[simp] theorem hostRead_nMax (off : HostOffset) (s : State) : (hostRead off s).nMax = s.nMax := rfl
@[simp] theorem hostRead_mem (off : HostOffset) (s : State) : (hostRead off s).mem = s.mem := rfl
@[simp] theorem hostRead_memEpoch (off : HostOffset) (s : State) : (hostRead off s).memEpoch = s.memEpoch := rfl
@[simp] theorem hostRead_scrDraw (off : HostOffset) (s : State) : (hostRead off s).scrDraw = s.scrDraw := rfl
@[simp] theorem hostRead_latched (off : HostOffset) (s : State) : (hostRead off s).latched = s.latched := rfl
@[simp] theorem hostRead_seq (off : HostOffset) (s : State) : (hostRead off s).seq = s.seq := rfl
@[simp] theorem hostRead_inReset (off : HostOffset) (s : State) : (hostRead off s).inReset = s.inReset := rfl
@[simp] theorem hostRead_env (off : HostOffset) (s : State) : (hostRead off s).env = s.env := rfl
@[simp] theorem hostRead_adc (off : HostOffset) (s : State) : (hostRead off s).adc = s.adc := rfl
@[simp] theorem hostRead_history (off : HostOffset) (s : State) : (hostRead off s).history = .hostRead off (s.readValue off) :: s.history := rfl
@[simp] theorem hostRead_draws (off : HostOffset) (s : State) : (hostRead off s).draws = if s.readIsDraw off then s.draws + 1 else s.draws := rfl

/-! ### `accumulate` -/

@[simp] theorem accumulate_par (s : State) : (accumulate s).par = s.par := rfl
@[simp] theorem accumulate_doneIe (s : State) : (accumulate s).doneIe = s.doneIe := rfl
@[simp] theorem accumulate_status (s : State) : (accumulate s).status = s.status := rfl
@[simp] theorem accumulate_errIndex (s : State) : (accumulate s).errIndex = s.errIndex := rfl
@[simp] theorem accumulate_sampleRaw (s : State) : (accumulate s).sampleRaw = s.sampleRaw := rfl
@[simp] theorem accumulate_sampleVal (s : State) : (accumulate s).sampleVal = s.sampleVal := rfl
@[simp] theorem accumulate_bias (s : State) : (accumulate s).bias = rneFrac (s.acc + s.sampleVal.signExtend 64).toInt s.latched.w.toNat := rfl
@[simp] theorem accumulate_acc (s : State) : (accumulate s).acc = s.acc + s.sampleVal.signExtend 64 := rfl
@[simp] theorem accumulate_biasLen (s : State) : (accumulate s).biasLen = s.biasLen := rfl
@[simp] theorem accumulate_peakCount (s : State) : (accumulate s).peakCount = s.peakCount := rfl
@[simp] theorem accumulate_nMax (s : State) : (accumulate s).nMax = s.nMax := rfl
@[simp] theorem accumulate_mem (s : State) : (accumulate s).mem = s.mem := rfl
@[simp] theorem accumulate_memEpoch (s : State) : (accumulate s).memEpoch = s.memEpoch := rfl
@[simp] theorem accumulate_scrDraw (s : State) : (accumulate s).scrDraw = s.scrDraw := rfl
@[simp] theorem accumulate_latched (s : State) : (accumulate s).latched = s.latched := rfl
@[simp] theorem accumulate_seq (s : State) : (accumulate s).seq = s.seq := rfl
@[simp] theorem accumulate_inReset (s : State) : (accumulate s).inReset = s.inReset := rfl
@[simp] theorem accumulate_env (s : State) : (accumulate s).env = s.env := rfl
@[simp] theorem accumulate_adc (s : State) : (accumulate s).adc = s.adc := rfl
@[simp] theorem accumulate_history (s : State) : (accumulate s).history = s.history := rfl
@[simp] theorem accumulate_draws (s : State) : (accumulate s).draws = s.draws := rfl

/-! ### `State.setBuf` -/

@[simp] theorem State.setBuf_par (s : State) (k : Nat) (z : Cplx) : (s.setBuf k z).par = s.par := rfl
@[simp] theorem State.setBuf_doneIe (s : State) (k : Nat) (z : Cplx) : (s.setBuf k z).doneIe = s.doneIe := rfl
@[simp] theorem State.setBuf_status (s : State) (k : Nat) (z : Cplx) : (s.setBuf k z).status = s.status := rfl
@[simp] theorem State.setBuf_errIndex (s : State) (k : Nat) (z : Cplx) : (s.setBuf k z).errIndex = s.errIndex := rfl
@[simp] theorem State.setBuf_sampleRaw (s : State) (k : Nat) (z : Cplx) : (s.setBuf k z).sampleRaw = s.sampleRaw := rfl
@[simp] theorem State.setBuf_sampleVal (s : State) (k : Nat) (z : Cplx) : (s.setBuf k z).sampleVal = s.sampleVal := rfl
@[simp] theorem State.setBuf_bias (s : State) (k : Nat) (z : Cplx) : (s.setBuf k z).bias = s.bias := rfl
@[simp] theorem State.setBuf_acc (s : State) (k : Nat) (z : Cplx) : (s.setBuf k z).acc = s.acc := rfl
@[simp] theorem State.setBuf_biasLen (s : State) (k : Nat) (z : Cplx) : (s.setBuf k z).biasLen = s.biasLen := rfl
@[simp] theorem State.setBuf_peakCount (s : State) (k : Nat) (z : Cplx) : (s.setBuf k z).peakCount = s.peakCount := rfl
@[simp] theorem State.setBuf_nMax (s : State) (k : Nat) (z : Cplx) : (s.setBuf k z).nMax = s.nMax := rfl
@[simp] theorem State.setBuf_mem (s : State) (k : Nat) (z : Cplx) : (s.setBuf k z).mem = Memory.writeBuf s.mem k z := rfl
@[simp] theorem State.setBuf_memEpoch (s : State) (k : Nat) (z : Cplx) : (s.setBuf k z).memEpoch = s.memEpoch := rfl
@[simp] theorem State.setBuf_scrDraw (s : State) (k : Nat) (z : Cplx) : (s.setBuf k z).scrDraw = s.scrDraw := rfl
@[simp] theorem State.setBuf_latched (s : State) (k : Nat) (z : Cplx) : (s.setBuf k z).latched = s.latched := rfl
@[simp] theorem State.setBuf_seq (s : State) (k : Nat) (z : Cplx) : (s.setBuf k z).seq = s.seq := rfl
@[simp] theorem State.setBuf_inReset (s : State) (k : Nat) (z : Cplx) : (s.setBuf k z).inReset = s.inReset := rfl
@[simp] theorem State.setBuf_env (s : State) (k : Nat) (z : Cplx) : (s.setBuf k z).env = s.env := rfl
@[simp] theorem State.setBuf_adc (s : State) (k : Nat) (z : Cplx) : (s.setBuf k z).adc = s.adc := rfl
@[simp] theorem State.setBuf_history (s : State) (k : Nat) (z : Cplx) : (s.setBuf k z).history = s.history := rfl
@[simp] theorem State.setBuf_draws (s : State) (k : Nat) (z : Cplx) : (s.setBuf k z).draws = s.draws := rfl

/-! ### `State.setPeak` -/

@[simp] theorem State.setPeak_par (s : State) (k : Nat) (e : PeakEntry) : (s.setPeak k e).par = s.par := rfl
@[simp] theorem State.setPeak_doneIe (s : State) (k : Nat) (e : PeakEntry) : (s.setPeak k e).doneIe = s.doneIe := rfl
@[simp] theorem State.setPeak_status (s : State) (k : Nat) (e : PeakEntry) : (s.setPeak k e).status = s.status := rfl
@[simp] theorem State.setPeak_errIndex (s : State) (k : Nat) (e : PeakEntry) : (s.setPeak k e).errIndex = s.errIndex := rfl
@[simp] theorem State.setPeak_sampleRaw (s : State) (k : Nat) (e : PeakEntry) : (s.setPeak k e).sampleRaw = s.sampleRaw := rfl
@[simp] theorem State.setPeak_sampleVal (s : State) (k : Nat) (e : PeakEntry) : (s.setPeak k e).sampleVal = s.sampleVal := rfl
@[simp] theorem State.setPeak_bias (s : State) (k : Nat) (e : PeakEntry) : (s.setPeak k e).bias = s.bias := rfl
@[simp] theorem State.setPeak_acc (s : State) (k : Nat) (e : PeakEntry) : (s.setPeak k e).acc = s.acc := rfl
@[simp] theorem State.setPeak_biasLen (s : State) (k : Nat) (e : PeakEntry) : (s.setPeak k e).biasLen = s.biasLen := rfl
@[simp] theorem State.setPeak_peakCount (s : State) (k : Nat) (e : PeakEntry) : (s.setPeak k e).peakCount = s.peakCount := rfl
@[simp] theorem State.setPeak_nMax (s : State) (k : Nat) (e : PeakEntry) : (s.setPeak k e).nMax = s.nMax := rfl
@[simp] theorem State.setPeak_mem (s : State) (k : Nat) (e : PeakEntry) : (s.setPeak k e).mem = Memory.writePeak s.mem k e := rfl
@[simp] theorem State.setPeak_memEpoch (s : State) (k : Nat) (e : PeakEntry) : (s.setPeak k e).memEpoch = s.memEpoch := rfl
@[simp] theorem State.setPeak_scrDraw (s : State) (k : Nat) (e : PeakEntry) : (s.setPeak k e).scrDraw = s.scrDraw := rfl
@[simp] theorem State.setPeak_latched (s : State) (k : Nat) (e : PeakEntry) : (s.setPeak k e).latched = s.latched := rfl
@[simp] theorem State.setPeak_seq (s : State) (k : Nat) (e : PeakEntry) : (s.setPeak k e).seq = s.seq := rfl
@[simp] theorem State.setPeak_inReset (s : State) (k : Nat) (e : PeakEntry) : (s.setPeak k e).inReset = s.inReset := rfl
@[simp] theorem State.setPeak_env (s : State) (k : Nat) (e : PeakEntry) : (s.setPeak k e).env = s.env := rfl
@[simp] theorem State.setPeak_adc (s : State) (k : Nat) (e : PeakEntry) : (s.setPeak k e).adc = s.adc := rfl
@[simp] theorem State.setPeak_history (s : State) (k : Nat) (e : PeakEntry) : (s.setPeak k e).history = s.history := rfl
@[simp] theorem State.setPeak_draws (s : State) (k : Nat) (e : PeakEntry) : (s.setPeak k e).draws = s.draws := rfl

/-! ### `State.setBufs` -/

@[simp] theorem State.setBufs_par (zs : List Cplx) (k : Nat) (s : State) : (s.setBufs k zs).par = s.par := by
  induction zs generalizing k s with
  | nil => rfl
  | cons z t ih => exact ih (k + 1) _
@[simp] theorem State.setBufs_doneIe (zs : List Cplx) (k : Nat) (s : State) : (s.setBufs k zs).doneIe = s.doneIe := by
  induction zs generalizing k s with
  | nil => rfl
  | cons z t ih => exact ih (k + 1) _
@[simp] theorem State.setBufs_status (zs : List Cplx) (k : Nat) (s : State) : (s.setBufs k zs).status = s.status := by
  induction zs generalizing k s with
  | nil => rfl
  | cons z t ih => exact ih (k + 1) _
@[simp] theorem State.setBufs_errIndex (zs : List Cplx) (k : Nat) (s : State) : (s.setBufs k zs).errIndex = s.errIndex := by
  induction zs generalizing k s with
  | nil => rfl
  | cons z t ih => exact ih (k + 1) _
@[simp] theorem State.setBufs_sampleRaw (zs : List Cplx) (k : Nat) (s : State) : (s.setBufs k zs).sampleRaw = s.sampleRaw := by
  induction zs generalizing k s with
  | nil => rfl
  | cons z t ih => exact ih (k + 1) _
@[simp] theorem State.setBufs_sampleVal (zs : List Cplx) (k : Nat) (s : State) : (s.setBufs k zs).sampleVal = s.sampleVal := by
  induction zs generalizing k s with
  | nil => rfl
  | cons z t ih => exact ih (k + 1) _
@[simp] theorem State.setBufs_bias (zs : List Cplx) (k : Nat) (s : State) : (s.setBufs k zs).bias = s.bias := by
  induction zs generalizing k s with
  | nil => rfl
  | cons z t ih => exact ih (k + 1) _
@[simp] theorem State.setBufs_acc (zs : List Cplx) (k : Nat) (s : State) : (s.setBufs k zs).acc = s.acc := by
  induction zs generalizing k s with
  | nil => rfl
  | cons z t ih => exact ih (k + 1) _
@[simp] theorem State.setBufs_biasLen (zs : List Cplx) (k : Nat) (s : State) : (s.setBufs k zs).biasLen = s.biasLen := by
  induction zs generalizing k s with
  | nil => rfl
  | cons z t ih => exact ih (k + 1) _
@[simp] theorem State.setBufs_peakCount (zs : List Cplx) (k : Nat) (s : State) : (s.setBufs k zs).peakCount = s.peakCount := by
  induction zs generalizing k s with
  | nil => rfl
  | cons z t ih => exact ih (k + 1) _
@[simp] theorem State.setBufs_nMax (zs : List Cplx) (k : Nat) (s : State) : (s.setBufs k zs).nMax = s.nMax := by
  induction zs generalizing k s with
  | nil => rfl
  | cons z t ih => exact ih (k + 1) _
@[simp] theorem State.setBufs_memEpoch (zs : List Cplx) (k : Nat) (s : State) : (s.setBufs k zs).memEpoch = s.memEpoch := by
  induction zs generalizing k s with
  | nil => rfl
  | cons z t ih => exact ih (k + 1) _
@[simp] theorem State.setBufs_scrDraw (zs : List Cplx) (k : Nat) (s : State) : (s.setBufs k zs).scrDraw = s.scrDraw := by
  induction zs generalizing k s with
  | nil => rfl
  | cons z t ih => exact ih (k + 1) _
@[simp] theorem State.setBufs_latched (zs : List Cplx) (k : Nat) (s : State) : (s.setBufs k zs).latched = s.latched := by
  induction zs generalizing k s with
  | nil => rfl
  | cons z t ih => exact ih (k + 1) _
@[simp] theorem State.setBufs_seq (zs : List Cplx) (k : Nat) (s : State) : (s.setBufs k zs).seq = s.seq := by
  induction zs generalizing k s with
  | nil => rfl
  | cons z t ih => exact ih (k + 1) _
@[simp] theorem State.setBufs_inReset (zs : List Cplx) (k : Nat) (s : State) : (s.setBufs k zs).inReset = s.inReset := by
  induction zs generalizing k s with
  | nil => rfl
  | cons z t ih => exact ih (k + 1) _
@[simp] theorem State.setBufs_env (zs : List Cplx) (k : Nat) (s : State) : (s.setBufs k zs).env = s.env := by
  induction zs generalizing k s with
  | nil => rfl
  | cons z t ih => exact ih (k + 1) _
@[simp] theorem State.setBufs_adc (zs : List Cplx) (k : Nat) (s : State) : (s.setBufs k zs).adc = s.adc := by
  induction zs generalizing k s with
  | nil => rfl
  | cons z t ih => exact ih (k + 1) _
@[simp] theorem State.setBufs_history (zs : List Cplx) (k : Nat) (s : State) : (s.setBufs k zs).history = s.history := by
  induction zs generalizing k s with
  | nil => rfl
  | cons z t ih => exact ih (k + 1) _
@[simp] theorem State.setBufs_draws (zs : List Cplx) (k : Nat) (s : State) : (s.setBufs k zs).draws = s.draws := by
  induction zs generalizing k s with
  | nil => rfl
  | cons z t ih => exact ih (k + 1) _

/-! ### `State.setPeaks` -/

@[simp] theorem State.setPeaks_par (es : List PeakEntry) (k : Nat) (s : State) : (s.setPeaks k es).par = s.par := by
  induction es generalizing k s with
  | nil => rfl
  | cons e t ih => exact ih (k + 1) _
@[simp] theorem State.setPeaks_doneIe (es : List PeakEntry) (k : Nat) (s : State) : (s.setPeaks k es).doneIe = s.doneIe := by
  induction es generalizing k s with
  | nil => rfl
  | cons e t ih => exact ih (k + 1) _
@[simp] theorem State.setPeaks_status (es : List PeakEntry) (k : Nat) (s : State) : (s.setPeaks k es).status = s.status := by
  induction es generalizing k s with
  | nil => rfl
  | cons e t ih => exact ih (k + 1) _
@[simp] theorem State.setPeaks_errIndex (es : List PeakEntry) (k : Nat) (s : State) : (s.setPeaks k es).errIndex = s.errIndex := by
  induction es generalizing k s with
  | nil => rfl
  | cons e t ih => exact ih (k + 1) _
@[simp] theorem State.setPeaks_sampleRaw (es : List PeakEntry) (k : Nat) (s : State) : (s.setPeaks k es).sampleRaw = s.sampleRaw := by
  induction es generalizing k s with
  | nil => rfl
  | cons e t ih => exact ih (k + 1) _
@[simp] theorem State.setPeaks_sampleVal (es : List PeakEntry) (k : Nat) (s : State) : (s.setPeaks k es).sampleVal = s.sampleVal := by
  induction es generalizing k s with
  | nil => rfl
  | cons e t ih => exact ih (k + 1) _
@[simp] theorem State.setPeaks_bias (es : List PeakEntry) (k : Nat) (s : State) : (s.setPeaks k es).bias = s.bias := by
  induction es generalizing k s with
  | nil => rfl
  | cons e t ih => exact ih (k + 1) _
@[simp] theorem State.setPeaks_acc (es : List PeakEntry) (k : Nat) (s : State) : (s.setPeaks k es).acc = s.acc := by
  induction es generalizing k s with
  | nil => rfl
  | cons e t ih => exact ih (k + 1) _
@[simp] theorem State.setPeaks_biasLen (es : List PeakEntry) (k : Nat) (s : State) : (s.setPeaks k es).biasLen = s.biasLen := by
  induction es generalizing k s with
  | nil => rfl
  | cons e t ih => exact ih (k + 1) _
@[simp] theorem State.setPeaks_peakCount (es : List PeakEntry) (k : Nat) (s : State) : (s.setPeaks k es).peakCount = s.peakCount := by
  induction es generalizing k s with
  | nil => rfl
  | cons e t ih => exact ih (k + 1) _
@[simp] theorem State.setPeaks_nMax (es : List PeakEntry) (k : Nat) (s : State) : (s.setPeaks k es).nMax = s.nMax := by
  induction es generalizing k s with
  | nil => rfl
  | cons e t ih => exact ih (k + 1) _
@[simp] theorem State.setPeaks_memEpoch (es : List PeakEntry) (k : Nat) (s : State) : (s.setPeaks k es).memEpoch = s.memEpoch := by
  induction es generalizing k s with
  | nil => rfl
  | cons e t ih => exact ih (k + 1) _
@[simp] theorem State.setPeaks_scrDraw (es : List PeakEntry) (k : Nat) (s : State) : (s.setPeaks k es).scrDraw = s.scrDraw := by
  induction es generalizing k s with
  | nil => rfl
  | cons e t ih => exact ih (k + 1) _
@[simp] theorem State.setPeaks_latched (es : List PeakEntry) (k : Nat) (s : State) : (s.setPeaks k es).latched = s.latched := by
  induction es generalizing k s with
  | nil => rfl
  | cons e t ih => exact ih (k + 1) _
@[simp] theorem State.setPeaks_seq (es : List PeakEntry) (k : Nat) (s : State) : (s.setPeaks k es).seq = s.seq := by
  induction es generalizing k s with
  | nil => rfl
  | cons e t ih => exact ih (k + 1) _
@[simp] theorem State.setPeaks_inReset (es : List PeakEntry) (k : Nat) (s : State) : (s.setPeaks k es).inReset = s.inReset := by
  induction es generalizing k s with
  | nil => rfl
  | cons e t ih => exact ih (k + 1) _
@[simp] theorem State.setPeaks_env (es : List PeakEntry) (k : Nat) (s : State) : (s.setPeaks k es).env = s.env := by
  induction es generalizing k s with
  | nil => rfl
  | cons e t ih => exact ih (k + 1) _
@[simp] theorem State.setPeaks_adc (es : List PeakEntry) (k : Nat) (s : State) : (s.setPeaks k es).adc = s.adc := by
  induction es generalizing k s with
  | nil => rfl
  | cons e t ih => exact ih (k + 1) _
@[simp] theorem State.setPeaks_history (es : List PeakEntry) (k : Nat) (s : State) : (s.setPeaks k es).history = s.history := by
  induction es generalizing k s with
  | nil => rfl
  | cons e t ih => exact ih (k + 1) _
@[simp] theorem State.setPeaks_draws (es : List PeakEntry) (k : Nat) (s : State) : (s.setPeaks k es).draws = s.draws := by
  induction es generalizing k s with
  | nil => rfl
  | cons e t ih => exact ih (k + 1) _

/-! ### `busRead` -/

@[simp] theorem State.adcAdvance_par (s : State) : s.adcAdvance.par = s.par := by
  unfold State.adcAdvance; split <;> rfl
@[simp] theorem State.adcAdvance_doneIe (s : State) : s.adcAdvance.doneIe = s.doneIe := by
  unfold State.adcAdvance; split <;> rfl
@[simp] theorem State.adcAdvance_status (s : State) : s.adcAdvance.status = s.status := by
  unfold State.adcAdvance; split <;> rfl
@[simp] theorem State.adcAdvance_errIndex (s : State) : s.adcAdvance.errIndex = s.errIndex := by
  unfold State.adcAdvance; split <;> rfl
@[simp] theorem State.adcAdvance_sampleRaw (s : State) : s.adcAdvance.sampleRaw = s.sampleRaw := by
  unfold State.adcAdvance; split <;> rfl
@[simp] theorem State.adcAdvance_sampleVal (s : State) : s.adcAdvance.sampleVal = s.sampleVal := by
  unfold State.adcAdvance; split <;> rfl
@[simp] theorem State.adcAdvance_bias (s : State) : s.adcAdvance.bias = s.bias := by
  unfold State.adcAdvance; split <;> rfl
@[simp] theorem State.adcAdvance_acc (s : State) : s.adcAdvance.acc = s.acc := by
  unfold State.adcAdvance; split <;> rfl
@[simp] theorem State.adcAdvance_biasLen (s : State) : s.adcAdvance.biasLen = s.biasLen := by
  unfold State.adcAdvance; split <;> rfl
@[simp] theorem State.adcAdvance_peakCount (s : State) : s.adcAdvance.peakCount = s.peakCount := by
  unfold State.adcAdvance; split <;> rfl
@[simp] theorem State.adcAdvance_nMax (s : State) : s.adcAdvance.nMax = s.nMax := by
  unfold State.adcAdvance; split <;> rfl
@[simp] theorem State.adcAdvance_mem (s : State) : s.adcAdvance.mem = s.mem := by
  unfold State.adcAdvance; split <;> rfl
@[simp] theorem State.adcAdvance_memEpoch (s : State) : s.adcAdvance.memEpoch = s.memEpoch := by
  unfold State.adcAdvance; split <;> rfl
@[simp] theorem State.adcAdvance_scrDraw (s : State) : s.adcAdvance.scrDraw = s.scrDraw := by
  unfold State.adcAdvance; split <;> rfl
@[simp] theorem State.adcAdvance_latched (s : State) : s.adcAdvance.latched = s.latched := by
  unfold State.adcAdvance; split <;> rfl
@[simp] theorem State.adcAdvance_seq (s : State) : s.adcAdvance.seq = s.seq := by
  unfold State.adcAdvance; split <;> rfl
@[simp] theorem State.adcAdvance_inReset (s : State) : s.adcAdvance.inReset = s.inReset := by
  unfold State.adcAdvance; split <;> rfl
@[simp] theorem State.adcAdvance_env (s : State) : s.adcAdvance.env = s.env := by
  unfold State.adcAdvance; split <;> rfl
@[simp] theorem State.adcAdvance_history (s : State) : s.adcAdvance.history = s.history := by
  unfold State.adcAdvance; split <;> rfl
@[simp] theorem State.adcAdvance_adc (s : State) : s.adcAdvance.adc = s.adc.tail := by
  unfold State.adcAdvance; split <;> simp_all
@[simp] theorem State.adcAdvance_draws (s : State) :
    s.adcAdvance.draws = if s.adc = [] then s.draws + 1 else s.draws := by
  unfold State.adcAdvance; split <;> simp_all
@[simp] theorem busRead_par (reg : Byte) (s : State) : (busRead reg s).par = s.par := by simp [busRead]
@[simp] theorem busRead_doneIe (reg : Byte) (s : State) : (busRead reg s).doneIe = s.doneIe := by simp [busRead]
@[simp] theorem busRead_status (reg : Byte) (s : State) : (busRead reg s).status = s.status := by simp [busRead]
@[simp] theorem busRead_errIndex (reg : Byte) (s : State) : (busRead reg s).errIndex = s.errIndex := by simp [busRead]
@[simp] theorem busRead_sampleRaw (reg : Byte) (s : State) : (busRead reg s).sampleRaw = s.sampleRaw := by simp [busRead]
@[simp] theorem busRead_sampleVal (reg : Byte) (s : State) : (busRead reg s).sampleVal = s.sampleVal := by simp [busRead]
@[simp] theorem busRead_bias (reg : Byte) (s : State) : (busRead reg s).bias = s.bias := by simp [busRead]
@[simp] theorem busRead_acc (reg : Byte) (s : State) : (busRead reg s).acc = s.acc := by simp [busRead]
@[simp] theorem busRead_biasLen (reg : Byte) (s : State) : (busRead reg s).biasLen = s.biasLen := by simp [busRead]
@[simp] theorem busRead_peakCount (reg : Byte) (s : State) : (busRead reg s).peakCount = s.peakCount := by simp [busRead]
@[simp] theorem busRead_nMax (reg : Byte) (s : State) : (busRead reg s).nMax = s.nMax := by simp [busRead]
@[simp] theorem busRead_mem (reg : Byte) (s : State) : (busRead reg s).mem = s.mem := by simp [busRead]
@[simp] theorem busRead_memEpoch (reg : Byte) (s : State) : (busRead reg s).memEpoch = s.memEpoch := by simp [busRead]
@[simp] theorem busRead_scrDraw (reg : Byte) (s : State) : (busRead reg s).scrDraw = s.scrDraw := by simp [busRead]
@[simp] theorem busRead_latched (reg : Byte) (s : State) : (busRead reg s).latched = s.latched := by simp [busRead]
@[simp] theorem busRead_seq (reg : Byte) (s : State) : (busRead reg s).seq = s.seq := by simp [busRead]
@[simp] theorem busRead_inReset (reg : Byte) (s : State) : (busRead reg s).inReset = s.inReset := by simp [busRead]
@[simp] theorem busRead_env (reg : Byte) (s : State) : (busRead reg s).env = s.env := by simp [busRead]
@[simp] theorem busRead_adc (reg : Byte) (s : State) : (busRead reg s).adc = s.adc.tail := by simp [busRead]
@[simp] theorem busRead_history (reg : Byte) (s : State) :
    (busRead reg s).history = .busRead reg s.adcAnswer :: s.history := rfl
@[simp] theorem busRead_draws (reg : Byte) (s : State) :
    (busRead reg s).draws = if s.adc = [] then s.draws + 1 else s.draws := by simp [busRead]

/-! ### `pollOnce` -/

@[simp] theorem pollOnce_par (s : State) :
    (pollOnce s).par = s.par := by simp [pollOnce]
@[simp] theorem pollOnce_doneIe (s : State) :
    (pollOnce s).doneIe = s.doneIe := by simp [pollOnce]
@[simp] theorem pollOnce_status (s : State) :
    (pollOnce s).status = s.status := by simp [pollOnce]
@[simp] theorem pollOnce_errIndex (s : State) :
    (pollOnce s).errIndex = s.errIndex := by simp [pollOnce]
@[simp] theorem pollOnce_sampleRaw (s : State) :
    (pollOnce s).sampleRaw = s.sampleRaw := by simp [pollOnce]
@[simp] theorem pollOnce_sampleVal (s : State) :
    (pollOnce s).sampleVal = s.sampleVal := by simp [pollOnce]
@[simp] theorem pollOnce_bias (s : State) :
    (pollOnce s).bias = s.bias := by simp [pollOnce]
@[simp] theorem pollOnce_acc (s : State) :
    (pollOnce s).acc = s.acc := by simp [pollOnce]
@[simp] theorem pollOnce_biasLen (s : State) :
    (pollOnce s).biasLen = s.biasLen := by simp [pollOnce]
@[simp] theorem pollOnce_peakCount (s : State) :
    (pollOnce s).peakCount = s.peakCount := by simp [pollOnce]
@[simp] theorem pollOnce_nMax (s : State) :
    (pollOnce s).nMax = s.nMax := by simp [pollOnce]
@[simp] theorem pollOnce_mem (s : State) :
    (pollOnce s).mem = s.mem := by simp [pollOnce]
@[simp] theorem pollOnce_memEpoch (s : State) :
    (pollOnce s).memEpoch = s.memEpoch := by simp [pollOnce]
@[simp] theorem pollOnce_scrDraw (s : State) :
    (pollOnce s).scrDraw = s.scrDraw := by simp [pollOnce]
@[simp] theorem pollOnce_latched (s : State) :
    (pollOnce s).latched = s.latched := by simp [pollOnce]
@[simp] theorem pollOnce_seq (s : State) :
    (pollOnce s).seq = { s.seq with polls := s.seq.polls + 1, phase := if sampleReady s.latched s.adcAnswer then .readB2 else .poll } := by simp [pollOnce]
@[simp] theorem pollOnce_inReset (s : State) :
    (pollOnce s).inReset = s.inReset := by simp [pollOnce]
@[simp] theorem pollOnce_env (s : State) :
    (pollOnce s).env = s.env := by simp [pollOnce]
@[simp] theorem pollOnce_adc (s : State) :
    (pollOnce s).adc = s.adc.tail := by simp [pollOnce]
@[simp] theorem pollOnce_history (s : State) :
    (pollOnce s).history = .busRead s.latched.drdyReg s.adcAnswer :: s.history := by simp [pollOnce]
@[simp] theorem pollOnce_draws (s : State) :
    (pollOnce s).draws = if s.adc = [] then s.draws + 1 else s.draws := by simp [pollOnce]

/-! ### `readB2Step` -/

@[simp] theorem readB2Step_par (s : State) :
    (readB2Step s).par = s.par := by simp [readB2Step]
@[simp] theorem readB2Step_doneIe (s : State) :
    (readB2Step s).doneIe = s.doneIe := by simp [readB2Step]
@[simp] theorem readB2Step_status (s : State) :
    (readB2Step s).status = s.status := by simp [readB2Step]
@[simp] theorem readB2Step_errIndex (s : State) :
    (readB2Step s).errIndex = s.errIndex := by simp [readB2Step]
@[simp] theorem readB2Step_sampleRaw (s : State) :
    (readB2Step s).sampleRaw = s.sampleRaw := by simp [readB2Step]
@[simp] theorem readB2Step_sampleVal (s : State) :
    (readB2Step s).sampleVal = s.sampleVal := by simp [readB2Step]
@[simp] theorem readB2Step_bias (s : State) :
    (readB2Step s).bias = s.bias := by simp [readB2Step]
@[simp] theorem readB2Step_acc (s : State) :
    (readB2Step s).acc = s.acc := by simp [readB2Step]
@[simp] theorem readB2Step_biasLen (s : State) :
    (readB2Step s).biasLen = s.biasLen := by simp [readB2Step]
@[simp] theorem readB2Step_peakCount (s : State) :
    (readB2Step s).peakCount = s.peakCount := by simp [readB2Step]
@[simp] theorem readB2Step_nMax (s : State) :
    (readB2Step s).nMax = s.nMax := by simp [readB2Step]
@[simp] theorem readB2Step_mem (s : State) :
    (readB2Step s).mem = s.mem := by simp [readB2Step]
@[simp] theorem readB2Step_memEpoch (s : State) :
    (readB2Step s).memEpoch = s.memEpoch := by simp [readB2Step]
@[simp] theorem readB2Step_scrDraw (s : State) :
    (readB2Step s).scrDraw = s.scrDraw := by simp [readB2Step]
@[simp] theorem readB2Step_latched (s : State) :
    (readB2Step s).latched = s.latched := by simp [readB2Step]
@[simp] theorem readB2Step_seq (s : State) :
    (readB2Step s).seq = { s.seq with b2 := s.adcAnswer, phase := .readB1 } := by simp [readB2Step]
@[simp] theorem readB2Step_inReset (s : State) :
    (readB2Step s).inReset = s.inReset := by simp [readB2Step]
@[simp] theorem readB2Step_env (s : State) :
    (readB2Step s).env = s.env := by simp [readB2Step]
@[simp] theorem readB2Step_adc (s : State) :
    (readB2Step s).adc = s.adc.tail := by simp [readB2Step]
@[simp] theorem readB2Step_history (s : State) :
    (readB2Step s).history = .busRead s.latched.b2Reg s.adcAnswer :: s.history := by simp [readB2Step]
@[simp] theorem readB2Step_draws (s : State) :
    (readB2Step s).draws = if s.adc = [] then s.draws + 1 else s.draws := by simp [readB2Step]

/-! ### `readB1Step` -/

@[simp] theorem readB1Step_par (s : State) :
    (readB1Step s).par = s.par := by simp [readB1Step]
@[simp] theorem readB1Step_doneIe (s : State) :
    (readB1Step s).doneIe = s.doneIe := by simp [readB1Step]
@[simp] theorem readB1Step_status (s : State) :
    (readB1Step s).status = s.status := by simp [readB1Step]
@[simp] theorem readB1Step_errIndex (s : State) :
    (readB1Step s).errIndex = s.errIndex := by simp [readB1Step]
@[simp] theorem readB1Step_sampleRaw (s : State) :
    (readB1Step s).sampleRaw = s.sampleRaw := by simp [readB1Step]
@[simp] theorem readB1Step_sampleVal (s : State) :
    (readB1Step s).sampleVal = s.sampleVal := by simp [readB1Step]
@[simp] theorem readB1Step_bias (s : State) :
    (readB1Step s).bias = s.bias := by simp [readB1Step]
@[simp] theorem readB1Step_acc (s : State) :
    (readB1Step s).acc = s.acc := by simp [readB1Step]
@[simp] theorem readB1Step_biasLen (s : State) :
    (readB1Step s).biasLen = s.biasLen := by simp [readB1Step]
@[simp] theorem readB1Step_peakCount (s : State) :
    (readB1Step s).peakCount = s.peakCount := by simp [readB1Step]
@[simp] theorem readB1Step_nMax (s : State) :
    (readB1Step s).nMax = s.nMax := by simp [readB1Step]
@[simp] theorem readB1Step_mem (s : State) :
    (readB1Step s).mem = s.mem := by simp [readB1Step]
@[simp] theorem readB1Step_memEpoch (s : State) :
    (readB1Step s).memEpoch = s.memEpoch := by simp [readB1Step]
@[simp] theorem readB1Step_scrDraw (s : State) :
    (readB1Step s).scrDraw = s.scrDraw := by simp [readB1Step]
@[simp] theorem readB1Step_latched (s : State) :
    (readB1Step s).latched = s.latched := by simp [readB1Step]
@[simp] theorem readB1Step_seq (s : State) :
    (readB1Step s).seq = { s.seq with b1 := s.adcAnswer, phase := .readB0 } := by simp [readB1Step]
@[simp] theorem readB1Step_inReset (s : State) :
    (readB1Step s).inReset = s.inReset := by simp [readB1Step]
@[simp] theorem readB1Step_env (s : State) :
    (readB1Step s).env = s.env := by simp [readB1Step]
@[simp] theorem readB1Step_adc (s : State) :
    (readB1Step s).adc = s.adc.tail := by simp [readB1Step]
@[simp] theorem readB1Step_history (s : State) :
    (readB1Step s).history = .busRead s.latched.b1Reg s.adcAnswer :: s.history := by simp [readB1Step]
@[simp] theorem readB1Step_draws (s : State) :
    (readB1Step s).draws = if s.adc = [] then s.draws + 1 else s.draws := by simp [readB1Step]

/-! ### `readB0Step` -/

@[simp] theorem readB0Step_par (s : State) :
    (readB0Step s).par = s.par := by simp [readB0Step]
@[simp] theorem readB0Step_doneIe (s : State) :
    (readB0Step s).doneIe = s.doneIe := by simp [readB0Step]
@[simp] theorem readB0Step_status (s : State) :
    (readB0Step s).status = s.status := by simp [readB0Step]
@[simp] theorem readB0Step_errIndex (s : State) :
    (readB0Step s).errIndex = s.errIndex := by simp [readB0Step]
@[simp] theorem readB0Step_sampleRaw (s : State) :
    (readB0Step s).sampleRaw = assembleRaw s.seq.b2 s.seq.b1 s.adcAnswer := by simp [readB0Step]
@[simp] theorem readB0Step_sampleVal (s : State) :
    (readB0Step s).sampleVal = extendSample (assembleRaw s.seq.b2 s.seq.b1 s.adcAnswer) := by simp [readB0Step]
@[simp] theorem readB0Step_bias (s : State) :
    (readB0Step s).bias = s.bias := by simp [readB0Step]
@[simp] theorem readB0Step_acc (s : State) :
    (readB0Step s).acc = s.acc := by simp [readB0Step]
@[simp] theorem readB0Step_biasLen (s : State) :
    (readB0Step s).biasLen = s.biasLen := by simp [readB0Step]
@[simp] theorem readB0Step_peakCount (s : State) :
    (readB0Step s).peakCount = s.peakCount := by simp [readB0Step]
@[simp] theorem readB0Step_nMax (s : State) :
    (readB0Step s).nMax = s.nMax := by simp [readB0Step]
@[simp] theorem readB0Step_mem (s : State) :
    (readB0Step s).mem = s.mem := by simp [readB0Step]
@[simp] theorem readB0Step_memEpoch (s : State) :
    (readB0Step s).memEpoch = s.memEpoch := by simp [readB0Step]
@[simp] theorem readB0Step_scrDraw (s : State) :
    (readB0Step s).scrDraw = s.scrDraw := by simp [readB0Step]
@[simp] theorem readB0Step_latched (s : State) :
    (readB0Step s).latched = s.latched := by simp [readB0Step]
@[simp] theorem readB0Step_seq (s : State) :
    (readB0Step s).seq = s.seq := by simp [readB0Step]
@[simp] theorem readB0Step_inReset (s : State) :
    (readB0Step s).inReset = s.inReset := by simp [readB0Step]
@[simp] theorem readB0Step_env (s : State) :
    (readB0Step s).env = s.env := by simp [readB0Step]
@[simp] theorem readB0Step_adc (s : State) :
    (readB0Step s).adc = s.adc.tail := by simp [readB0Step]
@[simp] theorem readB0Step_history (s : State) :
    (readB0Step s).history = .busRead s.latched.b0Reg s.adcAnswer :: s.history := by simp [readB0Step]
@[simp] theorem readB0Step_draws (s : State) :
    (readB0Step s).draws = if s.adc = [] then s.draws + 1 else s.draws := by simp [readB0Step]

/-! ### `storeCentered` -/

@[simp] theorem storeCentered_par (s : State) :
    (storeCentered s).par = s.par := by simp [storeCentered]
@[simp] theorem storeCentered_doneIe (s : State) :
    (storeCentered s).doneIe = s.doneIe := by simp [storeCentered]
@[simp] theorem storeCentered_status (s : State) :
    (storeCentered s).status = s.status := by simp [storeCentered]
@[simp] theorem storeCentered_errIndex (s : State) :
    (storeCentered s).errIndex = s.errIndex := by simp [storeCentered]
@[simp] theorem storeCentered_sampleRaw (s : State) :
    (storeCentered s).sampleRaw = s.sampleRaw := by simp [storeCentered]
@[simp] theorem storeCentered_sampleVal (s : State) :
    (storeCentered s).sampleVal = s.sampleVal := by simp [storeCentered]
@[simp] theorem storeCentered_bias (s : State) :
    (storeCentered s).bias = s.bias := by simp [storeCentered]
@[simp] theorem storeCentered_acc (s : State) :
    (storeCentered s).acc = s.acc := by simp [storeCentered]
@[simp] theorem storeCentered_biasLen (s : State) :
    (storeCentered s).biasLen = s.biasLen := by simp [storeCentered]
@[simp] theorem storeCentered_peakCount (s : State) :
    (storeCentered s).peakCount = s.peakCount := by simp [storeCentered]
@[simp] theorem storeCentered_nMax (s : State) :
    (storeCentered s).nMax = s.nMax := by simp [storeCentered]
@[simp] theorem storeCentered_mem (s : State) :
    (storeCentered s).mem = Memory.writeBuf s.mem s.seq.i ⟨centerSample s.sampleVal.toInt s.acc.toInt s.latched.w.toNat, F64.posZero⟩ := by simp [storeCentered]
@[simp] theorem storeCentered_memEpoch (s : State) :
    (storeCentered s).memEpoch = s.memEpoch := by simp [storeCentered]
@[simp] theorem storeCentered_scrDraw (s : State) :
    (storeCentered s).scrDraw = s.scrDraw := by simp [storeCentered]
@[simp] theorem storeCentered_latched (s : State) :
    (storeCentered s).latched = s.latched := by simp [storeCentered]
@[simp] theorem storeCentered_seq (s : State) :
    (storeCentered s).seq = s.seq := by simp [storeCentered]
@[simp] theorem storeCentered_inReset (s : State) :
    (storeCentered s).inReset = s.inReset := by simp [storeCentered]
@[simp] theorem storeCentered_env (s : State) :
    (storeCentered s).env = s.env := by simp [storeCentered]
@[simp] theorem storeCentered_adc (s : State) :
    (storeCentered s).adc = s.adc := by simp [storeCentered]
@[simp] theorem storeCentered_history (s : State) :
    (storeCentered s).history = s.history := by simp [storeCentered]
@[simp] theorem storeCentered_draws (s : State) :
    (storeCentered s).draws = s.draws := by simp [storeCentered]

/-! ### `acquireClear` -/

@[simp] theorem acquireClear_par (s : State) :
    (acquireClear s).par = s.par := by simp [acquireClear]
@[simp] theorem acquireClear_doneIe (s : State) :
    (acquireClear s).doneIe = s.doneIe := by simp [acquireClear]
@[simp] theorem acquireClear_status (s : State) :
    (acquireClear s).status = s.status := by simp [acquireClear]
@[simp] theorem acquireClear_errIndex (s : State) :
    (acquireClear s).errIndex = s.errIndex := by simp [acquireClear]
@[simp] theorem acquireClear_sampleRaw (s : State) :
    (acquireClear s).sampleRaw = s.sampleRaw := by simp [acquireClear]
@[simp] theorem acquireClear_sampleVal (s : State) :
    (acquireClear s).sampleVal = s.sampleVal := by simp [acquireClear]
@[simp] theorem acquireClear_bias (s : State) :
    (acquireClear s).bias = F64.posZero := by simp [acquireClear]
@[simp] theorem acquireClear_acc (s : State) :
    (acquireClear s).acc = 0 := by simp [acquireClear]
@[simp] theorem acquireClear_biasLen (s : State) :
    (acquireClear s).biasLen = s.latched.w := by simp [acquireClear]
@[simp] theorem acquireClear_peakCount (s : State) :
    (acquireClear s).peakCount = s.peakCount := by simp [acquireClear]
@[simp] theorem acquireClear_nMax (s : State) :
    (acquireClear s).nMax = s.nMax := by simp [acquireClear]
@[simp] theorem acquireClear_mem (s : State) :
    (acquireClear s).mem = (s.setBufs 0 (List.replicate s.latched.n.toNat ⟨F64.posZero, F64.posZero⟩)).mem := by simp [acquireClear]
@[simp] theorem acquireClear_memEpoch (s : State) :
    (acquireClear s).memEpoch = s.memEpoch := by simp [acquireClear]
@[simp] theorem acquireClear_scrDraw (s : State) :
    (acquireClear s).scrDraw = s.scrDraw := by simp [acquireClear]
@[simp] theorem acquireClear_latched (s : State) :
    (acquireClear s).latched = s.latched := by simp [acquireClear]
@[simp] theorem acquireClear_seq (s : State) :
    (acquireClear s).seq = s.seq := by simp [acquireClear]
@[simp] theorem acquireClear_inReset (s : State) :
    (acquireClear s).inReset = s.inReset := by simp [acquireClear]
@[simp] theorem acquireClear_env (s : State) :
    (acquireClear s).env = s.env := by simp [acquireClear]
@[simp] theorem acquireClear_adc (s : State) :
    (acquireClear s).adc = s.adc := by simp [acquireClear]
@[simp] theorem acquireClear_history (s : State) :
    (acquireClear s).history = s.history := by simp [acquireClear]
@[simp] theorem acquireClear_draws (s : State) :
    (acquireClear s).draws = s.draws := by simp [acquireClear]

/-! ### `transformBuf` -/

@[simp] theorem transformBuf_par (n : Nat) (s : State) :
    (transformBuf n s).par = s.par := by simp [transformBuf]
@[simp] theorem transformBuf_doneIe (n : Nat) (s : State) :
    (transformBuf n s).doneIe = s.doneIe := by simp [transformBuf]
@[simp] theorem transformBuf_status (n : Nat) (s : State) :
    (transformBuf n s).status = s.status := by simp [transformBuf]
@[simp] theorem transformBuf_errIndex (n : Nat) (s : State) :
    (transformBuf n s).errIndex = s.errIndex := by simp [transformBuf]
@[simp] theorem transformBuf_sampleRaw (n : Nat) (s : State) :
    (transformBuf n s).sampleRaw = s.sampleRaw := by simp [transformBuf]
@[simp] theorem transformBuf_sampleVal (n : Nat) (s : State) :
    (transformBuf n s).sampleVal = s.sampleVal := by simp [transformBuf]
@[simp] theorem transformBuf_bias (n : Nat) (s : State) :
    (transformBuf n s).bias = s.bias := by simp [transformBuf]
@[simp] theorem transformBuf_acc (n : Nat) (s : State) :
    (transformBuf n s).acc = s.acc := by simp [transformBuf]
@[simp] theorem transformBuf_biasLen (n : Nat) (s : State) :
    (transformBuf n s).biasLen = s.biasLen := by simp [transformBuf]
@[simp] theorem transformBuf_peakCount (n : Nat) (s : State) :
    (transformBuf n s).peakCount = s.peakCount := by simp [transformBuf]
@[simp] theorem transformBuf_nMax (n : Nat) (s : State) :
    (transformBuf n s).nMax = s.nMax := by simp [transformBuf]
@[simp] theorem transformBuf_mem (n : Nat) (s : State) :
    (transformBuf n s).mem = (s.setBufs 0 (fftOfBuf s n)).mem := by simp [transformBuf]
@[simp] theorem transformBuf_memEpoch (n : Nat) (s : State) :
    (transformBuf n s).memEpoch = s.memEpoch := by simp [transformBuf]
@[simp] theorem transformBuf_scrDraw (n : Nat) (s : State) :
    (transformBuf n s).scrDraw = s.draws + fftDraws n := by simp [transformBuf]
@[simp] theorem transformBuf_latched (n : Nat) (s : State) :
    (transformBuf n s).latched = s.latched := by simp [transformBuf]
@[simp] theorem transformBuf_seq (n : Nat) (s : State) :
    (transformBuf n s).seq = s.seq := by simp [transformBuf]
@[simp] theorem transformBuf_inReset (n : Nat) (s : State) :
    (transformBuf n s).inReset = s.inReset := by simp [transformBuf]
@[simp] theorem transformBuf_env (n : Nat) (s : State) :
    (transformBuf n s).env = s.env := by simp [transformBuf]
@[simp] theorem transformBuf_adc (n : Nat) (s : State) :
    (transformBuf n s).adc = s.adc := by simp [transformBuf]
@[simp] theorem transformBuf_history (n : Nat) (s : State) :
    (transformBuf n s).history = s.history := by simp [transformBuf]
@[simp] theorem transformBuf_draws (n : Nat) (s : State) :
    (transformBuf n s).draws = s.draws + fftDraws n + 1 := by simp [transformBuf]

/-! ### `scanWindow` -/

@[simp] theorem scanWindow_par (s : State) :
    (scanWindow s).par = s.par := by simp [scanWindow]
@[simp] theorem scanWindow_doneIe (s : State) :
    (scanWindow s).doneIe = s.doneIe := by simp [scanWindow]
@[simp] theorem scanWindow_status (s : State) :
    (scanWindow s).status = s.status := by simp [scanWindow]
@[simp] theorem scanWindow_errIndex (s : State) :
    (scanWindow s).errIndex = s.errIndex := by simp [scanWindow]
@[simp] theorem scanWindow_sampleRaw (s : State) :
    (scanWindow s).sampleRaw = s.sampleRaw := by simp [scanWindow]
@[simp] theorem scanWindow_sampleVal (s : State) :
    (scanWindow s).sampleVal = s.sampleVal := by simp [scanWindow]
@[simp] theorem scanWindow_bias (s : State) :
    (scanWindow s).bias = s.bias := by simp [scanWindow]
@[simp] theorem scanWindow_acc (s : State) :
    (scanWindow s).acc = s.acc := by simp [scanWindow]
@[simp] theorem scanWindow_biasLen (s : State) :
    (scanWindow s).biasLen = s.biasLen := by simp [scanWindow]
@[simp] theorem scanWindow_peakCount (s : State) :
    (scanWindow s).peakCount = BitVec.ofNat 32 (scanEntries s).length := by simp [scanWindow]
@[simp] theorem scanWindow_nMax (s : State) :
    (scanWindow s).nMax = s.nMax := by simp [scanWindow]
@[simp] theorem scanWindow_mem (s : State) :
    (scanWindow s).mem = (s.setPeaks 0 (scanEntries s)).mem := by simp [scanWindow]
@[simp] theorem scanWindow_memEpoch (s : State) :
    (scanWindow s).memEpoch = s.memEpoch := by simp [scanWindow]
@[simp] theorem scanWindow_scrDraw (s : State) :
    (scanWindow s).scrDraw = s.scrDraw := by simp [scanWindow]
@[simp] theorem scanWindow_latched (s : State) :
    (scanWindow s).latched = s.latched := by simp [scanWindow]
@[simp] theorem scanWindow_seq (s : State) :
    (scanWindow s).seq = s.seq := by simp [scanWindow]
@[simp] theorem scanWindow_inReset (s : State) :
    (scanWindow s).inReset = s.inReset := by simp [scanWindow]
@[simp] theorem scanWindow_env (s : State) :
    (scanWindow s).env = s.env := by simp [scanWindow]
@[simp] theorem scanWindow_adc (s : State) :
    (scanWindow s).adc = s.adc := by simp [scanWindow]
@[simp] theorem scanWindow_history (s : State) :
    (scanWindow s).history = s.history := by simp [scanWindow]
@[simp] theorem scanWindow_draws (s : State) :
    (scanWindow s).draws = s.draws + s.latched.n.toNat := by simp [scanWindow]

/-! ### `useSample` -/

@[simp] theorem useSample_par (s : State) : (useSample s).par = s.par := by
  unfold useSample; split <;> simp
@[simp] theorem useSample_doneIe (s : State) : (useSample s).doneIe = s.doneIe := by
  unfold useSample; split <;> simp
@[simp] theorem useSample_status (s : State) : (useSample s).status = s.status := by
  unfold useSample; split <;> simp
@[simp] theorem useSample_errIndex (s : State) : (useSample s).errIndex = s.errIndex := by
  unfold useSample; split <;> simp
@[simp] theorem useSample_sampleRaw (s : State) : (useSample s).sampleRaw = s.sampleRaw := by
  unfold useSample; split <;> simp
@[simp] theorem useSample_sampleVal (s : State) : (useSample s).sampleVal = s.sampleVal := by
  unfold useSample; split <;> simp
@[simp] theorem useSample_biasLen (s : State) : (useSample s).biasLen = s.biasLen := by
  unfold useSample; split <;> simp
@[simp] theorem useSample_peakCount (s : State) : (useSample s).peakCount = s.peakCount := by
  unfold useSample; split <;> simp
@[simp] theorem useSample_nMax (s : State) : (useSample s).nMax = s.nMax := by
  unfold useSample; split <;> simp
@[simp] theorem useSample_memEpoch (s : State) : (useSample s).memEpoch = s.memEpoch := by
  unfold useSample; split <;> simp
@[simp] theorem useSample_scrDraw (s : State) : (useSample s).scrDraw = s.scrDraw := by
  unfold useSample; split <;> simp
@[simp] theorem useSample_latched (s : State) : (useSample s).latched = s.latched := by
  unfold useSample; split <;> simp
@[simp] theorem useSample_seq (s : State) : (useSample s).seq = s.seq := by
  unfold useSample; split <;> simp
@[simp] theorem useSample_inReset (s : State) : (useSample s).inReset = s.inReset := by
  unfold useSample; split <;> simp
@[simp] theorem useSample_env (s : State) : (useSample s).env = s.env := by
  unfold useSample; split <;> simp
@[simp] theorem useSample_adc (s : State) : (useSample s).adc = s.adc := by
  unfold useSample; split <;> simp
@[simp] theorem useSample_history (s : State) : (useSample s).history = s.history := by
  unfold useSample; split <;> simp
@[simp] theorem useSample_draws (s : State) : (useSample s).draws = s.draws := by
  unfold useSample; split <;> simp

/-! ### `applyReset` -/

@[simp] theorem applyReset_par (s : State) : (applyReset s).par = State.reset.par := rfl
@[simp] theorem applyReset_doneIe (s : State) : (applyReset s).doneIe = State.reset.doneIe := rfl
@[simp] theorem applyReset_status (s : State) : (applyReset s).status = State.reset.status := rfl
@[simp] theorem applyReset_errIndex (s : State) : (applyReset s).errIndex = State.reset.errIndex := rfl
@[simp] theorem applyReset_sampleRaw (s : State) : (applyReset s).sampleRaw = State.reset.sampleRaw := rfl
@[simp] theorem applyReset_sampleVal (s : State) : (applyReset s).sampleVal = State.reset.sampleVal := rfl
@[simp] theorem applyReset_bias (s : State) : (applyReset s).bias = State.reset.bias := rfl
@[simp] theorem applyReset_acc (s : State) : (applyReset s).acc = State.reset.acc := rfl
@[simp] theorem applyReset_biasLen (s : State) : (applyReset s).biasLen = State.reset.biasLen := rfl
@[simp] theorem applyReset_peakCount (s : State) : (applyReset s).peakCount = State.reset.peakCount := rfl
@[simp] theorem applyReset_nMax (s : State) : (applyReset s).nMax = s.nMax := rfl
@[simp] theorem applyReset_mem (s : State) : (applyReset s).mem = State.reset.mem := rfl
@[simp] theorem applyReset_memEpoch (s : State) : (applyReset s).memEpoch = s.draws + 1 := rfl
@[simp] theorem applyReset_scrDraw (s : State) : (applyReset s).scrDraw = s.draws + 1 := rfl
@[simp] theorem applyReset_latched (s : State) : (applyReset s).latched = State.reset.latched := rfl
@[simp] theorem applyReset_seq (s : State) : (applyReset s).seq = State.reset.seq := rfl
@[simp] theorem applyReset_inReset (s : State) : (applyReset s).inReset = true := rfl
@[simp] theorem applyReset_env (s : State) : (applyReset s).env = s.env := rfl
@[simp] theorem applyReset_adc (s : State) : (applyReset s).adc = s.adc := rfl
@[simp] theorem applyReset_history (s : State) : (applyReset s).history = s.history := rfl
@[simp] theorem applyReset_draws (s : State) : (applyReset s).draws = s.draws + 1 := rfl

end Sys2Proof.Machine
end

