-- ==== Sys2Proof/Laws/Memory.lean ====
section
/-! SUPPORT. The laws of the byte memory under BUF and PEAK: a read after a write, what a write leaves alone, and that
every operation keeps the canonical form. -/

namespace Sys2Proof.Machine

/-! ### One byte -/

theorem Memory.find_write_same (m : Memory) (a : Nat) (v : Byte) :
    Memory.find (Memory.write m a v) a = some v := by
  induction m with
  | nil => simp [Memory.write, Memory.find]
  | cons c t ih =>
    unfold Memory.write
    split
    · simp [Memory.find]
    · split
      · simp [Memory.find]
      · rename_i h1 h2
        simp only [Memory.find]
        rw [if_neg (fun h => h2 h.symm)]
        exact ih

theorem Memory.find_write_other (m : Memory) {a b : Nat} (v : Byte) (h : a ≠ b) :
    Memory.find (Memory.write m a v) b = Memory.find m b := by
  induction m with
  | nil => simp [Memory.write, Memory.find, h]
  | cons c t ih =>
    unfold Memory.write
    split
    · simp [Memory.find, h]
    · split
      · rename_i h1 h2
        have : c.1 ≠ b := by omega
        simp [Memory.find, h, this]
      · simp only [Memory.find, ih]

/-- A read after a write, in one equation. -/
theorem Memory.find_write (m : Memory) (a b : Nat) (v : Byte) :
    Memory.find (Memory.write m a v) b = if a = b then some v else Memory.find m b := by
  split
  · rename_i h; subst h; exact Memory.find_write_same m a v
  · rename_i h; exact Memory.find_write_other m v h

/-- The addresses of a memory after a write: the old ones and the one written. -/
theorem Memory.mem_write {m : Memory} {a : Nat} {v : Byte} {c : Host.Cell} (h : c ∈ Memory.write m a v) :
    c = (a, v) ∨ c ∈ m := by
  induction m with
  | nil => simpa [Memory.write] using h
  | cons d t ih =>
    unfold Memory.write at h
    split at h
    · simpa using h
    · split at h
      · simp only [List.mem_cons] at h ⊢
        tauto
      · simp only [List.mem_cons] at h ⊢
        rcases h with h | h
        · exact .inr (.inl h)
        · exact (ih h).imp_right .inr

/-- A write keeps the canonical form. -/
theorem Memory.write_wf {m : Memory} (a : Nat) (v : Byte) (h : Memory.wf m) : Memory.wf (Memory.write m a v) := by
  induction m with
  | nil => simp [Memory.write]
  | cons c t ih =>
    have ht := (List.pairwise_cons.mp h)
    unfold Memory.write
    split
    · rename_i hlt
      refine List.pairwise_cons.mpr ⟨fun d hd => ?_, h⟩
      rcases List.mem_cons.mp hd with rfl | hd
      · exact hlt
      · exact Nat.lt_trans hlt (ht.1 d hd)
    · split
      · rename_i heq
        exact List.pairwise_cons.mpr ⟨fun d hd => by simpa [heq] using ht.1 d hd, ht.2⟩
      · rename_i h1 h2
        refine List.pairwise_cons.mpr ⟨fun d hd => ?_, ih ht.2⟩
        rcases Memory.mem_write hd with rfl | hd
        · simp only; omega
        · exact ht.1 d hd

/-! ### Lists of bytes, words and binary64 values -/

theorem Memory.find_writeList (bs : List Byte) (m : Memory) (a b : Nat) :
    Memory.find (Memory.writeList m a bs) b =
      if a ≤ b ∧ b < a + bs.length then bs[b - a]? else Memory.find m b := by
  induction bs generalizing m a with
  | nil =>
    simp [Memory.writeList]
  | cons x xs ih =>
    simp only [Memory.writeList, ih, List.length_cons, Memory.find_write]
    by_cases h1 : a + 1 ≤ b ∧ b < a + 1 + xs.length
    · have h2 : a ≤ b ∧ b < a + (xs.length + 1) := by omega
      rw [if_pos h1, if_pos h2]
      obtain ⟨d, rfl⟩ : ∃ d, b = a + 1 + d := ⟨b - (a + 1), by omega⟩
      have e1 : a + 1 + d - (a + 1) = d := by omega
      have e2 : a + 1 + d - a = d + 1 := by omega
      simp [e1, e2]
    · rw [if_neg h1]
      by_cases h3 : a = b
      · subst h3; simp
      · have h2 : ¬ (a ≤ b ∧ b < a + (xs.length + 1)) := by omega
        rw [if_neg h2, if_neg h3]

theorem Memory.mem_writeList {bs : List Byte} {m : Memory} {a : Nat} {c : Host.Cell}
    (h : c ∈ Memory.writeList m a bs) : (a ≤ c.1 ∧ c.1 < a + bs.length) ∨ c ∈ m := by
  induction bs generalizing m a with
  | nil => exact .inr h
  | cons x xs ih =>
    simp only [Memory.writeList] at h
    rcases ih h with h | h
    · exact .inl ⟨by omega, by simp only [List.length_cons]; omega⟩
    · rcases Memory.mem_write h with rfl | h
      · exact .inl (by simp)
      · exact .inr h

theorem Memory.writeList_wf (bs : List Byte) {m : Memory} (a : Nat) (h : Memory.wf m) :
    Memory.wf (Memory.writeList m a bs) := by
  induction bs generalizing m a with
  | nil => exact h
  | cons x xs ih => exact ih (a + 1) (Memory.write_wf a x h)

/-- Byte `b` of a stored word (20_memory R64). -/
theorem Memory.find_writeWord (m : Memory) (a b : Nat) (v : Word) :
    Memory.find (Memory.writeWord m a v) b =
      if a ≤ b ∧ b < a + 4 then some (v.extractLsb' (8 * (b - a)) 8) else Memory.find m b := by
  rw [Memory.writeWord, Memory.find_writeList]
  have hl : (wordBytes v).length = 4 := rfl
  rw [hl]
  split
  · rename_i h
    obtain ⟨d, rfl⟩ : ∃ d, b = a + d := ⟨b - a, by omega⟩
    have hd : d = 0 ∨ d = 1 ∨ d = 2 ∨ d = 3 := by omega
    rcases hd with rfl | rfl | rfl | rfl <;> simp [wordBytes]
  · rfl

theorem Memory.mem_writeWord {m : Memory} {a : Nat} {v : Word} {c : Host.Cell}
    (h : c ∈ Memory.writeWord m a v) : (a ≤ c.1 ∧ c.1 < a + 4) ∨ c ∈ m := by
  rw [Memory.writeWord] at h
  exact Memory.mem_writeList h

theorem Memory.writeWord_wf {m : Memory} (a : Nat) (v : Word) (h : Memory.wf m) :
    Memory.wf (Memory.writeWord m a v) := by
  rw [Memory.writeWord]
  exact Memory.writeList_wf _ a h

/-- Byte `b` of a stored binary64 value (20_memory R64). -/
theorem Memory.find_writeF64 (m : Memory) (a b : Nat) (v : F64) :
    Memory.find (Memory.writeF64 m a v) b =
      if a ≤ b ∧ b < a + 8 then some (v.extractLsb' (8 * (b - a)) 8) else Memory.find m b := by
  rw [Memory.writeF64, Memory.find_writeWord, Memory.find_writeWord]
  by_cases h1 : a + 4 ≤ b ∧ b < a + 4 + 4
  · have h2 : a ≤ b ∧ b < a + 8 := by omega
    rw [if_pos h1, if_pos h2]
    obtain ⟨d, rfl⟩ : ∃ d, b = a + 4 + d := ⟨b - (a + 4), by omega⟩
    have e1 : a + 4 + d - (a + 4) = d := by omega
    have e2 : a + 4 + d - a = 4 + d := by omega
    have hd : d < 4 := by omega
    rw [e1, e2, hiHalf]
    congr 1
    ext i hi
    simp only [BitVec.getElem_extractLsb', BitVec.getLsbD_extractLsb']
    have h3 : 8 * d + i < 32 := by omega
    simp only [h3, decide_true, Bool.true_and]
    congr 1
    omega
  · rw [if_neg h1]
    by_cases h4 : a ≤ b ∧ b < a + 4
    · have h2 : a ≤ b ∧ b < a + 8 := by omega
      rw [if_pos h4, if_pos h2, loHalf]
      congr 1
      ext i hi
      simp only [BitVec.getElem_extractLsb', BitVec.getLsbD_extractLsb']
      have h3 : 8 * (b - a) + i < 32 := by omega
      simp only [h3, decide_true, Bool.true_and]
      congr 1
      omega
    · have h2 : ¬ (a ≤ b ∧ b < a + 8) := by omega
      rw [if_neg h4, if_neg h2]

theorem Memory.mem_writeF64 {m : Memory} {a : Nat} {v : F64} {c : Host.Cell}
    (h : c ∈ Memory.writeF64 m a v) : (a ≤ c.1 ∧ c.1 < a + 8) ∨ c ∈ m := by
  rw [Memory.writeF64] at h
  rcases Memory.mem_writeWord h with h | h
  · exact .inl (by omega)
  · exact (Memory.mem_writeWord h).imp_left (by omega)

theorem Memory.writeF64_wf {m : Memory} (a : Nat) (v : F64) (h : Memory.wf m) :
    Memory.wf (Memory.writeF64 m a v) := by
  rw [Memory.writeF64]
  exact Memory.writeWord_wf _ _ (Memory.writeWord_wf _ _ h)

/-! ### Entries of BUF and PEAK -/

theorem Memory.find_writeBuf_other (m : Memory) (k a : Nat) (z : Cplx)
    (h : ¬ (bufAddr k ≤ a ∧ a < bufAddr k + 16)) :
    Memory.find (Memory.writeBuf m k z) a = Memory.find m a := by
  rw [Memory.writeBuf, Memory.find_writeF64, if_neg (by omega), Memory.find_writeF64, if_neg (by omega)]

theorem Memory.mem_writeBuf {m : Memory} {k : Nat} {z : Cplx} {c : Host.Cell}
    (h : c ∈ Memory.writeBuf m k z) : (bufAddr k ≤ c.1 ∧ c.1 < bufAddr k + 16) ∨ c ∈ m := by
  rw [Memory.writeBuf] at h
  rcases Memory.mem_writeF64 h with h | h
  · exact .inl (by omega)
  · exact (Memory.mem_writeF64 h).imp_left (by omega)

theorem Memory.writeBuf_wf {m : Memory} (k : Nat) (z : Cplx) (h : Memory.wf m) :
    Memory.wf (Memory.writeBuf m k z) := by
  rw [Memory.writeBuf]
  exact Memory.writeF64_wf _ _ (Memory.writeF64_wf _ _ h)

theorem Memory.find_writePeak_other (m : Memory) (k a : Nat) (e : PeakEntry)
    (h : ¬ (peakAddr k ≤ a ∧ a < peakAddr k + 24)) :
    Memory.find (Memory.writePeak m k e) a = Memory.find m a := by
  rw [Memory.writePeak, Memory.find_writeF64, if_neg (by omega), Memory.find_writeF64, if_neg (by omega),
    Memory.find_writeWord, if_neg (by omega)]

theorem Memory.mem_writePeak {m : Memory} {k : Nat} {e : PeakEntry} {c : Host.Cell}
    (h : c ∈ Memory.writePeak m k e) : (peakAddr k ≤ c.1 ∧ c.1 < peakAddr k + 24) ∨ c ∈ m := by
  rw [Memory.writePeak] at h
  rcases Memory.mem_writeF64 h with h | h
  · exact .inl (by omega)
  · rcases Memory.mem_writeF64 h with h | h
    · exact .inl (by omega)
    · exact (Memory.mem_writeWord h).imp_left (by omega)

theorem Memory.writePeak_wf {m : Memory} (k : Nat) (e : PeakEntry) (h : Memory.wf m) :
    Memory.wf (Memory.writePeak m k e) := by
  rw [Memory.writePeak]
  exact Memory.writeF64_wf _ _ (Memory.writeF64_wf _ _ (Memory.writeWord_wf _ _ h))

/-! ### Reading a state's memory -/

/-- Two states that read alike at a byte's address hold the same byte there. -/
theorem State.byteAt_congr {s t : State} {a : Nat} (he : t.memEpoch = s.memEpoch)
    (hm : Memory.find t.mem a = Memory.find s.mem a) : t.byteAt a = s.byteAt a := by
  simp only [State.byteAt, hm, he]

theorem State.byteAt_of_find {s : State} {a : Nat} {b : Byte} (h : Memory.find s.mem a = some b) :
    s.byteAt a = b := by
  simp only [State.byteAt, h]

theorem State.wordAt_congr {s t : State} {a : Nat}
    (h : ∀ b, a ≤ b → b < a + 4 → t.byteAt b = s.byteAt b) : t.wordAt a = s.wordAt a := by
  simp only [State.wordAt]
  rw [h a (by omega) (by omega), h (a + 1) (by omega) (by omega), h (a + 2) (by omega) (by omega),
    h (a + 3) (by omega) (by omega)]

theorem State.f64At_congr {s t : State} {a : Nat}
    (h : ∀ b, a ≤ b → b < a + 8 → t.byteAt b = s.byteAt b) : t.f64At a = s.f64At a := by
  simp only [State.f64At]
  rw [State.wordAt_congr (fun b h1 h2 => h b (by omega) (by omega)),
    State.wordAt_congr (a := a + 4) (fun b h1 h2 => h b (by omega) (by omega))]

theorem State.buf_congr {s t : State} {k : Nat}
    (h : ∀ b, bufAddr k ≤ b → b < bufAddr k + 16 → t.byteAt b = s.byteAt b) : t.buf k = s.buf k := by
  simp only [State.buf]
  rw [State.f64At_congr (fun b h1 h2 => h b (by omega) (by omega)),
    State.f64At_congr (a := bufAddr k + 8) (fun b h1 h2 => h b (by omega) (by omega))]

theorem State.peak_congr {s t : State} {k : Nat}
    (h : ∀ b, peakAddr k ≤ b → b < peakAddr k + 24 → t.byteAt b = s.byteAt b) : t.peak k = s.peak k := by
  simp only [State.peak]
  rw [State.wordAt_congr (fun b h1 h2 => h b (by omega) (by omega)),
    State.f64At_congr (a := peakAddr k + 8) (fun b h1 h2 => h b (by omega) (by omega)),
    State.f64At_congr (a := peakAddr k + 16) (fun b h1 h2 => h b (by omega) (by omega))]

/-- Four bytes of a word make the word (20_memory R64). -/
theorem word_of_bytes (v : Word) :
    (v.extractLsb' 24 8 ++ v.extractLsb' 16 8 ++ v.extractLsb' 8 8 ++ v.extractLsb' 0 8 : Word) = v := by
  apply BitVec.eq_of_getLsbD_eq
  intro i hi
  simp only [BitVec.getLsbD_append, BitVec.getLsbD_extractLsb']
  have h24 : 24 ≤ i ∨ (16 ≤ i ∧ i < 24) ∨ (8 ≤ i ∧ i < 16) ∨ i < 8 := by omega
  rcases h24 with h | h | h | h
  · have a1 : ¬ i < 8 := by omega
    have a2 : ¬ i - 8 < 8 := by omega
    have a3 : ¬ i - 8 - 8 < 8 := by omega
    have a4 : i - 8 - 8 - 8 < 8 := by omega
    have a5 : 24 + (i - 8 - 8 - 8) = i := by omega
    simp [a1, a2, a3, a4, a5]
  · have a1 : ¬ i < 8 := by omega
    have a2 : ¬ i - 8 < 8 := by omega
    have a3 : i - 8 - 8 < 8 := by omega
    have a5 : 16 + (i - 8 - 8) = i := by omega
    simp [a1, a2, a3, a5]
  · have a1 : ¬ i < 8 := by omega
    have a2 : i - 8 < 8 := by omega
    have a5 : 8 + (i - 8) = i := by omega
    simp [a1, a2, a5]
  · simp [h]

/-- The two halves of a 64-bit quantity make the quantity (20_memory R64). -/
theorem joinHalves_halves (v : BitVec 64) : joinHalves (loHalf v) (hiHalf v) = v := by
  apply BitVec.eq_of_getLsbD_eq
  intro i hi
  simp only [joinHalves, loHalf, hiHalf, BitVec.getLsbD_append, BitVec.getLsbD_extractLsb']
  by_cases h : i < 32
  · simp [h]
  · have a1 : i - 32 < 32 := by omega
    have a2 : 32 + (i - 32) = i := by omega
    simp [h, a1, a2]

/-- A word reads back as it was stored. -/
theorem State.wordAt_of_find {s : State} {a : Nat} {v : Word}
    (h : ∀ d, d < 4 → Memory.find s.mem (a + d) = some (v.extractLsb' (8 * d) 8)) : s.wordAt a = v := by
  simp only [State.wordAt]
  have h0 := h 0 (by omega)
  rw [Nat.add_zero] at h0
  rw [State.byteAt_of_find h0, State.byteAt_of_find (h 1 (by omega)), State.byteAt_of_find (h 2 (by omega)),
    State.byteAt_of_find (h 3 (by omega))]
  exact word_of_bytes v

theorem State.wordAt_writeWord (s : State) (a : Nat) (v : Word) :
    State.wordAt { s with mem := Memory.writeWord s.mem a v } a = v :=
  State.wordAt_of_find fun d hd => by
    simp only [Memory.find_writeWord]
    rw [if_pos (by omega)]
    congr 2
    omega

theorem State.wordAt_writeWord_other (s : State) {a b : Nat} (v : Word) (h : b + 4 ≤ a ∨ a + 4 ≤ b) :
    State.wordAt { s with mem := Memory.writeWord s.mem a v } b = s.wordAt b :=
  State.wordAt_congr fun c h1 h2 => State.byteAt_congr rfl (by
    simp only [Memory.find_writeWord]
    rw [if_neg (by omega)])

/-- A binary64 value reads back as it was stored. -/
theorem State.f64At_of_find {s : State} {a : Nat} {v : F64}
    (h : ∀ d, d < 8 → Memory.find s.mem (a + d) = some (v.extractLsb' (8 * d) 8)) : s.f64At a = v := by
  have hlo : s.wordAt a = loHalf v := State.wordAt_of_find fun d hd => by
    rw [h d (by omega)]
    congr 1
    ext i hi
    simp only [loHalf, BitVec.getElem_extractLsb', BitVec.getLsbD_extractLsb']
    have h3 : 8 * d + i < 32 := by omega
    simp [h3]
  have hhi : s.wordAt (a + 4) = hiHalf v := State.wordAt_of_find fun d hd => by
    have e : a + 4 + d = a + (4 + d) := by omega
    rw [e, h (4 + d) (by omega)]
    congr 1
    ext i hi
    simp only [hiHalf, BitVec.getElem_extractLsb', BitVec.getLsbD_extractLsb']
    have h3 : 8 * d + i < 32 := by omega
    have h4 : 8 * (4 + d) + i = 32 + (8 * d + i) := by omega
    simp [h3, h4]
  rw [State.f64At, hlo, hhi, joinHalves_halves]

/-! ### Entries read back -/

theorem State.buf_setBuf_same (s : State) (k : Nat) (z : Cplx) : (s.setBuf k z).buf k = z := by
  have hre : (s.setBuf k z).f64At (bufAddr k) = z.re := State.f64At_of_find fun d hd => by
    rw [State.setBuf_mem, Memory.writeBuf, Memory.find_writeF64, if_neg (by omega), Memory.find_writeF64,
      if_pos (by omega)]
    congr 2; omega
  have him : (s.setBuf k z).f64At (bufAddr k + 8) = z.im := State.f64At_of_find fun d hd => by
    rw [State.setBuf_mem, Memory.writeBuf, Memory.find_writeF64, if_pos (by omega)]
    congr 2; omega
  simp only [State.buf, hre, him]

theorem State.byteAt_setBuf_other (s : State) {k a : Nat} (z : Cplx)
    (h : ¬ (bufAddr k ≤ a ∧ a < bufAddr k + 16)) : (s.setBuf k z).byteAt a = s.byteAt a :=
  State.byteAt_congr rfl (by rw [State.setBuf_mem, Memory.find_writeBuf_other _ _ _ _ h])

theorem State.buf_setBuf_other (s : State) {j k : Nat} (z : Cplx) (h : j ≠ k) :
    (s.setBuf k z).buf j = s.buf j :=
  State.buf_congr fun b h1 h2 => State.byteAt_setBuf_other s z (by simp only [bufAddr] at *; omega)

theorem State.peak_setPeak_same (s : State) (k : Nat) (e : PeakEntry) : (s.setPeak k e).peak k = e := by
  have hb : (s.setPeak k e).wordAt (peakAddr k) = e.bin := State.wordAt_of_find fun d hd => by
    rw [State.setPeak_mem, Memory.writePeak, Memory.find_writeF64, if_neg (by omega), Memory.find_writeF64,
      if_neg (by omega), Memory.find_writeWord, if_pos (by omega)]
    congr 2; omega
  have hf : (s.setPeak k e).f64At (peakAddr k + 8) = e.freq := State.f64At_of_find fun d hd => by
    rw [State.setPeak_mem, Memory.writePeak, Memory.find_writeF64, if_neg (by omega), Memory.find_writeF64,
      if_pos (by omega)]
    congr 2; omega
  have hm : (s.setPeak k e).f64At (peakAddr k + 16) = e.mag := State.f64At_of_find fun d hd => by
    rw [State.setPeak_mem, Memory.writePeak, Memory.find_writeF64, if_pos (by omega)]
    congr 2; omega
  simp only [State.peak, hb, hf, hm]

theorem State.byteAt_setPeak_other (s : State) {k a : Nat} (e : PeakEntry)
    (h : ¬ (peakAddr k ≤ a ∧ a < peakAddr k + 24)) : (s.setPeak k e).byteAt a = s.byteAt a :=
  State.byteAt_congr rfl (by rw [State.setPeak_mem, Memory.find_writePeak_other _ _ _ _ h])

theorem State.peak_setPeak_other (s : State) {j k : Nat} (e : PeakEntry) (h : j ≠ k) :
    (s.setPeak k e).peak j = s.peak j :=
  State.peak_congr fun b h1 h2 => State.byteAt_setPeak_other s e (by simp only [peakAddr] at *; omega)

/-! ### Lists of entries -/

theorem State.byteAt_setBufs_other (zs : List Cplx) (s : State) {k a : Nat}
    (h : ¬ (bufAddr k ≤ a ∧ a < bufAddr (k + zs.length))) : (s.setBufs k zs).byteAt a = s.byteAt a := by
  induction zs generalizing s k with
  | nil => rfl
  | cons z t ih =>
    simp only [List.length_cons, bufAddr] at h ih
    rw [State.setBufs, ih _ (by omega), State.byteAt_setBuf_other _ _ (by simp only [bufAddr]; omega)]

theorem State.buf_setBufs (zs : List Cplx) (s : State) (k j : Nat) :
    (s.setBufs k zs).buf j = if k ≤ j ∧ j < k + zs.length then zs.getD (j - k) default else s.buf j := by
  induction zs generalizing s k with
  | nil => rw [if_neg (by simp only [List.length_nil]; omega)]; rfl
  | cons z t ih =>
    rw [State.setBufs, ih]
    simp only [List.length_cons]
    by_cases h1 : k + 1 ≤ j ∧ j < k + 1 + t.length
    · rw [if_pos h1, if_pos (by omega)]
      obtain ⟨d, rfl⟩ : ∃ d, j = k + 1 + d := ⟨j - (k + 1), by omega⟩
      have e1 : k + 1 + d - (k + 1) = d := by omega
      have e2 : k + 1 + d - k = d + 1 := by omega
      rw [e1, e2, List.getD_cons_succ]
    · rw [if_neg h1]
      by_cases h2 : j = k
      · subst h2
        rw [State.buf_setBuf_same, if_pos (by omega)]
        simp
      · rw [State.buf_setBuf_other _ _ h2, if_neg (by omega)]

theorem State.mem_setBufs {zs : List Cplx} {s : State} {k : Nat} {c : Host.Cell}
    (h : c ∈ (s.setBufs k zs).mem) : (bufAddr k ≤ c.1 ∧ c.1 < bufAddr (k + zs.length)) ∨ c ∈ s.mem := by
  induction zs generalizing s k with
  | nil => exact .inr h
  | cons z t ih =>
    simp only [List.length_cons, bufAddr] at ih ⊢
    rcases ih h with h | h
    · exact .inl (by omega)
    · rw [State.setBuf_mem] at h
      refine (Memory.mem_writeBuf h).imp_left (fun h => ?_)
      simp only [bufAddr] at h
      omega

theorem State.setBufs_wf (zs : List Cplx) {s : State} (k : Nat) (h : Memory.wf s.mem) :
    Memory.wf (s.setBufs k zs).mem := by
  induction zs generalizing s k with
  | nil => exact h
  | cons z t ih => exact ih (k + 1) (by rw [State.setBuf_mem]; exact Memory.writeBuf_wf _ _ h)

theorem State.byteAt_setPeaks_other (es : List PeakEntry) (s : State) {k a : Nat}
    (h : ¬ (peakAddr k ≤ a ∧ a < peakAddr (k + es.length))) : (s.setPeaks k es).byteAt a = s.byteAt a := by
  induction es generalizing s k with
  | nil => rfl
  | cons e t ih =>
    simp only [List.length_cons, peakAddr] at h ih
    rw [State.setPeaks, ih _ (by omega), State.byteAt_setPeak_other _ _ (by simp only [peakAddr]; omega)]

theorem State.peak_setPeaks (es : List PeakEntry) (s : State) (k j : Nat) :
    (s.setPeaks k es).peak j = if k ≤ j ∧ j < k + es.length then es.getD (j - k) default else s.peak j := by
  induction es generalizing s k with
  | nil => rw [if_neg (by simp only [List.length_nil]; omega)]; rfl
  | cons e t ih =>
    rw [State.setPeaks, ih]
    simp only [List.length_cons]
    by_cases h1 : k + 1 ≤ j ∧ j < k + 1 + t.length
    · rw [if_pos h1, if_pos (by omega)]
      obtain ⟨d, rfl⟩ : ∃ d, j = k + 1 + d := ⟨j - (k + 1), by omega⟩
      have e1 : k + 1 + d - (k + 1) = d := by omega
      have e2 : k + 1 + d - k = d + 1 := by omega
      rw [e1, e2, List.getD_cons_succ]
    · rw [if_neg h1]
      by_cases h2 : j = k
      · subst h2
        rw [State.peak_setPeak_same, if_pos (by omega)]
        simp
      · rw [State.peak_setPeak_other _ _ h2, if_neg (by omega)]

theorem State.mem_setPeaks {es : List PeakEntry} {s : State} {k : Nat} {c : Host.Cell}
    (h : c ∈ (s.setPeaks k es).mem) : (peakAddr k ≤ c.1 ∧ c.1 < peakAddr (k + es.length)) ∨ c ∈ s.mem := by
  induction es generalizing s k with
  | nil => exact .inr h
  | cons e t ih =>
    simp only [List.length_cons, peakAddr] at ih ⊢
    rcases ih h with h | h
    · exact .inl (by omega)
    · rw [State.setPeak_mem] at h
      refine (Memory.mem_writePeak h).imp_left (fun h => ?_)
      simp only [peakAddr] at h
      omega

theorem State.setPeaks_wf (es : List PeakEntry) {s : State} (k : Nat) (h : Memory.wf s.mem) :
    Memory.wf (s.setPeaks k es).mem := by
  induction es generalizing s k with
  | nil => exact h
  | cons e t ih => exact ih (k + 1) (by rw [State.setPeak_mem]; exact Memory.writePeak_wf _ _ h)

/-- The memory right after reset is in canonical form: nothing is listed. -/
theorem reset_mem_wf : Memory.wf State.reset.mem := List.Pairwise.nil

end Sys2Proof.Machine
end

