-- ==== Sys2Proof/Laws/Numerics.lean ====
section
/-! SUPPORT. The laws of the numerics helpers. -/

namespace Sys2Proof.Machine

theorem log2Up_spec (n fuel k : Nat) (h : n < 2 ^ 2 ^ (k + fuel)) : n < 2 ^ 2 ^ log2Up n fuel k := by
  induction fuel generalizing k with
  | zero => exact h
  | succ f ih =>
    unfold log2Up
    split
    · assumption
    · exact ih (k + 1) (by rwa [Nat.add_right_comm, Nat.add_assoc] )

theorem log2Down_eq (k n : Nat) (h0 : n ≠ 0) (h : n < 2 ^ 2 ^ k) : log2Down k n = Nat.log2 n := by
  induction k generalizing n with
  | zero =>
    have : n = 1 := by simp at h; omega
    subst this
    rfl
  | succ k ih =>
    unfold log2Down
    split
    · rename_i hle
      have hp : 0 < 2 ^ 2 ^ k := Nat.two_pow_pos _
      have hq : n / 2 ^ 2 ^ k ≠ 0 := (Nat.div_pos hle hp).ne'
      have hlt : n / 2 ^ 2 ^ k < 2 ^ 2 ^ k := by
        rw [Nat.div_lt_iff_lt_mul hp, ← Nat.pow_add, ← Nat.two_mul, ← Nat.pow_succ']
        exact h
      rw [ih _ hq hlt, eq_comm, Nat.log2_eq_iff h0]
      have h1 := (Nat.log2_eq_iff hq).mp rfl
      refine ⟨?_, ?_⟩
      · rw [Nat.pow_add]
        calc 2 ^ 2 ^ k * 2 ^ (n / 2 ^ 2 ^ k).log2 ≤ 2 ^ 2 ^ k * (n / 2 ^ 2 ^ k) := Nat.mul_le_mul_left _ h1.1
          _ ≤ n := Nat.mul_div_le _ _
      · rw [Nat.add_assoc, Nat.pow_add, Nat.mul_comm, ← Nat.div_lt_iff_lt_mul hp]
        exact h1.2
    · exact ih _ h0 (by omega)

/-- The binary search is the logarithm. -/
theorem ilog2_eq_log2 (n : Nat) (h : n ≠ 0) : ilog2 n = Nat.log2 n := by
  refine log2Down_eq _ _ h (log2Up_spec n n 0 ?_)
  rw [Nat.zero_add]
  exact Nat.lt_two_pow_self.trans Nat.lt_two_pow_self

end Sys2Proof.Machine
end

