-- ==== Sys2Proof/Laws/Ops.lean ====
section
/-! SUPPORT. What each shared operation can do, said once: the lifecycle, the sample reader, the bodies of ACQUIRE,
TRANSFORM and SCAN, the host port, and the step. -/

namespace Sys2Proof.Machine

/-! ### The lifecycle -/

/-- An acceptance either starts the decoded command or ends at once with IllegalCommand (44_command_control R191). -/
theorem accept_cases (w : Word) (s : State) :
    (∃ i, decode w = .ok i ∧ accept w s = startCommand i (acceptFlags s)) ∨
    (∃ e, decode w = .error e ∧ accept w s = raiseErr .illegalCommand 0 (opField w) (acceptFlags s)) := by
  unfold accept
  split
  · rename_i i h; exact .inl ⟨i, h, rfl⟩
  · rename_i e h; exact .inr ⟨e, h, rfl⟩

theorem accept_ok {w : Word} {i : Instr} (h : decode w = .ok i) (s : State) :
    accept w s = startCommand i (acceptFlags s) := by
  simp only [accept, h]

theorem accept_error {w : Word} {e : DecodeError} (h : decode w = .error e) (s : State) :
    accept w s = raiseErr .illegalCommand 0 (opField w) (acceptFlags s) := by
  simp only [accept, h]

/-! ### The sample reader -/

/-- One turn of the poll loop times out or polls once (40_sample_reader R110, R112). -/
theorem pollStep_cases (i : Nat) (op : Byte) (s : State) :
    (s.seq.polls = s.latched.p.toNat ∧ pollStep i op s = raiseErr .sampleTimeout i op s) ∨
    (s.seq.polls ≠ s.latched.p.toNat ∧ pollStep i op s = pollOnce s) := by
  unfold pollStep pollsSpent
  by_cases h : s.seq.polls = s.latched.p.toNat
  · exact .inl ⟨h, by simp [h]⟩
  · exact .inr ⟨h, by simp [h]⟩

theorem pollStep_spent {i : Nat} {op : Byte} {s : State} (h : s.seq.polls = s.latched.p.toNat) :
    pollStep i op s = raiseErr .sampleTimeout i op s := by
  simp [pollStep, pollsSpent, h]

theorem pollStep_more {i : Nat} {op : Byte} {s : State} (h : s.seq.polls ≠ s.latched.p.toNat) :
    pollStep i op s = pollOnce s := by
  simp [pollStep, pollsSpent, h]

/-- The oracle answers the byte that is listed next. -/
theorem State.adcAnswer_cons {s : State} {b : Byte} {rest : List Byte} (h : s.adc = b :: rest) :
    s.adcAnswer = b := by
  simp only [State.adcAnswer, h]

/-! ### ACQUIRE -/

/-- Phase INIT raises the first failing check or makes the first writes (41_bias_acquire R137). -/
theorem acquireInit_cases (leave : State → State) (op : Byte) (s : State) :
    (legalN s.nMax s.latched.n = false ∧ acquireInit leave op s = raiseErr .invalidTransformSize 0 op s) ∨
    (legalN s.nMax s.latched.n = true ∧ s.latched.n.toNat < s.latched.s.toNat ∧
      acquireInit leave op s = raiseErr .indexOutOfRange 0 op s) ∨
    (legalN s.nMax s.latched.n = true ∧ s.latched.s.toNat ≤ s.latched.n.toNat ∧ s.latched.s.toNat = 0 ∧
      acquireInit leave op s = leave (acquireClear s)) ∨
    (legalN s.nMax s.latched.n = true ∧ s.latched.s.toNat ≤ s.latched.n.toNat ∧ s.latched.s.toNat ≠ 0 ∧
      acquireInit leave op s = startSample 0 (acquireClear s)) := by
  unfold acquireInit
  by_cases h1 : legalN s.nMax s.latched.n = true
  · by_cases h2 : s.latched.n.toNat < s.latched.s.toNat
    · simp [h1, h2]
    · by_cases h3 : s.latched.s.toNat = 0
      · simp [h1, h3]
      · simp [h1, h2, h3]
        omega
  · simp [h1]

/-- What a sample does depends on whether it is inside the bias window (41_bias_acquire R137). -/
theorem useSample_cases (s : State) :
    (s.seq.i < s.latched.w.toNat ∧ useSample s = accumulate s) ∨
    (s.latched.w.toNat ≤ s.seq.i ∧ useSample s = storeCentered s) := by
  unfold useSample
  by_cases h : s.seq.i < s.latched.w.toNat
  · exact .inl ⟨h, by simp [h]⟩
  · exact .inr ⟨by omega, by simp [h]⟩

/-- Phase STORE leaves the body after the last sample and goes on to the next one else (41_bias_acquire R137). -/
theorem acquireStore_cases (leave : State → State) (s : State) :
    (s.seq.i + 1 = s.latched.s.toNat ∧
      acquireStore leave s = leave { useSample s with seq := { s.seq with i := s.seq.i + 1 } }) ∨
    (s.seq.i + 1 ≠ s.latched.s.toNat ∧ acquireStore leave s = startSample (s.seq.i + 1) (useSample s)) := by
  unfold acquireStore
  by_cases h : s.seq.i + 1 = s.latched.s.toNat
  · exact .inl ⟨h, by simp [h]⟩
  · exact .inr ⟨h, by simp [h]⟩

/-! ### TRANSFORM and SCAN -/

theorem transformBody_cases (leave : State → State) (op : Byte) (s : State) :
    (legalN s.nMax s.latched.n = false ∧ transformBody leave op s = raiseErr .invalidTransformSize 0 op s) ∨
    (legalN s.nMax s.latched.n = true ∧ transformBody leave op s = leave (transformBuf s.latched.n.toNat s)) := by
  unfold transformBody
  by_cases h : legalN s.nMax s.latched.n = true <;> simp [h]

/-- SCAN raises the first failing check, or ends with an empty window, or scans (43_peak_scan R173). -/
theorem scanBody_cases (op : Byte) (s : State) :
    (legalN s.nMax s.latched.n = false ∧
      scanBody op s = raiseErr .invalidTransformSize 0 op { s with peakCount := 0 }) ∨
    (legalN s.nMax s.latched.n = true ∧ scanParamsLegal s.latched = false ∧
      scanBody op s = raiseErr .invalidParameter 0 op { s with peakCount := 0 }) ∨
    (legalN s.nMax s.latched.n = true ∧ scanParamsLegal s.latched = true ∧
      windowHi s.latched < windowLo s.latched ∧ scanBody op s = goto .fin { s with peakCount := 0 }) ∨
    (legalN s.nMax s.latched.n = true ∧ scanParamsLegal s.latched = true ∧
      windowLo s.latched ≤ windowHi s.latched ∧ clampedHi s.latched < clampedLo s.latched ∧
      scanBody op s = raiseErr .indexOutOfRange 0 op { s with peakCount := 0 }) ∨
    (legalN s.nMax s.latched.n = true ∧ scanParamsLegal s.latched = true ∧
      windowLo s.latched ≤ windowHi s.latched ∧ clampedLo s.latched ≤ clampedHi s.latched ∧
      scanBody op s = goto .fin (scanWindow s)) := by
  unfold scanBody
  by_cases h1 : legalN s.nMax s.latched.n = true
  · by_cases h2 : scanParamsLegal s.latched = true
    · by_cases h3 : windowHi s.latched < windowLo s.latched
      · simp [h1, h2, h3]
      · by_cases h4 : clampedHi s.latched < clampedLo s.latched
        · simp [h1, h2, h3, h4]
          omega
        · simp [h1, h2, h3, h4]
          omega
    · simp [h1, h2]
  · simp [h1]

/-- The two buffers keep their lengths (42_fft R152). -/
theorem butterfly_length {α : Type} (num : FftNum α) (n : Nat) (src : List α) (off s i : Nat) (dst : List α) :
    (butterfly num n src off s i dst).length = dst.length := by
  simp [butterfly]

theorem combine_length {α : Type} (num : FftNum α) (n : Nat) (src : List α) (off s : Nat) (dst : List α) :
    (combine num n src off s dst).length = dst.length := by
  unfold combine
  generalize List.range (n / (2 * s)) = js
  induction js generalizing dst with
  | nil => rfl
  | cons j t ih => rw [List.foldl_cons, ih, butterfly_length]

theorem fftRec_length {α : Type} (num : FftNum α) (n depth : Nat) (dst src : List α) (off s : Nat) :
    (fftRec num n depth dst src off s).1.length = dst.length ∧
    (fftRec num n depth dst src off s).2.length = src.length := by
  induction depth generalizing dst src off s with
  | zero => exact ⟨rfl, rfl⟩
  | succ d ih =>
    unfold fftRec
    split
    · exact ⟨rfl, rfl⟩
    · simp only [combine_length, (ih _ _ _ _).1, (ih _ _ _ _).2, and_self]

theorem fft_length {α : Type} (num : FftNum α) (n : Nat) (xs : List α) : (fft num n xs).length = xs.length :=
  (fftRec_length num n _ xs xs 0 1).1

@[simp] theorem State.bufList_length (s : State) (n : Nat) : (s.bufList n).length = n := by
  simp [State.bufList]

@[simp] theorem fftOfBuf_length (s : State) (n : Nat) : (fftOfBuf s n).length = n := by
  rw [fftOfBuf, fft_length, State.bufList_length]

/-- Every bin of the clamped window is a bin of the buffer (43_peak_scan R172). -/
theorem mem_windowBins {l : Latched} {b : Nat} (h : b ∈ windowBins l) :
    clampedLo l ≤ b ∧ (b : Int) ≤ clampedHi l ∧ b < l.n.toNat := by
  have hm := List.mem_range'_1.mp h
  have h0 : 0 ≤ clampedLo l := by simp only [clampedLo]; omega
  have h1 : clampedHi l ≤ (l.n.toNat : Int) - 1 := by simp only [clampedHi]; omega
  omega

theorem windowBins_length_le (l : Latched) : (windowBins l).length ≤ l.n.toNat := by
  have h0 : 0 ≤ clampedLo l := by simp only [clampedLo]; omega
  have h1 : clampedHi l ≤ (l.n.toNat : Int) - 1 := by simp only [clampedHi]; omega
  simp only [windowBins, List.length_range']
  omega

theorem scanEntries_length_le (s : State) : (scanEntries s).length ≤ s.latched.n.toNat := by
  rw [scanEntries, List.length_map]
  exact (List.length_filter_le _ _).trans (windowBins_length_le _)

/-- A legal size lies between 1 and N_MAX (60_exceptions R214). -/
theorem legalN_bounds {nMax n : Word} (h : legalN nMax n = true) : 1 ≤ n.toNat ∧ n.toNat ≤ nMax.toNat := by
  simp only [legalN, Bool.and_eq_true, decide_eq_true_eq] at h
  exact ⟨h.1.1, h.2⟩

theorem legalCapacity_bounds {nMax : Word} (h : legalCapacity nMax = true) :
    1 ≤ nMax.toNat ∧ nMax.toNat ≤ 65536 := by
  simp only [legalCapacity, Bool.and_eq_true, decide_eq_true_eq] at h
  exact ⟨h.1.1, h.2⟩

/-! ### The host port -/

/-- What a host write to a register can do (10_state R20 to R44, 44_command_control R190, R194). -/
theorem writeReg_cases (r : HostReg) (v : Word) (s : State) :
    writeReg r v s = s ∨
    (s.status.busy = true ∧ (r = .cmd ∨ r.isParam = true) ∧ writeReg r v s = dropWrite s) ∨
    (s.status.busy = false ∧ r = .cmd ∧ writeReg r v s = accept v s) ∨
    (r = .status ∧ writeReg r v s = { s with status := s.status.w1c v }) ∨
    (r = .intEn ∧ writeReg r v s = { s with doneIe := v.getLsbD 0 }) ∨
    (s.status.busy = false ∧ r.isParam = true ∧ writeReg r v s = { s with par := s.par.write r v }) := by
  by_cases hb : s.status.busy = true
  · cases r <;> simp [writeReg, HostReg.isParam, hb]
  · cases r <;> simp [writeReg, HostReg.isParam, hb]

/-- What a host write can do: nothing, be dropped, or write the one register or word it names (20_memory R67, 44_command_control
R190, R194). -/
theorem writeTarget_cases (off : HostOffset) (v : Word) (s : State) :
    writeTarget off v s = s ∨
    (s.status.busy = true ∧
      (hostTarget s.nMax off.toNat = .reg .cmd ∨
        (∃ r, hostTarget s.nMax off.toNat = .reg r ∧ r.isParam = true) ∨ hostTarget s.nMax off.toNat = .buf) ∧
      writeTarget off v s = dropWrite s) ∨
    (s.status.busy = false ∧ hostTarget s.nMax off.toNat = .reg .cmd ∧ writeTarget off v s = accept v s) ∨
    (hostTarget s.nMax off.toNat = .reg .status ∧ writeTarget off v s = { s with status := s.status.w1c v }) ∨
    (hostTarget s.nMax off.toNat = .reg .intEn ∧ writeTarget off v s = { s with doneIe := v.getLsbD 0 }) ∨
    (∃ r, s.status.busy = false ∧ hostTarget s.nMax off.toNat = .reg r ∧ r.isParam = true ∧
      writeTarget off v s = { s with par := s.par.write r v }) ∨
    (s.status.busy = false ∧ hostTarget s.nMax off.toNat = .buf ∧
      writeTarget off v s = { s with mem := Memory.writeWord s.mem off.toNat v }) := by
  unfold writeTarget
  split
  · rename_i r hr
    rw [hr]
    rcases writeReg_cases r v s with h | ⟨h1, rfl | h2, h⟩ | ⟨h1, rfl, h⟩ | ⟨rfl, h⟩ | ⟨rfl, h⟩ | ⟨h1, h2, h⟩
    · exact .inl h
    · exact .inr (.inl ⟨h1, .inl rfl, h⟩)
    · exact .inr (.inl ⟨h1, .inr (.inl ⟨r, rfl, h2⟩), h⟩)
    · exact .inr (.inr (.inl ⟨h1, rfl, h⟩))
    · exact .inr (.inr (.inr (.inl ⟨rfl, h⟩)))
    · exact .inr (.inr (.inr (.inr (.inl ⟨rfl, h⟩))))
    · exact .inr (.inr (.inr (.inr (.inr (.inl ⟨r, h1, rfl, h2, h⟩)))))
  · rename_i hbuf
    by_cases hb : s.status.busy = true
    · exact .inr (.inl ⟨hb, .inr (.inr hbuf), by simp [hb]⟩)
    · exact .inr (.inr (.inr (.inr (.inr (.inr ⟨by simpa using hb, hbuf, by simp [hb]⟩)))))
  · exact .inl rfl
  · exact .inl rfl

/-- An aligned offset that stands for a register is that register's offset (10_state section 1). -/
theorem hostTarget_reg {nMax : Word} {off : Nat} {r : HostReg} (h : hostTarget nMax off = .reg r) (ha : off % 4 = 0) :
    off = r.offset.toNat := by
  unfold hostTarget at h
  split at h
  · rename_i hlt
    obtain ⟨k, rfl⟩ : ∃ k, off = 4 * k := ⟨off / 4, by omega⟩
    rw [Nat.mul_div_cancel_left k (by decide)] at h
    have hk : k < 28 := by omega
    revert h
    interval_cases k <;> simp only [regAt] <;> intro h <;> cases h <;> rfl
  · split at h
    · simp at h
    · split at h <;> simp at h

/-- A word of the BUF window lies inside it (20_memory R60, R62). -/
theorem hostTarget_buf {nMax : Word} {off : Nat} (h : hostTarget nMax off = .buf) :
    0x100000 ≤ off ∧ off < 0x100000 + 16 * nMax.toNat := by
  unfold hostTarget at h
  split at h
  · split at h <;> simp at h
  · split at h
    · assumption
    · split at h <;> simp at h

theorem hostTarget_peak {nMax : Word} {off : Nat} (h : hostTarget nMax off = .peak) :
    0x200000 ≤ off ∧ off < 0x200000 + 32 * nMax.toNat := by
  unfold hostTarget at h
  split at h
  · split at h <;> simp at h
  · split at h
    · simp at h
    · split at h
      · assumption
      · simp at h

/-- The register region is the register map (10_state section 1). -/
theorem hostTarget_offset (nMax : Word) (r : HostReg) : hostTarget nMax r.offset.toNat = .reg r := by
  cases r <;> rfl

/-- A host access answers a next state exactly when reset is released and the access has a meaning. -/
theorem hostAccess_next {m : Move} {effect : State → State} {s t : State} (h : hostAccess m effect s = .next t) :
    s.inReset = false ∧ m.wf = true ∧ t = effect s := by
  unfold hostAccess at h
  split at h
  · cases h
  · split at h
    · rename_i h1 h2
      cases h
      exact ⟨by simpa using h1, h2, rfl⟩
    · cases h

theorem hostAccess_ok {m : Move} (effect : State → State) {s : State} (h1 : s.inReset = false) (h2 : m.wf = true) :
    hostAccess m effect s = .next (effect s) := by
  simp [hostAccess, h1, h2]

/-- Reset starts from the state itself or from it after the BusRead in flight (70_reset_and_hazards R242). -/
theorem assertReset_cases (inFlight : Bool) (s : State) :
    assertReset inFlight s = applyReset s ∨
    ∃ reg, inFlight = true ∧ pendingBusRead s = some reg ∧ assertReset inFlight s = applyReset (busRead reg s) := by
  unfold assertReset
  cases inFlight with
  | false => exact .inl rfl
  | true =>
    cases h : pendingBusRead s with
    | none => exact .inl (by simp)
    | some reg => exact .inr ⟨reg, rfl, rfl, by simp⟩

/-! ### The step -/

theorem step_nil {s : State} (h : s.env = []) : step s = coreStep s := by
  simp only [step, h]

theorem step_coreTurn {s : State} {rest : List Move} (h : s.env = .coreTurn :: rest) :
    step s = coreStep { s with env := rest } := by
  simp only [step, h]

theorem step_move {s : State} {m : Move} {rest : List Move} (h : s.env = m :: rest) (hm : m ≠ .coreTurn) :
    step s = outsideMove m { s with env := rest } := by
  cases m <;> simp_all [step]

theorem coreStep_run {s : State} {i : Instr} (h1 : s.inReset = false) (h2 : s.seq.op = some i) :
    coreStep s = exec i s := by
  simp [coreStep, h1, h2]

theorem coreStep_idle {s : State} (h : s.inReset = true ∨ s.seq.op = none) : coreStep s = .next s := by
  unfold coreStep
  rcases h with h | h
  · simp [h]
  · simp [h]

/-- A step is the core's or the outside's (44_command_control R195). -/
theorem step_cases (s : State) :
    (∃ r, (s.env = [] ∧ r = s ∨ ∃ rest, s.env = .coreTurn :: rest ∧ r = { s with env := rest }) ∧
      step s = coreStep r) ∨
    (∃ m rest, s.env = m :: rest ∧ m ≠ .coreTurn ∧ step s = outsideMove m { s with env := rest }) := by
  rcases h : s.env with _ | ⟨m, rest⟩
  · exact .inl ⟨s, .inl ⟨rfl, rfl⟩, step_nil h⟩
  · by_cases hm : m = .coreTurn
    · subst hm
      exact .inl ⟨_, .inr ⟨rest, rfl, rfl⟩, step_coreTurn h⟩
    · exact .inr ⟨m, rest, rfl, hm, step_move h hm⟩

/-- The step of an aligned host read, once reset is released (20_memory R61). -/
theorem step_read {s : State} {off : HostOffset} (rest : List Move) (h1 : s.inReset = false) (h2 : off.toNat % 4 = 0) :
    step (s.facing (.read off 4 :: rest)) = .next (hostRead off { s with env := rest }) := by
  rw [step_move (m := .read off 4) (rest := rest) rfl (by simp)]
  exact hostAccess_ok _ h1 (by simp [Move.wf, Move.sizeOk, Move.alignOk, h2])

/-- The step of an aligned host write, once reset is released (20_memory R61). -/
theorem step_write {s : State} {off : HostOffset} (v : Word) (rest : List Move) (h1 : s.inReset = false)
    (h2 : off.toNat % 4 = 0) :
    step (s.facing (.write off 4 v :: rest)) = .next (hostWrite off v { s with env := rest }) := by
  rw [step_move (m := .write off 4 v) (rest := rest) rfl (by simp)]
  exact hostAccess_ok _ h1 (by simp [Move.wf, Move.sizeOk, Move.alignOk, h2])

/-- One turn of the host's `wait`, once reset is released (30_encoding R96). -/
theorem step_wait {s : State} (turns : Nat) (rest : List Move) (h : s.inReset = false) :
    step (s.facing (.wait turns :: rest)) = .next (hostWait turns { s with env := rest }) := by
  rw [step_move (m := .wait turns) (rest := rest) rfl (by simp)]
  exact hostAccess_ok _ h rfl

theorem runSteps_next {s t : State} (h : step s = .next t) (k : Nat) : runSteps (k + 1) s = runSteps k t := by
  simp only [runSteps, h]

/-- Runs compose. -/
theorem runSteps_add {s t : State} {j : Nat} (h : runSteps j s = .next t) (k : Nat) :
    runSteps (j + k) s = runSteps k t := by
  induction j generalizing s with
  | zero =>
    simp only [runSteps] at h
    cases h
    rw [Nat.zero_add]
  | succ j ih =>
    rw [Nat.succ_add]
    simp only [runSteps] at h ⊢
    cases hs : step s with
    | next u => simp only [hs] at h ⊢; exact ih h
    | fault r => simp only [hs] at h; cases h
    | refused r => simp only [hs] at h; cases h

end Sys2Proof.Machine
end

