-- ==== Sys2Proof/Laws/PerInstr.lean ====
section
/-! SUPPORT. Statements about every command as syntax, made one command at a time. -/

namespace Sys2Proof.Laws

/-- The command is well-formed, its word has RSV = 0 and the opcode of 30_encoding R92 in OP, it decodes to the command, and
setting any bit of RSV makes it ILLEGAL (30_encoding R90 to R94). -/
def EncodesAsTable.Statement (i : Instr) : Prop :=
  i.wf = true ∧ rsvField (encode i) = 0 ∧ opField (encode i) = i.opcode ∧ i.opcode.toNat ≤ 5 ∧
  decode (encode i) = .ok i ∧ ∀ k : Fin 24, decode (encode i ||| (1 <<< (8 + k.val))) = .error .reservedBits

theorem EncodesAsTable.nop : EncodesAsTable.Statement .nop := by unfold EncodesAsTable.Statement; decide

theorem EncodesAsTable.readSample : EncodesAsTable.Statement .readSample := by
  unfold EncodesAsTable.Statement; decide

theorem EncodesAsTable.acquire : EncodesAsTable.Statement .acquire := by unfold EncodesAsTable.Statement; decide

theorem EncodesAsTable.transform : EncodesAsTable.Statement .transform := by
  unfold EncodesAsTable.Statement; decide

theorem EncodesAsTable.scan : EncodesAsTable.Statement .scan := by unfold EncodesAsTable.Statement; decide

theorem EncodesAsTable.run : EncodesAsTable.Statement .run := by unfold EncodesAsTable.Statement; decide

end Sys2Proof.Laws
end

