-- ==== Sys2Proof/Tests/Slice0.lean ====
section
/-! SUPPORT. Tests of the model against the words and vectors of spec/, and for every statement with hypotheses a concrete
state and operands that meet them all. -/

namespace Sys2Proof.Machine

/-! ### WellFormed: what each check refuses -/

theorem test_halfword_read_refused : Move.wf (.read 0x008 2) = false := by decide
theorem test_byte_write_refused : Move.wf (.write 0x008 1 0) = false := by decide
theorem test_misaligned_read_refused : Move.wf (.read 0x00A 4) = false := by decide
theorem test_misaligned_write_refused : Move.wf (.write 0x005 4 0) = false := by decide
theorem test_aligned_word_accepted : Move.wf (.write 0x3FFFFC 4 0) = true := by decide
theorem test_capacity_not_power_refused : legalCapacity 3 = false := by decide
theorem test_capacity_zero_refused : legalCapacity 0 = false := by decide
theorem test_capacity_too_large_refused : legalCapacity 131072 = false := by decide
theorem test_capacity_largest_accepted : legalCapacity 65536 = true := by decide

/-! ### Decode: words written out from 30_encoding R90 and R92 -/

theorem test_decode_nop : decode 0b00000000000000000000000000000000 = .ok .nop := by decide
theorem test_decode_read_sample : decode 0b00000000000000000000000000000001 = .ok .readSample := by decide
theorem test_decode_acquire : decode 0b00000000000000000000000000000010 = .ok .acquire := by decide
theorem test_decode_transform : decode 0b00000000000000000000000000000011 = .ok .transform := by decide
theorem test_decode_scan : decode 0b00000000000000000000000000000100 = .ok .scan := by decide
theorem test_decode_run : decode 0b00000000000000000000000000000101 = .ok .run := by decide
theorem test_decode_reserved_opcode : decode 0x00000006 = .error .reservedOpcode := by decide
theorem test_decode_reserved_bit : decode 0x00000100 = .error .reservedBits := by decide
theorem test_decode_top_bit : decode 0x80000001 = .error .reservedBits := by decide
theorem test_table_word_run : decodeTableWord 32 5 = some .run := by decide

/-! ### Small states -/

/-- Parameters: FFT_SIZE, SAMPLE_COUNT, SAMPLE_RATE_HZ, BIAS_WINDOW_S. -/
def tPar (n s r b : Word) : Params :=
  { Params.reset with fftSize := n, sampleCount := s, sampleRateHz := r, biasWindowS := b }

/-- The parameters of vectors S-1 to S-16: CENTER_FREQ 30.0, WINDOW_SIZE 4, THRESHOLD 1.0. -/
def tScanPar : Params := { tPar 8 8 60 0 with windowSize := 4, centerFreqHi := 0x403E0000, thresholdHi := 0x3FF00000 }

/-- A busy state in a phase of a command, with nothing else under way. -/
def tBusy (i : Instr) (sub : Option SubOp) (phase : Phase) (p : Params) : State :=
  { State.reset with
    par := p, status := ⟨true, false, false, false, 0, 0⟩, latched := latch p
    seq := ⟨some i, sub, 0, 0, phase, 0, 0⟩ }

/-- The field of the next state, if there is one. -/
def nextField {α : Type} (f : State → α) : Host.Outcome State Fault Refusal → Option α
  | .next t => some (f t)
  | .fault _ => none
  | .refused _ => none

/-! ### One step of each command, against the vectors of 95_test_vectors -/

/-- C-2. -/
theorem test_nop_status : nextField (fun t => t.status.word) (exec .nop (tBusy .nop none .fin Params.reset)) =
    some 0x00000002 := by decide

/-- L1-2: bytes 80 00 00. -/
theorem test_read_sample_sign :
    nextField (fun t => (t.sampleRaw, t.sampleVal))
      (exec .readSample
        { tBusy .readSample none .readB0 Params.reset with
          adc := [0x00], seq := ⟨some .readSample, none, 0, 1, .readB0, 0x80, 0x00⟩ }) =
    some (0x800000, 0xFF800000) := by decide

/-- R-4: POLL_LIMIT 0. -/
theorem test_read_sample_limit_zero :
    nextField (fun t => (t.status.word, t.history))
      (exec .readSample (tBusy .readSample none .poll { Params.reset with pollLimit := 0 })) =
    some (0x00010406, []) := by decide

/-- A-1: the sample 13 at index 2, after ACC = 20 over W = 2, is stored as 3.5. -/
theorem test_acquire_stores_centered :
    nextField (fun t => t.buf 2)
      (exec .acquire
        { tBusy .acquire none .store (tPar 4 4 2 1) with
          acc := 20, sampleVal := 13, seq := ⟨some .acquire, none, 2, 1, .store, 0, 0⟩ }) =
    some ⟨0x400C000000000000, 0⟩ := by decide +kernel

/-- A-5: BIAS after the second window sample is rne (2 / 3). -/
theorem test_acquire_bias_in_window :
    nextField (fun t => (t.acc, t.bias))
      (exec .acquire
        { tBusy .acquire none .store (tPar 4 4 3 1) with
          acc := 1, sampleVal := 1, seq := ⟨some .acquire, none, 1, 1, .store, 0, 0⟩ }) =
    some (2, 0x3FE5555555555555) := by decide +kernel

/-- T-3: the order of operations shows in the last bit of X[3]. -/
theorem test_transform_one_two_three_four :
    (fft (hwNum 0) 4 [⟨0x3FF0000000000000, 0⟩, ⟨0x4000000000000000, 0⟩, ⟨0x4008000000000000, 0⟩,
      ⟨0x4010000000000000, 0⟩]).map Cplx.re =
    [0x4024000000000000, 0xC000000000000000, 0xC000000000000000, 0xBFFFFFFFFFFFFFFF] := by decide +kernel

/-- T-14, L1-8. -/
theorem test_transform_bad_size :
    nextField (fun t => t.status.word) (exec .transform (tBusy .transform none .fft (tPar 6 0 0 0))) =
    some 0x00030506 := by decide

/-- S-1, with BUF[3] = 12 and zeros around it. -/
theorem test_scan_one_peak :
    nextField (fun t => (t.peakCount, t.peak 0))
      (exec .scan ((tBusy .scan none .scan tScanPar).setBufs 2
        [⟨0, 0⟩, ⟨0x4028000000000000, 0⟩, ⟨0, 0⟩, ⟨0, 0⟩])) =
    some (1, ⟨3, 0x403E000000000000, 0x4008000000000000⟩) := by decide +kernel

/-- S-13: one rounding. -/
theorem test_scan_single_rounding :
    magnitude 0 ⟨0x3FF0000000000000, 0x3FF0000000000000⟩ 3 = 0x3FEE2B7DDDFEFA66 := by decide +kernel

/-- C-11: ERR_OP names the sub-operation. -/
theorem test_run_error_names_acquire :
    nextField (fun t => t.status.word) (exec .run (tBusy .run (some .acquire) .init (tPar 4 5 0 0))) =
    some 0x00020606 := by decide

/-- A RUN whose samples are all read goes on to TRANSFORM. -/
theorem test_run_goes_on_to_transform :
    nextField (fun t => (t.seq.sub, t.seq.phase))
      (exec .run
        { tBusy .run (some .acquire) .store (tPar 4 4 2 1) with seq := ⟨some .run, some .acquire, 3, 1, .store, 0, 0⟩ }) =
    some (some .transform, .fft) := by decide +kernel

/-! ### Numerics, against 00_scope and 95_test_vectors -/

/-- T-6: cosF (rne (pi / 2)). -/
theorem test_twiddle_quarter : twiddle 2 4 = ⟨0x3C91A62633145C07, 0xBFF0000000000000⟩ := by decide +kernel

/-- R11: the overflow bound. -/
theorem test_rne_overflow :
    rneFrac (2 ^ 1024 - 2 ^ 970) 1 = 0x7FF0000000000000 ∧
    rneFrac (2 ^ 1024 - 2 ^ 970 - 1) 1 = 0x7FEFFFFFFFFFFFFF := by decide +kernel

/-! ### The hypotheses of the statements can be met

`wit_<Name>` is for the statement `Obligations.<Name>`: a state and operands that meet all its hypotheses, and for a statement
of several clauses one for each. -/

theorem wit_DecodeEncodeRoundTrip : Instr.run.wf = true ∧ decode 0x00000005 = .ok .run ∧
    decodeTableWord 32 (0x00000005 : Word).toNat = some .run := by decide

theorem wit_StepRunsAcceptedCommand : (tBusy .scan none .scan tScanPar).inReset = false ∧
    (tBusy .scan none .scan tScanPar).seq.op = some .scan ∧ Instr.scan.wf = true := by decide

theorem wit_AcceptedWordRunsNext : decodeTableWord 32 0 = some .nop ∧ decodeTableWord 32 5 = some .run := by decide

/-- The invariant at the reset state with any moves to come. -/
theorem wit_inv_idle (moves : List Move) : (State.reset.facing moves).Inv := by
  refine ⟨show legalCapacity State.reset.nMax = true by decide, List.Pairwise.nil, by simp [State.facing, State.reset],
    ?_, ?_, ?_, ?_, ?_, ?_, ?_, ?_, ?_, ?_, ?_, ?_, ?_, ?_⟩ <;>
  simp [State.facing, State.reset, Status.reset, Seq.reset, Status.legal, Status.codeLegal, Seq.legal, State.acquiring,
    State.pastAcquire, extendSample]

/-- The invariant while reset is asserted. -/
theorem wit_inv_in_reset (moves : List Move) : State.Inv { State.reset.facing moves with inReset := true } := by
  refine ⟨show legalCapacity State.reset.nMax = true by decide, List.Pairwise.nil, by simp [State.facing, State.reset],
    ?_, ?_, ?_, ?_, ?_, ?_, ?_, ?_, ?_, ?_, ?_, ?_, ?_, ?_⟩ <;>
  simp [State.facing, State.reset, Status.reset, Seq.reset, Status.legal, Status.codeLegal, Seq.legal, State.acquiring,
    State.pastAcquire, extendSample]

/-- The invariant in the middle of a RUN. -/
theorem wit_inv_run : (tBusy .run (some .transform) .fft (tPar 4 4 0 0)).Inv := by
  refine ⟨by decide, List.Pairwise.nil, by simp [tBusy, State.reset], ?_, ?_, ?_, ?_, ?_, ?_, ?_, ?_, ?_, ?_, ?_, ?_, ?_, ?_⟩
  all_goals first
    | decide
    | simp [tBusy, State.reset, Status.legal, Status.codeLegal, Seq.legal, State.acquiring, State.pastAcquire,
        Phase.sampling, latch, tPar, Params.reset, legalN, Config.nMaxDefault]

/-- The invariant after an error, which ACQUIRE of 5 samples at size 4 leaves (A-7). -/
theorem wit_inv_error (moves : List Move) :
    State.Inv { State.reset.facing moves with status := ⟨false, true, true, true, 6, 0x02⟩ } := by
  refine ⟨show legalCapacity State.reset.nMax = true by decide, List.Pairwise.nil, by simp [State.facing, State.reset],
    ?_, ?_, ?_, ?_, ?_, ?_, ?_, ?_, ?_, ?_, ?_, ?_, ?_, ?_⟩ <;>
  simp [State.facing, State.reset, Status.legal, Status.codeLegal, Seq.reset, Seq.legal, State.acquiring,
    State.pastAcquire, extendSample]

/-- A move of the host, and a core step. -/
theorem wit_StepKeepsInvariant :
    ((State.reset.facing [.write 0x014 4 8]).Inv ∧ ∃ t, step (State.reset.facing [.write 0x014 4 8]) = .next t) ∧
    ((tBusy .run (some .transform) .fft (tPar 4 4 0 0)).Inv ∧
      ∃ t, step (tBusy .run (some .transform) .fft (tPar 4 4 0 0)) = .next t) :=
  ⟨⟨wit_inv_idle _, ⟨_, rfl⟩⟩, ⟨wit_inv_run, ⟨_, rfl⟩⟩⟩

/-- The two refusals. -/
theorem wit_InvariantRulesOutFaults :
    ((State.reset.facing [.write 0x014 2 8]).Inv ∧
      step (State.reset.facing [.write 0x014 2 8]) = .refused .hostAccessShape) ∧
    (State.Inv { State.reset.facing [.read 0x008 4] with inReset := true } ∧
      step { State.reset.facing [.read 0x008 4] with inReset := true } = .refused .hostAccessInReset) :=
  ⟨⟨wit_inv_idle _, rfl⟩, ⟨wit_inv_in_reset _, rfl⟩⟩

/-- With a BusRead in flight and with none, and a memory draw that has been made. -/
theorem wit_AssertingReset :
    pendingBusRead (tBusy .acquire none .poll (tPar 4 4 0 0)) = some 0x00 ∧
    pendingBusRead (tBusy .acquire none .store (tPar 4 4 0 0)) = none ∧
    State.reset.memEpoch ≤ State.reset.draws := by decide

theorem wit_HeldInReset : (assertReset false State.reset).inReset = true := by decide

theorem wit_AccessShape : State.reset.inReset = false ∧
    ((2 : Nat) ≠ 4 ∧ (0x00A : HostOffset).toNat % 4 ≠ 0) ∧ (0x3FFFFC : HostOffset).toNat % 4 = 0 := by decide

/-- An idle block and a busy one. -/
theorem wit_RegisterReads :
    (State.reset.inReset = false ∧ State.reset.status.busy = false) ∧
    ((tBusy .acquire none .poll (tPar 4 4 0 0)).inReset = false ∧
      (tBusy .acquire none .poll (tPar 4 4 0 0)).status.busy = true) := by decide

/-- The first and the last entry, of an idle block and of a busy one, and the first and the last word of each reserved range
at N_MAX = 4096. -/
theorem wit_BufferReads :
    (State.reset.inReset = false ∧ legalCapacity State.reset.nMax = true ∧ State.reset.status.busy = false ∧
      0 < State.reset.nMax.toNat ∧ 4095 < State.reset.nMax.toNat) ∧
    ((tBusy .acquire none .poll (tPar 4 4 0 0)).inReset = false ∧
      legalCapacity (tBusy .acquire none .poll (tPar 4 4 0 0)).nMax = true ∧
      (tBusy .acquire none .poll (tPar 4 4 0 0)).status.busy = true ∧
      4095 < (tBusy .acquire none .poll (tPar 4 4 0 0)).nMax.toNat) ∧
    (([0x070, 0x0FFFFC, 0x110000, 0x1FFFFC, 0x220000, 0x3FFFFC] : List HostOffset).all fun off => off.toNat % 4 == 0 &&
      ((decide (0x070 ≤ off.toNat) && decide (off.toNat < 0x100000)) ||
        (decide (0x100000 + 16 * State.reset.nMax.toNat ≤ off.toNat) && decide (off.toNat < 0x200000)) ||
        decide (0x200000 + 32 * State.reset.nMax.toNat ≤ off.toNat))) = true := by decide

/-- An idle block, and a busy one, which a `wait` reads again. -/
theorem wit_HostReadHasNoSideEffect : (State.reset.inReset = false ∧ (0x100000 : HostOffset).toNat % 4 = 0 ∧
    State.reset.status.busy = false) ∧
    ((tBusy .nop none .fin Params.reset).inReset = false ∧
      (tBusy .nop none .fin Params.reset).status.word.getLsbD 0 = true) := by decide

theorem wit_ParameterWriteReadsBack : State.reset.inReset = false ∧ State.reset.status.busy = false := by decide

theorem wit_BufWordWriteReadsBack : State.reset.inReset = false ∧ State.reset.status.busy = false ∧
    legalCapacity State.reset.nMax = true ∧ 4095 < State.reset.nMax.toNat ∧ 3 < 4 := by decide

/-- A word that decodes and an ILLEGAL one. -/
theorem wit_CommandWriteAccepts : State.reset.inReset = false ∧ State.reset.status.busy = false ∧
    decode 0x00000004 = .ok .scan ∧ decode 0xFFFFFFFF = .error .reservedBits := by decide

/-- A busy block, and offsets at the ends of the ranges of each clause. -/
theorem wit_BusyWritesAreDropped :
    ((tBusy .acquire none .poll (tPar 4 4 0 0)).inReset = false ∧
      legalCapacity (tBusy .acquire none .poll (tPar 4 4 0 0)).nMax = true ∧
      (tBusy .acquire none .poll (tPar 4 4 0 0)).status.busy = true ∧
      (tBusy .acquire none .poll (tPar 4 4 0 0)).nMax.toNat = 4096) ∧
    (([0x004, 0x014, 0x044, 0x100000, 0x10FFFC] : List HostOffset).all fun off => off.toNat % 4 == 0 &&
      (off.toNat == 0x004 || (decide (0x014 ≤ off.toNat) && decide (off.toNat ≤ 0x044)) ||
        (decide (0x100000 ≤ off.toNat) && decide (off.toNat < 0x100000 + 16 * 4096)))) = true ∧
    (0x008 : HostOffset).toNat = 0x008 ∧ (0x00C : HostOffset).toNat = 0x00C ∧
    (([0x000, 0x010, 0x048, 0x0FFFFC, 0x110000, 0x200000, 0x3FFFFC] : List HostOffset).all fun off =>
      off.toNat % 4 == 0 && (off.toNat == 0x000 || off.toNat == 0x010 ||
        (decide (0x048 ≤ off.toNat) && decide (off.toNat < 0x100000)) ||
        decide (0x100000 + 16 * 4096 ≤ off.toNat))) = true := by decide +kernel

/-- A command that ends, with the interrupt enabled, a write of STATUS bit 1, and an ILLEGAL word. -/
theorem wit_InterruptLevel :
    (nextField (fun t => (t.seq.op, t.irq)) (exec .nop { tBusy .nop none .fin Params.reset with doneIe := true }) =
      some (none, true) ∧ (tBusy .nop none .fin Params.reset).seq.op = some .nop) ∧
    (State.reset.inReset = false ∧ State.reset.status.busy = false ∧ (0x00000002 : Word).getLsbD 1 = true) ∧
    decode 0x00000006 = .error .reservedOpcode := by decide

/-- A read that keeps the error state, and the write of a command. -/
theorem wit_ErrorStatePersists (m : Move) (hm : m = .read 0x008 4 ∨ m = .write 0x004 4 0) :
    State.Inv { State.reset.facing [m] with status := ⟨false, true, true, true, 6, 0x02⟩ } ∧
    (∃ t, step { State.reset.facing [m] with status := ⟨false, true, true, true, 6, 0x02⟩ } = .next t) := by
  refine ⟨wit_inv_error [m], ?_⟩
  rcases hm with rfl | rfl <;> exact ⟨_, rfl⟩

/-- Steps that set DROPPED, at the ends of the ranges of offsets, and one that clears it. -/
theorem wit_DroppedIsSticky :
    (([0x004, 0x014, 0x044, 0x100000, 0x10FFFC] : List HostOffset).all fun off =>
      nextField (fun t => t.status.dropped)
        (step ((tBusy .acquire none .poll (tPar 4 4 0 0)).facing [.write off 4 8])) == some true) = true ∧
    nextField (fun t => t.status.dropped)
      (step { State.reset.facing [.write 0x008 4 8] with status := ⟨false, false, false, true, 0, 0⟩ }) =
      some false := by decide

theorem wit_CompletionStep : (tBusy .readSample none .fin Params.reset).seq.phase = .fin := by decide

/-- An idle block and a busy one. -/
theorem wit_NopWhole : (State.reset.inReset = false ∧ State.reset.status.busy = false) ∧
    ((tBusy .nop none .fin Params.reset).inReset = false ∧ (tBusy .nop none .fin Params.reset).status.busy = true) := by
  decide

/-- Each command that reads samples. -/
theorem wit_PollReadsDataReady : ∀ p ∈ [(Instr.readSample, none), (.acquire, none), (.run, some SubOp.acquire)],
    ReadsSamples p.1 (tBusy p.1 p.2 .poll (tPar 4 4 0 0)).seq.sub ∧
    (tBusy p.1 p.2 .poll (tPar 4 4 0 0)).seq.phase = .poll ∧
    (tBusy p.1 p.2 .poll (tPar 4 4 0 0)).seq.polls ≠ (tBusy p.1 p.2 .poll (tPar 4 4 0 0)).latched.p.toNat := by
  unfold ReadsSamples; decide

/-- The poll limit 0, and polls all spent. -/
theorem wit_PollTimeout :
    (ReadsSamples .readSample (tBusy .readSample none .poll { Params.reset with pollLimit := 0 }).seq.sub ∧
      (tBusy .readSample none .poll { Params.reset with pollLimit := 0 }).seq.phase = .poll ∧
      (tBusy .readSample none .poll { Params.reset with pollLimit := 0 }).seq.polls =
        (tBusy .readSample none .poll { Params.reset with pollLimit := 0 }).latched.p.toNat) ∧
    (ReadsSamples .run (some .acquire) ∧ 10000 = (latch Params.reset).p.toNat) := by
  unfold ReadsSamples; decide

/-- The three data phases. -/
theorem wit_DataBytesReadInOrder : ∀ ph ∈ [Phase.readB2, .readB1, .readB0],
    ReadsSamples .run (tBusy .run (some .acquire) ph (tPar 4 4 0 0)).seq.sub ∧
    (tBusy .run (some .acquire) ph (tPar 4 4 0 0)).seq.phase = ph := by
  unfold ReadsSamples; decide

/-- The ends of the range of samples. -/
theorem wit_SampleRangeIsBijective : (-8388608 : Int) ≤ -8388608 ∧ (-8388608 : Int) ≤ 8388607 ∧
    (extendSample 0x800000).toInt = -8388608 := by decide

/-- A sample that is ready at the last allowed poll (R-5). -/
def tSample : SampleRead := ⟨[0x00, 0xDF], 0x20, 0x00, 0x00, 0x02⟩

/-- READ_SAMPLE just accepted, with that sample to come. -/
def tRead : State := { tBusy .readSample none .poll { Params.reset with pollLimit := 3 } with
  adc := tSample.bytes ++ [0x77] }

theorem wit_ReadSampleSucceeds : JustAccepted .readSample tRead ∧ tSample.ok tRead.latched ∧
    tRead.adc = tSample.bytes ++ [0x77] := by
  unfold JustAccepted SampleRead.ok; decide

/-- The failing checks of ACQUIRE (alone and in RUN), of TRANSFORM, and of SCAN in their order: sizes 0, 6 and 8192; 5 samples
at size 4; each illegal parameter (S-17 to S-20); a window outside the buffer (S-3). -/
theorem wit_ChecksInOrder :
    (Acquires .acquire none ∧ Acquires .run (some .acquire) ∧
      (tBusy .run (some .acquire) .init (tPar 4 5 0 0)).seq.phase = .init ∧
      legalN State.reset.nMax (latch (tPar 4 5 0 0)).n = true ∧
      (latch (tPar 4 5 0 0)).n.toNat < (latch (tPar 4 5 0 0)).s.toNat) ∧
    (([0, 6, 8192] : List Word).all fun n =>
      !legalN (tBusy .transform none .fft (tPar n 0 0 0)).nMax (latch (tPar n 0 0 0)).n) = true ∧
    (legalN State.reset.nMax (latch tScanPar).n = true ∧ (latch { tScanPar with sampleRateHz := 0 }).r.toNat = 0 ∧
      ((latch { tScanPar with fftSize := 2 }).n.toNat : Int) - (latch { tScanPar with fftSize := 2 }).k.toInt ≤ 0 ∧
      (latch { tScanPar with sampleCount := 0 }).s.toNat = 0 ∧
      F64.isFinite (latch { tScanPar with centerFreqHi := 0x7FF00000 }).cf = false) ∧
    (1 ≤ (latch tScanPar).r.toNat ∧ 1 ≤ ((latch tScanPar).n.toNat : Int) - (latch tScanPar).k.toInt ∧
      1 ≤ (latch tScanPar).s.toNat ∧ F64.isFinite (latch { tScanPar with centerFreqHi := 0x408F4000 }).cf = true ∧
      windowLo (latch { tScanPar with centerFreqHi := 0x408F4000 }) ≤
        windowHi (latch { tScanPar with centerFreqHi := 0x408F4000 }) ∧
      min (windowHi (latch { tScanPar with centerFreqHi := 0x408F4000 })) (((8 : Nat) : Int) - 1) <
        max (windowLo (latch { tScanPar with centerFreqHi := 0x408F4000 })) 0) := by
  unfold Acquires; decide +kernel

/-- With samples (as many as the size) and without. -/
theorem wit_AcquireStart :
    (Acquires .run (tBusy .run (some .acquire) .init (tPar 4 4 0 0)).seq.sub ∧
      (tBusy .run (some .acquire) .init (tPar 4 4 0 0)).seq.phase = .init ∧
      legalN State.reset.nMax (latch (tPar 4 4 0 0)).n = true ∧
      (latch (tPar 4 4 0 0)).s.toNat ≤ (latch (tPar 4 4 0 0)).n.toNat ∧ 1 ≤ (latch (tPar 4 4 0 0)).s.toNat) ∧
    (latch (tPar 4 0 0 0)).s.toNat = 0 := by
  unfold Acquires; decide

/-- The last index of a window of 1, which is not the last sample, and the index after it, which is. -/
theorem wit_AcquireUsesSample :
    Acquires .acquire (tBusy .acquire none .store (tPar 4 2 1 1)).seq.sub ∧
    (tBusy .acquire none .store (tPar 4 2 1 1)).seq.phase = .store ∧
    (0 : Nat) < (latch (tPar 4 2 1 1)).w.toNat ∧ (latch (tPar 4 2 1 1)).w.toNat ≤ 1 ∧
    0 + 1 ≠ (latch (tPar 4 2 1 1)).s.toNat ∧ 1 + 1 = (latch (tPar 4 2 1 1)).s.toNat := by
  unfold Acquires; decide

/-- Samples, accumulators and windows at the ends of their ranges. -/
theorem wit_CenteringLaws :
    ((-8388608 : Int).natAbs ≤ 2 ^ 23 ∧ ((-8388608 : Int) * (2 ^ 64 - 1)).natAbs ≤ (2 ^ 64 - 1) * 2 ^ 23 ∧
      1 ≤ 2 ^ 64 - 1 ∧ 2 ^ 64 - 1 < 2 ^ 64) ∧ (8388607 : Int).natAbs ≤ 2 ^ 23 := by decide

/-- ACQUIRE just accepted, with two samples of which the first is inside the bias window. -/
def tAcquire : State := { tBusy .acquire none .init (tPar 4 2 1 1) with
  adc := [tSample, tSample].flatMap SampleRead.bytes ++ [] }

theorem wit_AcquireWhole : JustAccepted .acquire tAcquire ∧ legalCapacity tAcquire.nMax = true ∧
    legalN tAcquire.nMax tAcquire.latched.n = true ∧ tAcquire.latched.s.toNat = [tSample, tSample].length ∧
    [tSample, tSample].length ≤ tAcquire.latched.n.toNat ∧ (∀ r ∈ [tSample, tSample], r.ok tAcquire.latched) ∧
    tAcquire.adc = [tSample, tSample].flatMap SampleRead.bytes ++ [] := by
  unfold JustAccepted SampleRead.ok; decide

/-- ACQUIRE just accepted, whose third sample never becomes ready within 3 polls (after A-10). -/
def tAcquire10 : State := { tBusy .acquire none .init { tPar 4 4 1 1 with pollLimit := 3 } with
  adc := [tSample, tSample].flatMap SampleRead.bytes ++ [0x00, 0xDF, 0x1F] ++ [] }

theorem wit_AcquireTimesOut : JustAccepted .acquire tAcquire10 ∧ legalCapacity tAcquire10.nMax = true ∧
    legalN tAcquire10.nMax tAcquire10.latched.n = true ∧
    [tSample, tSample].length < tAcquire10.latched.s.toNat ∧
    tAcquire10.latched.s.toNat ≤ tAcquire10.latched.n.toNat ∧ (∀ r ∈ [tSample, tSample], r.ok tAcquire10.latched) ∧
    ([0x00, 0xDF, 0x1F] : List Byte).length = tAcquire10.latched.p.toNat ∧
    (([0x00, 0xDF, 0x1F] : List Byte).all fun d => !d.getLsbD tAcquire10.latched.drdyBit.toNat) = true ∧
    tAcquire10.adc = [tSample, tSample].flatMap SampleRead.bytes ++ [0x00, 0xDF, 0x1F] ++ [] := by
  unfold JustAccepted SampleRead.ok; decide

/-- The largest size alone, and the smallest in RUN. -/
theorem wit_TransformWritesSpectrum :
    ((tBusy .transform none .fft (tPar 4096 0 0 0)).seq.phase = .fft ∧
      legalN (tBusy .transform none .fft (tPar 4096 0 0 0)).nMax
        (tBusy .transform none .fft (tPar 4096 0 0 0)).latched.n = true) ∧
    ((tBusy .run (some .transform) .fft (tPar 1 0 0 0)).seq.sub = some .transform ∧
      legalN (tBusy .run (some .transform) .fft (tPar 1 0 0 0)).nMax
        (tBusy .run (some .transform) .fft (tPar 1 0 0 0)).latched.n = true) := by decide

theorem wit_FftIsTheDft : ([0, 1] : List ℂ).length = 2 ^ 1 := rfl

/-- Finite twiddle parts. -/
theorem wit_ImpulseGivesOnes : ∀ _ _ : Nat, F64.isFinite (0x3FF0000000000000 : F64) = true ∧
    F64.isFinite (0x8000000000000000 : F64) = true := fun _ _ => by decide

/-- The least size, and the last index of size 4. -/
theorem wit_TwiddleAtZero : (1 ≤ 1 ∧ 0 < 1) ∧ (1 ≤ 4 ∧ 3 < 4) := by decide

/-- Legal parameters, with a window inside the buffer (S-1) and an empty request (S-7). -/
theorem wit_ScanWritesPeaks :
    (tBusy .scan none .scan tScanPar).seq.phase = .scan ∧
    legalN State.reset.nMax (latch tScanPar).n = true ∧ 1 ≤ (latch tScanPar).r.toNat ∧
    1 ≤ ((latch tScanPar).n.toNat : Int) - (latch tScanPar).k.toInt ∧ 1 ≤ (latch tScanPar).s.toNat ∧
    F64.isFinite (latch tScanPar).cf = true ∧ windowLo (latch tScanPar) ≤ windowHi (latch tScanPar) ∧
    max (windowLo (latch tScanPar)) 0 ≤ min (windowHi (latch tScanPar)) (((latch tScanPar).n.toNat : Int) - 1) ∧
    windowHi (latch { tScanPar with windowSize := 1 }) < windowLo (latch { tScanPar with windowSize := 1 }) := by
  decide +kernel

/-- Window sizes 2 and 3, the least of the even and of the odd that are not empty. -/
theorem wit_ScanWindowBounds :
    2 ≤ (latch { tScanPar with windowSize := 2 }).ws.toNat ∧ (latch { tScanPar with windowSize := 2 }).ws.toNat % 2 = 0 ∧
    3 ≤ (latch { tScanPar with windowSize := 3 }).ws.toNat ∧ (latch { tScanPar with windowSize := 3 }).ws.toNat % 2 = 1 := by
  decide

theorem wit_CenterBinIsRoundHalfAway : 1 ≤ 2 ∧ 1 ≤ (latch tScanPar).r.toNat ∧
    1 ≤ ((latch tScanPar).n.toNat : Int) - (latch tScanPar).k.toInt ∧ F64.isFinite (latch tScanPar).cf = true := by decide

/-- SCAN with BUF[3] = 12 and zeros in the rest of the window (S-1). -/
def tScan : State := (tBusy .scan none .scan tScanPar).setBufs 2 [⟨0, 0⟩, ⟨0x4028000000000000, 0⟩, ⟨0, 0⟩, ⟨0, 0⟩]

/-- SCAN and RUN in SCAN; one nonzero bin above the threshold (S-1), and a threshold below zero (S-2). -/
theorem wit_ScanLaws :
    ((tBusy .run (some .scan) .scan tScanPar).seq.sub = some .scan ∧
      (tBusy .run (some .scan) .scan tScanPar).seq.phase = .scan ∧
      legalN tScan.nMax tScan.latched.n = true ∧ 1 ≤ tScan.latched.r.toNat ∧
      1 ≤ (tScan.latched.n.toNat : Int) - tScan.latched.k.toInt ∧ 1 ≤ tScan.latched.s.toNat ∧
      F64.isFinite tScan.latched.cf = true ∧ windowLo tScan.latched ≤ windowHi tScan.latched) ∧
    tScan.seq.phase = .scan ∧ clampedLo tScan.latched ≤ clampedHi tScan.latched ∧
    (3 ∈ windowBins tScan.latched ∧
      fgt (magnitude (tScan.draws + 3) (tScan.buf 3) tScan.latched.s.toNat) tScan.latched.th = true ∧
      F64.isNaN tScan.latched.th = false ∧ 0 ≤ F64.orderKey tScan.latched.th ∧
      ∀ b ∈ windowBins tScan.latched, b ≠ 3 →
        (tScan.buf b).re.extractLsb' 0 63 = 0 ∧ (tScan.buf b).im.extractLsb' 0 63 = 0) ∧
    (F64.isNaN (latch { tScanPar with thresholdHi := 0xBFF00000 }).th = false ∧
      F64.orderKey (latch { tScanPar with thresholdHi := 0xBFF00000 }).th < 0) := by decide +kernel

/-- The phases of RUN's three sub-operations, and a RUN under the invariant. -/
theorem wit_RunIsItsSubOperations :
    (∃ t, exec .run (tBusy .run (some .acquire) .init (tPar 4 4 0 0)) = .next t) ∧
    (∃ t, exec .run (tBusy .run (some .transform) .fft (tPar 4 4 0 0)) = .next t) ∧
    (∃ t, exec .run (tBusy .run (some .scan) .scan (tPar 4 4 0 0)) = .next t) ∧
    (tBusy .run (some .transform) .fft (tPar 4 4 0 0)).Inv :=
  ⟨⟨_, rfl⟩, ⟨_, rfl⟩, ⟨_, rfl⟩, wit_inv_run⟩

/-- A core step that raises an error, and an ILLEGAL word. -/
theorem wit_ErrOpNamesTheOperation :
    ((tBusy .run (some .acquire) .init (tPar 4 5 0 0)).status.err = false ∧
      nextField (fun t => t.status.err) (exec .run (tBusy .run (some .acquire) .init (tPar 4 5 0 0))) = some true) ∧
    decode 0x000001FF = .error .reservedBits := by decide

/-- A core step that raises an error. -/
theorem wit_ErrorCausesAreExhaustive :
    (tBusy .scan none .scan { tScanPar with sampleRateHz := 0 }).status.err = false ∧
    nextField (fun t => t.status.errCode) (exec .scan (tBusy .scan none .scan { tScanPar with sampleRateHz := 0 })) =
      some 8 := by decide

theorem wit_CommandsReadOnlyTheLatch : ∃ t, exec .acquire (tBusy .acquire none .init (tPar 4 4 0 0)) = .next t := ⟨_, rfl⟩

/-- ACQUIRE at its start, with a byte of BUF that is not zero. -/
def tFill : State := { tBusy .acquire none .init (tPar 4 4 0 0) with mem := [(0x100000, 5)] }

/-- Its first step changes that byte. -/
theorem wit_CommandsStayInTheirEntries : tFill.Inv ∧ tFill.seq.op = some .acquire ∧
    (∃ t, exec .acquire tFill = .next t) ∧ tFill.byteAt 0x100000 = 5 ∧
    nextField (fun t => t.byteAt 0x100000) (exec .acquire tFill) = some 0 := by
  refine ⟨⟨by decide, by decide, by simp [tFill, tBusy, State.reset, storedOffset, Config.nMaxDefault], ?_, ?_, ?_, ?_, ?_, ?_,
    ?_, ?_, ?_, ?_, ?_, ?_, ?_, ?_⟩, rfl, ⟨_, rfl⟩, by decide, by decide +kernel⟩
  all_goals first
    | decide
    | simp [tFill, tBusy, State.reset, Status.legal, Status.codeLegal, Seq.legal, State.acquiring, State.pastAcquire,
        Phase.sampling, latch, tPar, Params.reset]

/-- READ_SAMPLE about to poll, under the invariant. -/
theorem wit_inv_poll : (tBusy .readSample none .poll Params.reset).Inv := by
  refine ⟨by decide, List.Pairwise.nil, by simp [tBusy, State.reset], ?_, ?_, ?_, ?_, ?_, ?_, ?_, ?_, ?_, ?_, ?_, ?_, ?_, ?_⟩
  all_goals first
    | decide
    | simp [tBusy, State.reset, Status.legal, Status.codeLegal, Seq.legal, State.acquiring, State.pastAcquire,
        Phase.sampling, latch, Params.reset]

/-- A step without a transaction, and a poll, whose BusRead is of the data-ready register. -/
theorem wit_OneTransactionPerStep :
    ((tBusy .run (some .transform) .fft (tPar 4 4 0 0)).Inv ∧
      ∃ t, step (tBusy .run (some .transform) .fft (tPar 4 4 0 0)) = .next t) ∧
    ((tBusy .readSample none .poll Params.reset).Inv ∧
      ∃ t, step (tBusy .readSample none .poll Params.reset) = .next t ∧ t.history.length = 1) :=
  ⟨⟨wit_inv_run, ⟨_, rfl⟩⟩, ⟨wit_inv_poll, ⟨_, rfl, rfl⟩⟩⟩

theorem wit_CommandsTerminate : ∀ i ∈ [Instr.nop, .readSample, .acquire, .transform, .scan, .run],
    JustAccepted i (tBusy i (firstSub i) (firstPhase i) (tPar 4 4 0 0)) := by
  unfold JustAccepted; decide

/-- Below the overflow bound and at it. -/
theorem wit_RoundingIsNearestEven : ¬ Overflows (2 ^ 1024 - 2 ^ 970 - 1) 1 ∧ Overflows (2 ^ 1024 - 2 ^ 970) 1 ∧
    Overflows (-(2 ^ 1024)) 1 := by
  unfold Overflows; decide +kernel

/-- Finite operands whose exact sum, difference and product do not overflow, with a zero sum; ones that overflow; zeros; and
infinities with a finite operand that is not zero and with each other. -/
theorem wit_ArithmeticIsCorrectlyRounded :
    (F64.isFinite 0x3FF0000000000000 = true ∧ F64.isFinite 0xBFF0000000000000 = true ∧
      ¬ Overflows (F64.scaled 0x3FF0000000000000 + F64.scaled 0xBFF0000000000000) f64Unit ∧
      ¬ Overflows (F64.scaled 0x3FF0000000000000 - F64.scaled 0xBFF0000000000000) f64Unit ∧
      ¬ Overflows (F64.scaled 0x3FF0000000000000 * F64.scaled 0xBFF0000000000000) (f64Unit * f64Unit) ∧
      F64.scaled 0x3FF0000000000000 + F64.scaled 0xBFF0000000000000 = 0) ∧
    (F64.isFinite 0x7FEFFFFFFFFFFFFF = true ∧ F64.isFinite 0xFFEFFFFFFFFFFFFF = true ∧
      Overflows (F64.scaled 0xFFEFFFFFFFFFFFFF + F64.scaled 0xFFEFFFFFFFFFFFFF) f64Unit ∧
      Overflows (F64.scaled 0x7FEFFFFFFFFFFFFF - F64.scaled 0xFFEFFFFFFFFFFFFF) f64Unit ∧
      Overflows (F64.scaled 0x7FEFFFFFFFFFFFFF * F64.scaled 0xFFEFFFFFFFFFFFFF) (f64Unit * f64Unit)) ∧
    (F64.scaled 0x8000000000000000 + F64.scaled 0x8000000000000000 = 0 ∧
      F64.scaled 0x8000000000000000 - F64.scaled 0 = 0) ∧
    (F64.isInf 0xFFF0000000000000 = true ∧ F64.scaled 0x3FF0000000000000 ≠ 0) ∧
    (F64.isInf 0x7FF0000000000000 = true ∧ F64.neg 0x7FF0000000000000 ≠ F64.neg 0xFFF0000000000000) := by
  unfold Overflows; decide +kernel

/-- A NaN, infinities of both signs and of one, and a zero. -/
theorem wit_InvalidOperationsGiveNaN :
    F64.isNaN 0x7FF8000000000000 = true ∧ F64.isInf 0x7FF0000000000000 = true ∧ F64.isInf 0xFFF0000000000000 = true ∧
    F64.neg 0x7FF0000000000000 ≠ F64.neg 0xFFF0000000000000 ∧
    (0x8000000000000000 : F64).extractLsb' 0 63 = 0 := by decide

/-- An infinite part beside a NaN, and a NaN beside a finite part. -/
theorem wit_MagnitudeIsNearest_special :
    (F64.isInf 0xFFF0000000000000 = true ∧ F64.isNaN 0x7FF8000000000000 = true) ∧
    (F64.isInf 0x7FF8000000000000 = false ∧ F64.isInf 0x3FF0000000000000 = false) := by decide

/-- With x for 2^970, y for 2^971 and z for 2^1024: where the overflow bound z - x lies. -/
theorem overflow_bound_order {p x y z : ℝ} (hx : 1 ≤ x) (hp : 4 ≤ p) (hy : y = 2 * x) (hz : z = p * x) :
    1 < z - x ∧ 0 ≤ z - y ∧ z - x ≤ 2 * (z - y) := by
  subst hy hz
  have : 4 * x ≤ p * x := mul_le_mul_of_nonneg_right hp (by linarith)
  exact ⟨by linarith, by linarith, by linarith⟩

/-- Finite parts with an exact magnitude below the overflow bound, here 2 * 5 / 10, and one past it. -/
theorem wit_MagnitudeIsNearest :
    (1 ≤ 10 ∧ F64.isFinite 0x4008000000000000 = true ∧ F64.isFinite 0x4010000000000000 = true ∧
      2 * Real.sqrt ((F64.scaled 0x4008000000000000 : ℝ) ^ 2 + (F64.scaled 0x4010000000000000 : ℝ) ^ 2) / (10 : Nat) <
        (2 ^ 1024 - 2 ^ 970 : ℝ) * f64Unit) ∧
    (1 ≤ 1 ∧ F64.isFinite 0x7FEFFFFFFFFFFFFF = true ∧ F64.isFinite 0 = true ∧
      (2 ^ 1024 - 2 ^ 970 : ℝ) * f64Unit ≤
        2 * Real.sqrt ((F64.scaled 0x7FEFFFFFFFFFFFFF : ℝ) ^ 2 + (F64.scaled 0 : ℝ) ^ 2) / (1 : Nat)) := by
  have h3 : F64.scaled 0x4008000000000000 = 3 * f64Unit := by decide +kernel
  have h4 : F64.scaled 0x4010000000000000 = 4 * f64Unit := by decide +kernel
  have h0 : F64.scaled 0 = 0 := by decide +kernel
  have hm : F64.scaled 0x7FEFFFFFFFFFFFFF = (2 ^ 1024 - 2 ^ 971) * f64Unit := by decide +kernel
  have hpos : (0 : ℝ) < (f64Unit : ℝ) := by
    have : 0 < f64Unit := by decide +kernel
    exact_mod_cast this
  have hx : (1 : ℝ) ≤ 2 ^ 970 := one_le_pow₀ (by norm_num)
  have h1024 : (2 : ℝ) ^ 1024 = 2 ^ 54 * 2 ^ 970 := by rw [show 1024 = 54 + 970 from rfl, pow_add]
  have h971 : (2 : ℝ) ^ 971 = 2 * 2 ^ 970 := by rw [show 971 = 1 + 970 from rfl, pow_add, pow_one]
  obtain ⟨hlow, hmax, hhigh⟩ := overflow_bound_order hx (by norm_num : (4 : ℝ) ≤ 2 ^ 54) h971 h1024
  refine ⟨⟨by decide, by decide, by decide, ?_⟩, ⟨by decide, by decide, by decide, ?_⟩⟩
  · rw [h3, h4]
    push_cast
    rw [show (3 * (f64Unit : ℝ)) ^ 2 + (4 * (f64Unit : ℝ)) ^ 2 = (5 * (f64Unit : ℝ)) ^ 2 by ring,
      Real.sqrt_sq (by positivity), show 2 * (5 * (f64Unit : ℝ)) / 10 = 1 * (f64Unit : ℝ) by ring]
    exact mul_lt_mul_of_pos_right hlow hpos
  · rw [h0, hm, Int.cast_mul, Int.cast_sub, Int.cast_pow, Int.cast_pow, Int.cast_natCast, Int.cast_zero, Int.cast_ofNat,
      Nat.cast_one]
    have hb : (0 : ℝ) ≤ (2 ^ 1024 - 2 ^ 971) * (f64Unit : ℝ) := mul_nonneg hmax hpos.le
    rw [zero_pow (by decide), add_zero, Real.sqrt_sq hb, div_one, ← mul_assoc]
    exact mul_le_mul_of_nonneg_right hhigh hpos.le

theorem wit_GreaterThanIsOrdered : F64.isNaN 0x7FF8000000000000 = true ∧ F64.isFinite 0x3FF0000000000000 = true ∧
    fgt 0x3FF0000000000000 0xBFF0000000000000 = true := by decide +kernel

/-- The angle of TWIDDLE(1, 4): the two partial sums round alike for cos and for sin. -/
theorem wit_CosSinCorrectlyRounded :
    F64.isFinite (twiddleAngle 1 4) = true ∧ F64.neg (twiddleAngle 1 4) = false ∧
    rneFrac (cosPartial (F64.magScaled (twiddleAngle 1 4)) 23).1 (cosPartial (F64.magScaled (twiddleAngle 1 4)) 23).2 =
      rneFrac (cosPartial (F64.magScaled (twiddleAngle 1 4)) 24).1
        (cosPartial (F64.magScaled (twiddleAngle 1 4)) 24).2 ∧
    F64.isFinite (rneFrac (cosPartial (F64.magScaled (twiddleAngle 1 4)) 23).1
      (cosPartial (F64.magScaled (twiddleAngle 1 4)) 23).2) = true ∧
    rneFrac (sinPartial (F64.magScaled (twiddleAngle 1 4)) 23).1 (sinPartial (F64.magScaled (twiddleAngle 1 4)) 23).2 =
      rneFrac (sinPartial (F64.magScaled (twiddleAngle 1 4)) 24).1
        (sinPartial (F64.magScaled (twiddleAngle 1 4)) 24).2 ∧
    F64.isFinite (rneFrac (sinPartial (F64.magScaled (twiddleAngle 1 4)) 23).1
      (sinPartial (F64.magScaled (twiddleAngle 1 4)) 23).2) = true := by decide +kernel

end Sys2Proof.Machine
end

/-! # Scope and numerics: the statements of 00_scope -/

namespace Sys2Proof.Machine

/-! ## Binary64

The facts of the binary64 format (00_scope R10) that rounding rests on: a value is its sign and its pattern (bits
62:0), and the scaled magnitude of a pattern grows with the pattern, also across the end of a binade. -/

/-! ### Sign and pattern -/

/-- Bits 62:0 of a binary64 value. -/
def F64.pattern (x : F64) : Nat := x.toNat % 2 ^ 63

theorem F64.pattern_lt (x : F64) : F64.pattern x < 2 ^ 63 := Nat.mod_lt _ (by decide)

theorem F64.toNat_extractLsb' (x : F64) : (x.extractLsb' 0 63).toNat = F64.pattern x := by
  rw [BitVec.extractLsb'_toNat, Nat.shiftRight_zero, F64.pattern]

theorem F64.neg_eq (x : F64) : F64.neg x = decide (2 ^ 63 ≤ x.toNat) := BitVec.msb_eq_decide x

theorem F64.expField_eq (x : F64) : F64.expField x = F64.pattern x / 2 ^ 52 := by
  simp only [F64.expField, F64.pattern, BitVec.extractLsb'_toNat, Nat.shiftRight_eq_div_pow]
  omega

theorem F64.fracField_eq (x : F64) : F64.fracField x = F64.pattern x % 2 ^ 52 := by
  simp only [F64.fracField, F64.pattern, BitVec.extractLsb'_toNat, Nat.shiftRight_zero]
  omega

theorem F64.toNat_eq (x : F64) : x.toNat = (if F64.neg x then 2 ^ 63 else 0) + F64.pattern x := by
  have hlt := x.isLt
  simp only [F64.neg_eq, F64.pattern, decide_eq_true_eq]
  split <;> omega

theorem F64.eq_of_neg_of_pattern {x y : F64} (hneg : F64.neg x = F64.neg y) (hpat : F64.pattern x = F64.pattern y) :
    x = y :=
  BitVec.eq_of_toNat_eq (by rw [F64.toNat_eq x, F64.toNat_eq y, hneg, hpat])

theorem F64.toNat_ofSignMag (s : Bool) {p : Nat} (h : p < 2 ^ 63) :
    (F64.ofSignMag s p).toNat = (if s then 2 ^ 63 else 0) + p := by
  rw [F64.ofSignMag, BitVec.toNat_ofNat, Nat.mod_eq_of_lt]
  split <;> omega

theorem F64.neg_ofSignMag (s : Bool) {p : Nat} (h : p < 2 ^ 63) : F64.neg (F64.ofSignMag s p) = s := by
  rw [F64.neg_eq, F64.toNat_ofSignMag s h]
  cases s
  · simpa using h
  · simp

theorem F64.pattern_ofSignMag (s : Bool) {p : Nat} (h : p < 2 ^ 63) : F64.pattern (F64.ofSignMag s p) = p := by
  rw [F64.pattern, F64.toNat_ofSignMag s h]
  split <;> omega

theorem F64.ofSignMag_neg_pattern (x : F64) : F64.ofSignMag (F64.neg x) (F64.pattern x) = x :=
  F64.eq_of_neg_of_pattern (F64.neg_ofSignMag _ (F64.pattern_lt x)) (F64.pattern_ofSignMag _ (F64.pattern_lt x))

theorem F64.lastBit_eq (x : F64) : x.getLsbD 0 = decide (F64.pattern x % 2 = 1) := by
  rw [← BitVec.testBit_toNat, Nat.testBit_zero, F64.pattern, Nat.mod_mod_of_dvd _ (by decide)]

/-! ### The classes of values -/

theorem F64.isFinite_iff {x : F64} : F64.isFinite x = true ↔ F64.pattern x < 2047 * 2 ^ 52 := by
  have := F64.pattern_lt x
  simp only [F64.isFinite, F64.expField_eq, bne_iff_ne]
  omega

theorem F64.isInf_iff {x : F64} : F64.isInf x = true ↔ F64.pattern x = 2047 * 2 ^ 52 := by
  simp only [F64.isInf, F64.expField_eq, F64.fracField_eq, Bool.and_eq_true, beq_iff_eq]
  omega

theorem F64.isNaN_iff {x : F64} : F64.isNaN x = true ↔ 2047 * 2 ^ 52 < F64.pattern x := by
  have := F64.pattern_lt x
  simp only [F64.isNaN, F64.expField_eq, F64.fracField_eq, Bool.and_eq_true, beq_iff_eq, bne_iff_ne]
  omega

theorem F64.isInf_of_isFinite {x : F64} (h : F64.isFinite x = true) : F64.isInf x = false := by
  rw [F64.isFinite_iff] at h
  rw [← Bool.not_eq_true, F64.isInf_iff]
  omega

theorem F64.isNaN_of_isFinite {x : F64} (h : F64.isFinite x = true) : F64.isNaN x = false := by
  rw [F64.isFinite_iff] at h
  rw [← Bool.not_eq_true, F64.isNaN_iff]
  omega

theorem F64.isNaN_of_isInf {x : F64} (h : F64.isInf x = true) : F64.isNaN x = false := by
  rw [F64.isInf_iff] at h
  rw [← Bool.not_eq_true, F64.isNaN_iff]
  omega

/-- An infinity is known by its sign. -/
theorem F64.eq_ofSignMag_of_isInf {x : F64} (h : F64.isInf x = true) :
    x = F64.ofSignMag (F64.neg x) (2047 * 2 ^ 52) := by
  rw [← F64.isInf_iff.mp h, F64.ofSignMag_neg_pattern]

/-! ### The scaled magnitude of a pattern -/

/-- The magnitude, times 2^1074, that a pattern stands for; as if the exponent had no end. -/
def patternValue (p : Nat) : Nat :=
  if p / 2 ^ 52 = 0 then p % 2 ^ 52 else (2 ^ 52 + p % 2 ^ 52) * 2 ^ (p / 2 ^ 52 - 1)

theorem F64.magScaled_eq (x : F64) : F64.magScaled x = patternValue (F64.pattern x) := by
  rw [F64.magScaled, F64.expField_eq, F64.fracField_eq, patternValue]

/-- A significand of at most 53 bits, or the carry 2^53 out of them, above the exponent it belongs to. -/
theorem patternValue_significand {E m : Nat} (hm : m ≤ 2 ^ 53) (hE : E = 0 ∨ 2 ^ 52 ≤ m) :
    patternValue (E * 2 ^ 52 + m) = m * 2 ^ E := by
  rw [patternValue]
  rcases Nat.lt_or_ge m (2 ^ 52) with hsub | hnormal
  · obtain rfl : E = 0 := by omega
    rw [if_pos (by omega), Nat.zero_mul, Nat.zero_add, Nat.mod_eq_of_lt hsub, pow_zero, mul_one]
  · rcases Nat.lt_or_ge m (2 ^ 53) with h53 | hcarry
    · have hexp : (E * 2 ^ 52 + m) / 2 ^ 52 = E + 1 := by omega
      have hfrac : 2 ^ 52 + (E * 2 ^ 52 + m) % 2 ^ 52 = m := by omega
      rw [hexp, hfrac, if_neg (by omega), Nat.add_sub_cancel]
    · have hexp : (E * 2 ^ 52 + m) / 2 ^ 52 = E + 2 := by omega
      have hfrac : 2 ^ 52 + (E * 2 ^ 52 + m) % 2 ^ 52 = 2 ^ 52 := by omega
      rw [hexp, hfrac, if_neg (by omega), le_antisymm hm hcarry, show E + 2 - 1 = E + 1 by omega, pow_succ 2 E]
      ring

/-- Every pattern is a significand above an exponent. -/
theorem exists_significand (p : Nat) : ∃ E m, p = E * 2 ^ 52 + m ∧ m < 2 ^ 53 ∧ (E = 0 ∨ 2 ^ 52 ≤ m) :=
  ⟨p / 2 ^ 52 - 1, p - (p / 2 ^ 52 - 1) * 2 ^ 52, by omega, by omega, by omega⟩

theorem patternValue_strictMono : StrictMono patternValue := by
  refine strictMono_nat_of_lt_succ fun p => ?_
  obtain ⟨E, m, rfl, hm, hE⟩ := exists_significand p
  rw [Nat.add_assoc, patternValue_significand hm.le hE, patternValue_significand hm (by omega)]
  exact Nat.mul_lt_mul_of_pos_right (Nat.lt_succ_self m) (Nat.two_pow_pos E)

@[simp] theorem patternValue_zero : patternValue 0 = 0 := by decide

theorem F64.scaled_eq (x : F64) :
    F64.scaled x = if F64.neg x then -(patternValue (F64.pattern x) : Int) else patternValue (F64.pattern x) := by
  rw [F64.scaled, F64.magScaled_eq]

theorem F64.natAbs_scaled (x : F64) : (F64.scaled x).natAbs = F64.magScaled x := by
  rw [F64.scaled]
  split <;> simp

theorem F64.scaled_cast (x : F64) :
    (F64.scaled x : ℝ) = if F64.neg x then -(patternValue (F64.pattern x) : ℝ) else patternValue (F64.pattern x) := by
  rw [F64.scaled_eq]
  split <;> push_cast <;> rfl

/-! ### The sign bit flipped -/

@[simp] theorem F64.neg_fneg (x : F64) : F64.neg (fneg x) = !F64.neg x := by
  simp [F64.neg, fneg]

@[simp] theorem F64.pattern_fneg (x : F64) : F64.pattern (fneg x) = F64.pattern x := by
  rw [fneg, F64.pattern, F64.pattern, BitVec.toNat_xor, Nat.xor_mod_two_pow]
  exact Nat.xor_zero _

@[simp] theorem F64.scaled_fneg (x : F64) : F64.scaled (fneg x) = -F64.scaled x := by
  rw [F64.scaled_eq, F64.scaled_eq, F64.neg_fneg, F64.pattern_fneg]
  cases F64.neg x <;> simp

theorem F64.isFinite_fneg (x : F64) : F64.isFinite (fneg x) = F64.isFinite x := by
  rw [Bool.eq_iff_iff, F64.isFinite_iff, F64.isFinite_iff, F64.pattern_fneg]

theorem F64.isNaN_fneg (x : F64) : F64.isNaN (fneg x) = F64.isNaN x := by
  rw [Bool.eq_iff_iff, F64.isNaN_iff, F64.isNaN_iff, F64.pattern_fneg]

theorem F64.isInf_fneg (x : F64) : F64.isInf (fneg x) = F64.isInf x := by
  rw [Bool.eq_iff_iff, F64.isInf_iff, F64.isInf_iff, F64.pattern_fneg]

theorem F64.lastBit_fneg (x : F64) : (fneg x).getLsbD 0 = x.getLsbD 0 := by
  rw [F64.lastBit_eq, F64.lastBit_eq, F64.pattern_fneg]

theorem F64.fneg_ofSignMag (s : Bool) {p : Nat} (h : p < 2 ^ 63) : fneg (F64.ofSignMag s p) = F64.ofSignMag (!s) p :=
  F64.eq_of_neg_of_pattern (by rw [F64.neg_fneg, F64.neg_ofSignMag s h, F64.neg_ofSignMag _ h])
    (by rw [F64.pattern_fneg, F64.pattern_ofSignMag s h, F64.pattern_ofSignMag _ h])

theorem fneg_fneg (x : F64) : fneg (fneg x) = x :=
  F64.eq_of_neg_of_pattern (by simp) (by simp)

/-! ## Rounding

Round to nearest, ties to even, of an exact real (00_scope R11): what a rounded pattern is, and that the model's
`rneMag` (a quotient) and `rneSqrtMag` (a root of a quotient) give it. All values are scaled by 2^1074. -/

/-! ### Rounding without an overflow -/

/-- The pattern `p` is one nearest to `v`, and is even if another is as near. Patterns have no end here. -/
def IsNearestPattern (v : ℝ) (p : Nat) : Prop :=
  ∀ p' : Nat, |v - patternValue p| ≤ |v - patternValue p'| ∧
    (|v - patternValue p| = |v - patternValue p'| → p' ≠ p → p % 2 = 0)

theorem patternValue_cast_le {p p' : Nat} (h : p ≤ p') : (patternValue p : ℝ) ≤ patternValue p' := by
  exact_mod_cast patternValue_strictMono.monotone h

theorem patternValue_cast_lt {p p' : Nat} (h : p < p') : (patternValue p : ℝ) < patternValue p' := by
  exact_mod_cast patternValue_strictMono h

/-- Between two neighbours the lower one is right below the midpoint, and at it if it is even. -/
theorem isNearestPattern_lower {v : ℝ} {p : Nat} (hlo : (patternValue p : ℝ) ≤ v)
    (hmid : 2 * v ≤ patternValue p + patternValue (p + 1))
    (htie : 2 * v = patternValue p + patternValue (p + 1) → p % 2 = 0) : IsNearestPattern v p := by
  intro p'
  rw [abs_of_nonneg (sub_nonneg.mpr hlo)]
  rcases lt_or_ge p p' with habove | hbelow
  · have hle := patternValue_cast_le (Nat.succ_le_of_lt habove)
    rw [abs_of_nonpos (by linarith)]
    exact ⟨by linarith, fun heq _ => htie (by linarith)⟩
  · have hle := patternValue_cast_le hbelow
    rw [abs_of_nonneg (by linarith)]
    refine ⟨by linarith, fun heq hne => ?_⟩
    have hlt := patternValue_cast_lt (lt_of_le_of_ne hbelow hne)
    linarith

/-- Between two neighbours the upper one is right above the midpoint, and at it if it is even. -/
theorem isNearestPattern_upper {v : ℝ} {p : Nat} (hhi : v < patternValue (p + 1))
    (hmid : patternValue p + patternValue (p + 1) ≤ 2 * v)
    (htie : 2 * v = patternValue p + patternValue (p + 1) → (p + 1) % 2 = 0) : IsNearestPattern v (p + 1) := by
  intro p'
  rw [abs_of_nonpos (sub_nonpos.mpr hhi.le)]
  rcases lt_or_ge p p' with habove | hbelow
  · have hle := patternValue_cast_le (Nat.succ_le_of_lt habove)
    rw [abs_of_nonpos (by linarith)]
    refine ⟨by linarith, fun heq hne => ?_⟩
    have hlt := patternValue_cast_lt (lt_of_le_of_ne (Nat.succ_le_of_lt habove) hne.symm)
    linarith
  · have hle := patternValue_cast_le hbelow
    rw [abs_of_nonneg (by linarith)]
    exact ⟨by linarith, fun heq _ => htie (by linarith)⟩

theorem isNearestPattern_zero : IsNearestPattern 0 0 := by
  intro p'
  simp

/-- Rounding by the significand: `x` is the value in units of the last place, `m` its floor, and `up` says that it lies
above the midpoint, or at it when `m` is odd. -/
theorem isNearestPattern_significand {x : ℝ} {E m : Nat} {up : Bool} (hm : m < 2 ^ 53) (hE : E = 0 ∨ 2 ^ 52 ≤ m)
    (hlo : m ≤ x) (hhi : x < m + 1)
    (hup : up = true ↔ 2 * (m : ℝ) + 1 < 2 * x ∨ (2 * (m : ℝ) + 1 = 2 * x ∧ m % 2 = 1)) :
    IsNearestPattern (x * 2 ^ E) (E * 2 ^ 52 + m + (if up then 1 else 0)) := by
  have hpow : (0 : ℝ) < 2 ^ E := by positivity
  have hval : (patternValue (E * 2 ^ 52 + m) : ℝ) = m * 2 ^ E := by
    rw [patternValue_significand hm.le hE]; push_cast; rfl
  have hsucc : (patternValue (E * 2 ^ 52 + m + 1) : ℝ) = (m + 1) * 2 ^ E := by
    rw [Nat.add_assoc, patternValue_significand hm (by omega)]; push_cast; rfl
  have hlo' : (patternValue (E * 2 ^ 52 + m) : ℝ) ≤ x * 2 ^ E := by
    rw [hval]; exact mul_le_mul_of_nonneg_right hlo hpow.le
  have hhi' : x * 2 ^ E < patternValue (E * 2 ^ 52 + m + 1) := by
    rw [hsucc]; exact mul_lt_mul_of_pos_right hhi hpow
  have hsum : (patternValue (E * 2 ^ 52 + m) : ℝ) + patternValue (E * 2 ^ 52 + m + 1) = (2 * m + 1) * 2 ^ E := by
    rw [hval, hsucc]; ring
  have htwice : 2 * (x * 2 ^ E) = 2 * x * 2 ^ E := by ring
  cases up with
  | false =>
    have hnot := mt hup.mpr (by decide)
    push Not at hnot
    rw [if_neg (by decide), Nat.add_zero]
    refine isNearestPattern_lower hlo' ?_ fun htie => ?_
    · rw [hsum, htwice]
      exact mul_le_mul_of_nonneg_right hnot.1 hpow.le
    · rw [hsum, htwice] at htie
      have hodd := hnot.2 (mul_right_cancel₀ hpow.ne' htie).symm
      omega
  | true =>
    rw [if_pos rfl]
    refine isNearestPattern_upper hhi' ?_ fun htie => ?_
    · rw [hsum, htwice]
      exact mul_le_mul_of_nonneg_right ((hup.mp rfl).elim le_of_lt fun h => h.1.le) hpow.le
    · rw [hsum, htwice] at htie
      have hmid := mul_right_cancel₀ hpow.ne' htie
      rcases hup.mp rfl with habove | ⟨-, hodd⟩
      · exact absurd hmid habove.ne'
      · omega

/-! ### The overflow bound -/

/-- The value from which an exact value rounds to infinity (00_scope R11), times 2^1074. -/
def overflowBound : ℝ := (2 ^ 1024 - 2 ^ 970) * f64Unit

theorem f64Unit_cast : (f64Unit : ℝ) = 2 ^ 1074 := by
  rw [f64Unit, Nat.cast_pow, Nat.cast_ofNat]

/-- The bound is the midpoint between the largest finite value and the one that would come after it. -/
theorem two_mul_overflowBound :
    2 * overflowBound = patternValue (2047 * 2 ^ 52 - 1) + patternValue (2047 * 2 ^ 52) := by
  have hmax : patternValue (2047 * 2 ^ 52 - 1) = 9007199254740991 * 2 ^ 2045 := by
    rw [show 2047 * 2 ^ 52 - 1 = 2045 * 2 ^ 52 + 9007199254740991 by decide,
      patternValue_significand (by decide) (by decide)]
  have hinf : patternValue (2047 * 2 ^ 52) = 2 ^ 53 * 2 ^ 2045 := by
    rw [show 2047 * 2 ^ 52 = 2045 * 2 ^ 52 + 2 ^ 53 by decide, patternValue_significand (by decide) (by decide)]
  have hgap (k : Nat) : ((2 : ℝ) ^ (k + 54) - 2 ^ k) = (2 ^ 54 - 1) * 2 ^ k := by rw [pow_add]; ring
  rw [overflowBound, f64Unit_cast, hmax, hinf]
  simp only [Nat.cast_mul, Nat.cast_pow, Nat.cast_ofNat]
  rw [hgap 970, mul_assoc _ (2 ^ 970), ← pow_add, pow_succ (2 : ℝ) 2044]
  generalize (2 : ℝ) ^ 2044 = x
  ring

/-- Rounding stays finite exactly below the overflow bound: at the bound the largest finite pattern ties, and is odd. -/
theorem IsNearestPattern.lt_infinity_iff {v : ℝ} {p : Nat} (h : IsNearestPattern v p) :
    p < 2047 * 2 ^ 52 ↔ v < overflowBound := by
  have hbound := two_mul_overflowBound
  have hgap := patternValue_cast_lt (show 2047 * 2 ^ 52 - 1 < 2047 * 2 ^ 52 by decide)
  constructor
  · intro hp
    by_contra! hv
    obtain ⟨hnear, heven⟩ := h (2047 * 2 ^ 52)
    have hmax : (patternValue p : ℝ) ≤ patternValue (2047 * 2 ^ 52 - 1) := patternValue_cast_le (by omega)
    rw [abs_of_nonneg (by linarith)] at hnear heven
    rcases le_total (patternValue (2047 * 2 ^ 52) : ℝ) v with habove | hbelow
    · rw [abs_of_nonneg (by linarith)] at hnear
      linarith
    · rw [abs_of_nonpos (by linarith)] at hnear heven
      have hp_max : patternValue p = patternValue (2047 * 2 ^ 52 - 1) := by
        exact_mod_cast le_antisymm hmax (by linarith)
      have hodd := patternValue_strictMono.injective hp_max
      have := heven (by linarith) (by omega)
      omega
  · intro hv
    by_contra! hp
    obtain ⟨hnear, -⟩ := h (2047 * 2 ^ 52 - 1)
    have hinf := patternValue_cast_le hp
    rw [abs_of_nonpos (by linarith)] at hnear
    rcases le_total (patternValue (2047 * 2 ^ 52 - 1) : ℝ) v with habove | hbelow
    · rw [abs_of_nonneg (by linarith)] at hnear
      linarith
    · rw [abs_of_nonpos (by linarith)] at hnear
      linarith

/-- `p` is the rounded pattern of `v`, where all that is past the largest finite value is infinity. -/
def RoundsTo (v : ℝ) (p : Nat) : Prop :=
  ∃ unbounded, IsNearestPattern v unbounded ∧ p = min unbounded (2047 * 2 ^ 52)

theorem roundsTo_zero : RoundsTo 0 0 := ⟨0, isNearestPattern_zero, rfl⟩

theorem RoundsTo.le_infinity {v : ℝ} {p : Nat} (h : RoundsTo v p) : p ≤ 2047 * 2 ^ 52 := by
  obtain ⟨unbounded, -, rfl⟩ := h
  exact min_le_right _ _

theorem RoundsTo.lt_two_pow {v : ℝ} {p : Nat} (h : RoundsTo v p) : p < 2 ^ 63 :=
  h.le_infinity.trans_lt (by decide)

theorem RoundsTo.eq_infinity {v : ℝ} {p : Nat} (h : RoundsTo v p) (hv : overflowBound ≤ v) : p = 2047 * 2 ^ 52 := by
  obtain ⟨unbounded, hnear, rfl⟩ := h
  exact min_eq_right (not_lt.mp fun hlt => hv.not_gt (hnear.lt_infinity_iff.mp hlt))

theorem RoundsTo.finite {v : ℝ} {p : Nat} (h : RoundsTo v p) (hv : v < overflowBound) :
    p < 2047 * 2 ^ 52 ∧ IsNearestPattern v p := by
  obtain ⟨unbounded, hnear, rfl⟩ := h
  have hlt := hnear.lt_infinity_iff.mpr hv
  rw [min_eq_left hlt.le]
  exact ⟨hlt, hnear⟩

/-! ### A nearest binary64 value -/

/-- `x` is a finite binary64 value nearest to the exact `v`, and has an even last bit if another is as near. -/
def IsNearestReal (v : ℝ) (x : F64) : Prop :=
  F64.isFinite x = true ∧
  ∀ y : F64, F64.isFinite y = true →
    |v - F64.scaled x| ≤ |v - F64.scaled y| ∧
    (|v - F64.scaled x| = |v - F64.scaled y| → F64.scaled y ≠ F64.scaled x → x.getLsbD 0 = false)

/-- Rounding to nearest is symmetric about zero. -/
theorem IsNearestReal.fneg {v : ℝ} {x : F64} (h : IsNearestReal v x) : IsNearestReal (-v) (fneg x) := by
  obtain ⟨hfin, hnear⟩ := h
  refine ⟨by rwa [F64.isFinite_fneg], fun y hy => ?_⟩
  have hdist (z : F64) : |-v - (F64.scaled (Machine.fneg z) : ℝ)| = |v - F64.scaled z| := by
    rw [F64.scaled_fneg, ← abs_neg]; push_cast; ring_nf
  obtain ⟨hle, heven⟩ := hnear (Machine.fneg y) (by rwa [F64.isFinite_fneg])
  rw [← hdist, ← hdist (Machine.fneg y), fneg_fneg] at hle heven
  refine ⟨hle, fun heq hne => ?_⟩
  rw [F64.lastBit_fneg]
  refine heven heq fun hsame => hne ?_
  rw [F64.scaled_fneg, ← hsame, F64.scaled_fneg, neg_neg]

/-- For a value that is not negative the finite values of the other sign are no nearer. -/
theorem isNearestReal_of_pattern {v : ℝ} {p : Nat} (hv : 0 ≤ v) (hp : p < 2047 * 2 ^ 52) (h : IsNearestPattern v p) :
    IsNearestReal v (F64.ofSignMag false p) := by
  have hp63 : p < 2 ^ 63 := hp.trans (by decide)
  have hscaled : (F64.scaled (F64.ofSignMag false p) : ℝ) = patternValue p := by
    rw [F64.scaled_cast, F64.neg_ofSignMag _ hp63, F64.pattern_ofSignMag _ hp63]; rfl
  refine ⟨by rwa [F64.isFinite_iff, F64.pattern_ofSignMag _ hp63], fun y hy => ?_⟩
  rw [hscaled, F64.lastBit_eq, F64.pattern_ofSignMag _ hp63, decide_eq_false_iff_not, Nat.mod_two_not_eq_one]
  have hy0 : (0 : ℝ) ≤ patternValue (F64.pattern y) := Nat.cast_nonneg _
  rw [F64.scaled_cast y]
  split
  · obtain ⟨hle, heven⟩ := h 0
    rw [patternValue_zero, Nat.cast_zero, sub_zero, abs_of_nonneg hv] at hle heven
    rw [sub_neg_eq_add, abs_of_nonneg (add_nonneg hv hy0)]
    refine ⟨by linarith, fun heq _ => ?_⟩
    rcases eq_or_ne p 0 with rfl | hp0
    · rfl
    · exact heven (by linarith) hp0.symm
  · rename_i hneg
    obtain ⟨hle, heven⟩ := h (F64.pattern y)
    refine ⟨hle, fun heq hne => heven heq fun hsame => hne ?_⟩
    rw [F64.scaled_eq, F64.scaled_eq, F64.neg_ofSignMag _ hp63, F64.pattern_ofSignMag _ hp63, if_neg hneg, hsame]
    rfl

/-- What a rounded pattern means, with the sign put to it: below the overflow bound a nearest value. -/
theorem RoundsTo.isNearestReal {v : ℝ} {p : Nat} (h : RoundsTo v p) (h0 : 0 ≤ v) (hv : v < overflowBound) (s : Bool) :
    IsNearestReal (if s then -v else v) (F64.ofSignMag s p) := by
  obtain ⟨hp, hnear⟩ := h.finite hv
  have hpos := isNearestReal_of_pattern h0 hp hnear
  cases s with
  | false => exact hpos
  | true => simpa [F64.fneg_ofSignMag false h.lt_two_pow] using hpos.fneg

/-! ### Exponents -/

theorem zpow_eq_toNat_div {c : ℝ} (hc : c ≠ 0) (k : Int) : c ^ k = c ^ k.toNat / c ^ (-k).toNat := by
  have hsplit : k = (k.toNat : Int) - ((-k).toNat : Int) := by omega
  conv_lhs => rw [hsplit]
  rw [zpow_sub₀ hc, zpow_natCast, zpow_natCast]

/-- The fraction that a rounding works on is the exact one in units of the last place. -/
theorem scaledFraction_eq (a b c : Nat) (hc : c ≠ 0) (q : Int) :
    ((a * c ^ (-q).toNat : Nat) : ℝ) / ((b * c ^ q.toNat : Nat) : ℝ) = a / b * (c : ℝ) ^ (-q) := by
  rw [zpow_eq_toNat_div (by exact_mod_cast hc), neg_neg]
  push_cast
  rw [mul_div_mul_comm]

theorem ilog2_bounds {n : Nat} (h : n ≠ 0) : 2 ^ ilog2 n ≤ n ∧ n < 2 ^ (ilog2 n + 1) := by
  rw [ilog2_eq_log2 n h]
  exact (Nat.log2_eq_iff h).mp rfl

/-- `floorLog2 a b` is the exponent of the binade of `a / b`. -/
theorem floorLog2_spec {a b : Nat} (ha : a ≠ 0) (hb : b ≠ 0) :
    (2 : ℝ) ^ floorLog2 a b ≤ (a : ℝ) / b ∧ (a : ℝ) / b < 2 ^ (floorLog2 a b + 1) := by
  obtain ⟨ha1, ha2⟩ := ilog2_bounds ha
  obtain ⟨hb1, hb2⟩ := ilog2_bounds hb
  have hbpos : (0 : ℝ) < b := by exact_mod_cast Nat.pos_of_ne_zero hb
  have ha1' : (2 : ℝ) ^ (ilog2 a : Int) ≤ a := by exact_mod_cast ha1
  have ha2' : (a : ℝ) < 2 ^ ((ilog2 a : Int) + 1) := by exact_mod_cast ha2
  have hb1' : (2 : ℝ) ^ (ilog2 b : Int) ≤ b := by exact_mod_cast hb1
  have hb2' : (b : ℝ) < 2 ^ ((ilog2 b : Int) + 1) := by exact_mod_cast hb2
  rw [floorLog2]
  generalize hk : (ilog2 a : Int) - ilog2 b = k
  have hupper : (a : ℝ) / b < 2 ^ (k + 1) := by
    rw [show k + 1 = ((ilog2 a : Int) + 1) - ilog2 b by omega, zpow_sub₀ two_ne_zero]
    exact div_lt_div₀ ha2' hb1' (by positivity) (by positivity)
  have hlower : (2 : ℝ) ^ (k - 1) < (a : ℝ) / b := by
    rw [show k - 1 = (ilog2 a : Int) - ((ilog2 b : Int) + 1) by omega, zpow_sub₀ two_ne_zero]
    exact div_lt_div₀' ha1' hb2' ((zpow_pos two_pos _).trans_le ha1') hbpos
  have htest : b * 2 ^ k.toNat ≤ a * 2 ^ (-k).toNat ↔ (2 : ℝ) ^ k ≤ (a : ℝ) / b := by
    rw [zpow_eq_toNat_div two_ne_zero, div_le_div_iff₀ (by positivity) hbpos, mul_comm _ (b : ℝ)]
    exact_mod_cast Iff.rfl
  split
  · rename_i h
    exact ⟨htest.mp h, hupper⟩
  · rename_i h
    rw [htest, not_le] at h
    exact ⟨hlower.le, by rwa [sub_add_cancel]⟩

/-! ### The model's roundings -/

/-- One unit of the last place, times 2^1074. -/
theorem two_pow_lastPlace (e : Int) : (2 : ℝ) ^ (lastPlace e + 1074).toNat = 2 ^ lastPlace e * f64Unit := by
  have hq : -1074 ≤ lastPlace e := le_max_right _ _
  rw [← zpow_natCast, Int.toNat_of_nonneg (by omega), zpow_add₀ two_ne_zero, f64Unit_cast, ← zpow_natCast _ 1074]
  rfl

/-- Below the end of the binade a value has at most 53 bits above the last place. -/
theorem lt_of_binade {x : ℝ} {e : Int} (hhi : x < 2 ^ (e + 1)) : x * 2 ^ (-lastPlace e) < 2 ^ 53 := by
  have hq : lastPlace e = max (e - 52) (-1074) := rfl
  calc x * 2 ^ (-lastPlace e) < 2 ^ (e + 1) * 2 ^ (-lastPlace e) := mul_lt_mul_of_pos_right hhi (by positivity)
    _ = 2 ^ (e + 1 - lastPlace e) := by rw [← zpow_add₀ two_ne_zero, sub_eq_add_neg]
    _ ≤ 2 ^ ((53 : Nat) : Int) := zpow_le_zpow_right₀ one_le_two (by omega)
    _ = 2 ^ 53 := zpow_natCast _ _

/-- Rounding in the binade of `2^e`: `m` is the floor of `x` in units of the last place. -/
theorem roundsTo_roundedPattern {x : ℝ} {e : Int} {m : Nat} {up : Bool} (hlo : (2 : ℝ) ^ e ≤ x) (hhi : x < 2 ^ (e + 1))
    (hm : m ≤ x * 2 ^ (-lastPlace e)) (hm' : x * 2 ^ (-lastPlace e) < m + 1)
    (hup : up = true ↔ 2 * (m : ℝ) + 1 < 2 * (x * 2 ^ (-lastPlace e)) ∨
      (2 * (m : ℝ) + 1 = 2 * (x * 2 ^ (-lastPlace e)) ∧ m % 2 = 1)) :
    RoundsTo (x * f64Unit) (roundedPattern (lastPlace e) m up) := by
  refine ⟨_, ?_, rfl⟩
  have hunits : x * f64Unit = x * 2 ^ (-lastPlace e) * 2 ^ (lastPlace e + 1074).toNat := by
    rw [two_pow_lastPlace, mul_assoc, ← mul_assoc (2 ^ _), ← zpow_add₀ two_ne_zero, neg_add_cancel, zpow_zero, one_mul]
  have hq : lastPlace e = max (e - 52) (-1074) := rfl
  have hsmall : m < 2 ^ 53 := by exact_mod_cast hm.trans_lt (lt_of_binade hhi)
  have hlarge : (lastPlace e + 1074).toNat = 0 ∨ 2 ^ 52 ≤ m := by
    rcases le_or_gt (e - 52) (-1074) with hsub | hnormal
    · left; omega
    · right
      have : (2 : ℝ) ^ (52 : Int) ≤ x * 2 ^ (-lastPlace e) := by
        calc (2 : ℝ) ^ (52 : Int) = 2 ^ e * 2 ^ (-lastPlace e) := by
              rw [← zpow_add₀ two_ne_zero]; congr 1; omega
          _ ≤ x * 2 ^ (-lastPlace e) := mul_le_mul_of_nonneg_right hlo (by positivity)
      have hlt : ((2 ^ 52 : Nat) : ℝ) < ((m + 1 : Nat) : ℝ) := by
        push_cast
        exact lt_of_le_of_lt (by exact_mod_cast this) hm'
      exact Nat.lt_succ_iff.mp (by exact_mod_cast hlt)
  rw [hunits]
  exact isNearestPattern_significand hsmall hlarge hm hm' hup

/-- The comparison of a fraction with the midpoint above its floor, by the remainder. -/
theorem two_mul_div_eq (num den : Nat) (hden : 0 < den) :
    2 * ((num : ℝ) / den) = 2 * (num / den : Nat) + 2 * (num % den : Nat) / den := by
  have hdiv : (num : ℝ) = den * (num / den : Nat) + (num % den : Nat) := by
    exact_mod_cast (Nat.div_add_mod num den).symm
  have hden' : (0 : ℝ) < den := by exact_mod_cast hden
  field_simp
  linarith

theorem rneMag_zero (b : Nat) : rneMag 0 b = 0 := if_pos rfl

theorem rneMag_eq {a b : Nat} (ha : a ≠ 0) {q : Int} (hq : q = lastPlace (floorLog2 a b)) {num den : Nat}
    (hnum : num = a * 2 ^ (-q).toNat) (hden : den = b * 2 ^ q.toNat) :
    rneMag a b = roundedPattern q (num / den)
      (decide (den < 2 * (num % den)) || (decide (2 * (num % den) = den) && decide (num / den % 2 = 1))) := by
  rw [rneMag, if_neg ha, hnum, hden, hq]

/-- `rneMag` rounds the exact quotient. -/
theorem roundsTo_rneMag (a : Nat) {b : Nat} (hb : b ≠ 0) : RoundsTo ((a : ℝ) / b * f64Unit) (rneMag a b) := by
  rcases eq_or_ne a 0 with rfl | ha
  · rw [rneMag_zero, Nat.cast_zero, zero_div, zero_mul]
    exact roundsTo_zero
  obtain ⟨hlo, hhi⟩ := floorLog2_spec ha hb
  obtain ⟨q, hq⟩ : ∃ q, q = lastPlace (floorLog2 a b) := ⟨_, rfl⟩
  obtain ⟨num, hnum⟩ : ∃ num, num = a * 2 ^ (-q).toNat := ⟨_, rfl⟩
  obtain ⟨den, hden⟩ : ∃ den, den = b * 2 ^ q.toNat := ⟨_, rfl⟩
  have hpos : 0 < den := hden ▸ by positivity
  have hpos' : (0 : ℝ) < den := by exact_mod_cast hpos
  have hfrac : (num : ℝ) / den = a / b * 2 ^ (-q) := by
    rw [hnum, hden, scaledFraction_eq a b 2 two_ne_zero, Nat.cast_ofNat]
  rw [rneMag_eq ha hq hnum hden, hq]
  refine roundsTo_roundedPattern hlo hhi ?_ ?_ ?_ <;> rw [← hq, ← hfrac]
  · exact Nat.cast_div_le
  · rw [← Nat.floor_div_eq_div (K := ℝ)]
    exact Nat.lt_floor_add_one _
  · rw [two_mul_div_eq num den hpos, add_lt_add_iff_left, add_right_inj, one_lt_div hpos', eq_div_iff hpos'.ne',
      one_mul]
    simp only [Bool.or_eq_true, Bool.and_eq_true, decide_eq_true_eq]
    norm_cast
    rw [eq_comm (a := den)]

/-- The integer square root, bit by bit: the loop keeps `m² ≤ a < (m + 2^k)²`. -/
theorem isqrtFrom_spec (a k m : Nat) (hlo : m * m ≤ a) (hhi : a < (m + 2 ^ k) * (m + 2 ^ k)) :
    isqrtFrom a k m * isqrtFrom a k m ≤ a ∧ a < (isqrtFrom a k m + 1) * (isqrtFrom a k m + 1) := by
  induction k generalizing m with
  | zero => exact ⟨hlo, hhi⟩
  | succ k ih =>
    rw [isqrtFrom]
    split
    · rename_i h
      exact ih _ h (by rwa [Nat.add_assoc, ← Nat.two_mul, ← Nat.pow_succ'])
    · rename_i h
      exact ih _ hlo (not_le.mp h)

theorem rneSqrtMag_zero (b : Nat) : rneSqrtMag 0 b = 0 := if_pos rfl

theorem rneSqrtMag_eq {a b : Nat} (ha : a ≠ 0) {q : Int} (hq : q = lastPlace (floorLog2 a b / 2)) {num den m : Nat}
    (hnum : num = a * 4 ^ (-q).toNat) (hden : den = b * 4 ^ q.toNat) (hm : m = isqrtFrom (num / den) 54 0) :
    rneSqrtMag a b = roundedPattern q m (decide ((2 * m + 1) * (2 * m + 1) * den < 4 * num) ||
      (decide ((2 * m + 1) * (2 * m + 1) * den = 4 * num) && decide (m % 2 = 1))) := by
  rw [rneSqrtMag, if_neg ha, hm, hnum, hden, hq]

/-- The binade of a root. -/
theorem sqrt_binade {r : ℝ} {f : Int} (hlo : (2 : ℝ) ^ f ≤ r) (hhi : r < 2 ^ (f + 1)) :
    (2 : ℝ) ^ (f / 2) ≤ Real.sqrt r ∧ Real.sqrt r < 2 ^ (f / 2 + 1) := by
  have hsq (k : Int) : ((2 : ℝ) ^ k) ^ 2 = 2 ^ (2 * k) := by rw [two_mul, zpow_add₀ two_ne_zero, sq]
  refine ⟨Real.le_sqrt_of_sq_le ?_, (Real.sqrt_lt' (by positivity)).mpr ?_⟩ <;> rw [hsq]
  · exact (zpow_le_zpow_right₀ one_le_two (by omega)).trans hlo
  · exact hhi.trans_le (zpow_le_zpow_right₀ one_le_two (by omega))

/-- The integer root of the floor of a square is the floor of the root. -/
theorem floor_root {w : ℝ} {n m : Nat} (hw : 0 ≤ w) (hn : n ≤ w ^ 2) (hn' : w ^ 2 < n + 1) (hm : m * m ≤ n)
    (hm' : n < (m + 1) * (m + 1)) : (m : ℝ) ≤ w ∧ w < m + 1 := by
  constructor
  · rw [← sq_le_sq₀ (Nat.cast_nonneg m) hw, sq]
    exact le_trans (by exact_mod_cast hm) hn
  · rw [← sq_lt_sq₀ hw (by positivity), sq (_ + _)]
    exact hn'.trans_le (by exact_mod_cast hm')

/-- A root of a fraction is compared with a midpoint by squares. -/
theorem midpoint_root {w : ℝ} {num den m : Nat} (hw : 0 ≤ w) (hden : (0 : ℝ) < den) (hsq : w ^ 2 = num / den) :
    ((2 * m + 1) * (2 * m + 1) * den < 4 * num ↔ 2 * (m : ℝ) + 1 < 2 * w) ∧
    ((2 * m + 1) * (2 * m + 1) * den = 4 * num ↔ 2 * (m : ℝ) + 1 = 2 * w) := by
  have hnum : (2 * w) ^ 2 * den = 4 * num := by
    rw [mul_pow, hsq, mul_assoc, div_mul_cancel₀ _ hden.ne']
    norm_num
  have hm0 : 0 ≤ 2 * (m : ℝ) + 1 := by positivity
  have hw0 : 0 ≤ 2 * w := by positivity
  rw [← sq_lt_sq₀ hm0 hw0, ← sq_eq_sq₀ hm0 hw0, ← mul_lt_mul_iff_left₀ hden, ← mul_left_inj' hden.ne' (b := _ ^ 2),
    hnum, sq (_ + _)]
  norm_cast

/-- `rneSqrtMag` rounds the exact root of the quotient. -/
theorem roundsTo_rneSqrtMag (a : Nat) {b : Nat} (hb : b ≠ 0) :
    RoundsTo (Real.sqrt ((a : ℝ) / b) * f64Unit) (rneSqrtMag a b) := by
  rcases eq_or_ne a 0 with rfl | ha
  · rw [rneSqrtMag_zero, Nat.cast_zero, zero_div, Real.sqrt_zero, zero_mul]
    exact roundsTo_zero
  obtain ⟨hlo, hhi⟩ := (floorLog2_spec ha hb).elim sqrt_binade
  obtain ⟨q, hq⟩ : ∃ q, q = lastPlace (floorLog2 a b / 2) := ⟨_, rfl⟩
  obtain ⟨num, hnum⟩ : ∃ num, num = a * 4 ^ (-q).toNat := ⟨_, rfl⟩
  obtain ⟨den, hden⟩ : ∃ den, den = b * 4 ^ q.toNat := ⟨_, rfl⟩
  obtain ⟨m, hm⟩ : ∃ m, m = isqrtFrom (num / den) 54 0 := ⟨_, rfl⟩
  obtain ⟨w, hw⟩ : ∃ w, w = Real.sqrt ((a : ℝ) / b) * 2 ^ (-q) := ⟨_, rfl⟩
  have hpos' : (0 : ℝ) < den := by rw [hden]; positivity
  have hw0 : 0 ≤ w := hw ▸ by positivity
  have hsq : w ^ 2 = num / den := by
    rw [hw, mul_pow, Real.sq_sqrt (by positivity), hnum, hden, scaledFraction_eq a b 4 four_ne_zero, Nat.cast_ofNat,
      show (4 : ℝ) = 2 ^ 2 by norm_num, ← zpow_natCast, ← zpow_natCast, zpow_comm]
  have hfloor : ((num / den : Nat) : ℝ) ≤ w ^ 2 := hsq ▸ Nat.cast_div_le
  have hfloor' : w ^ 2 < ((num / den : Nat) : ℝ) + 1 := by
    rw [hsq, ← Nat.floor_div_eq_div (K := ℝ)]
    exact Nat.lt_floor_add_one _
  have hsmall : num / den < (0 + 2 ^ 54) * (0 + 2 ^ 54) := by
    have hw53 : w < 2 ^ 53 := by rw [hw, hq]; exact lt_of_binade hhi
    have hlt : num / den < (2 ^ 53) ^ 2 := by
      exact_mod_cast hfloor.trans_lt (pow_lt_pow_left₀ hw53 hw0 two_ne_zero)
    omega
  obtain ⟨hroot, hroot'⟩ := isqrtFrom_spec (num / den) 54 0 (Nat.zero_le _) hsmall
  rw [← hm] at hroot hroot'
  obtain ⟨hmw, hwm⟩ := floor_root hw0 hfloor hfloor' hroot hroot'
  rw [rneSqrtMag_eq ha hq hnum hden hm, hq]
  refine roundsTo_roundedPattern hlo hhi ?_ ?_ ?_ <;> rw [← hq, ← hw]
  · exact hmw
  · exact hwm
  · obtain ⟨hlt, heq⟩ := midpoint_root (m := m) hw0 hpos' hsq
    simp only [Bool.or_eq_true, Bool.and_eq_true, decide_eq_true_eq, hlt, heq]

/-! ## Arithmetic

The operations of 00_scope R11, R12 and R17 on finite values, infinities and NaNs, and the statements about them. -/

/-! ### Rounding of rationals -/

theorem f64Unit_ne_zero : f64Unit ≠ 0 := pow_ne_zero 1074 two_ne_zero

theorem f64Unit_sq_ne_zero : f64Unit * f64Unit ≠ 0 := mul_ne_zero f64Unit_ne_zero f64Unit_ne_zero

theorem f64Unit_pos : (0 : ℝ) < f64Unit := by exact_mod_cast Nat.pos_of_ne_zero f64Unit_ne_zero

/-- The distances of `IsNearest` are the real ones, times the denominator. -/
theorem isNearest_iff {num : Int} {den : Nat} {x : F64} (hden : den ≠ 0) :
    IsNearest num den x ↔ IsNearestReal ((num : ℝ) / den * f64Unit) x := by
  have hpos : (0 : ℝ) < den := by exact_mod_cast Nat.pos_of_ne_zero hden
  have hdist (y : F64) :
      (((num * f64Unit - F64.scaled y * den).natAbs : Nat) : ℝ) = |(num : ℝ) / den * f64Unit - F64.scaled y| * den := by
    rw [Nat.cast_natAbs, ← abs_of_pos hpos, ← abs_mul, abs_of_pos hpos, sub_mul,
      div_mul_eq_mul_div, div_mul_cancel₀ _ hpos.ne']
    push_cast
    rfl
  refine and_congr_right fun _ => forall₂_congr fun y _ => ?_
  rw [← Nat.cast_le (α := ℝ), ← Nat.cast_inj (R := ℝ), hdist, hdist, mul_le_mul_iff_left₀ hpos, mul_left_inj' hpos.ne']

theorem overflowBound_cast : (((2 ^ 1024 - 2 ^ 970 : Nat) : ℝ)) * f64Unit = overflowBound := by
  have hcast (j k : Nat) : ((2 ^ (j + k) - 2 ^ j : Nat) : ℝ) = 2 ^ (j + k) - 2 ^ j := by
    rw [Nat.cast_sub (Nat.pow_le_pow_right two_pos (Nat.le_add_right j k)), Nat.cast_pow, Nat.cast_pow, Nat.cast_ofNat]
  rw [overflowBound, show 1024 = 970 + 54 from rfl, hcast]

theorem overflows_iff {num : Int} {den : Nat} (hden : den ≠ 0) :
    Overflows num den ↔ overflowBound ≤ (num.natAbs : ℝ) / den * f64Unit := by
  have hpos : (0 : ℝ) < den := by exact_mod_cast Nat.pos_of_ne_zero hden
  rw [Overflows, ← overflowBound_cast, mul_le_mul_iff_left₀ f64Unit_pos, le_div_iff₀ hpos, ← Nat.cast_mul, Nat.cast_le]

theorem natAbs_ofSign (s : Bool) (a : Nat) : (if s then -(a : Int) else a).natAbs = a := by
  cases s <;> simp

/-- A rounded magnitude with its sign is a nearest value, below the overflow bound. -/
theorem isNearest_ofSignMag {a den : Nat} (hden : den ≠ 0) (s : Bool)
    (hno : ¬ Overflows (if s then -(a : Int) else a) den) :
    IsNearest (if s then -(a : Int) else a) den (F64.ofSignMag s (rneMag a den)) := by
  rw [overflows_iff hden, not_le, natAbs_ofSign] at hno
  have hnonneg : 0 ≤ (a : ℝ) / den * f64Unit := mul_nonneg (by positivity) f64Unit_pos.le
  have hround := (roundsTo_rneMag a hden).isNearestReal hnonneg hno s
  rw [isNearest_iff hden]
  cases s with
  | false => exact hround
  | true => rwa [if_pos rfl, Int.cast_neg, Int.cast_natCast, neg_div, neg_mul]

/-- From the overflow bound on, a rounded magnitude is infinity's. -/
theorem rneMag_of_overflows {num : Int} {den : Nat} (hden : den ≠ 0) (h : Overflows num den) :
    rneMag num.natAbs den = 2047 * 2 ^ 52 :=
  (roundsTo_rneMag num.natAbs hden).eq_infinity ((overflows_iff hden).mp h)

/-- An integer is its magnitude with its sign. -/
theorem eq_ofSign_natAbs (num : Int) : num = if decide (num < 0) then -(num.natAbs : Int) else num.natAbs := by
  simp only [decide_eq_true_eq]
  omega

theorem isNearest_rneFrac {num : Int} {den : Nat} (hden : den ≠ 0) (hno : ¬ Overflows num den) :
    IsNearest num den (rneFrac num den) := by
  have hsign := eq_ofSign_natAbs num
  rw [rneFrac]
  rw [hsign] at hno
  conv => arg 1; rw [hsign]
  exact isNearest_ofSignMag hden _ hno

theorem rneFrac_of_overflows {num : Int} {den : Nat} (hden : den ≠ 0) (h : Overflows num den) :
    rneFrac num den = F64.ofSignMag (decide (num < 0)) (2047 * 2 ^ 52) := by
  rw [rneFrac, rneMag_of_overflows hden h]

theorem rneFrac_zero (den : Nat) : rneFrac 0 den = 0 := by
  rw [rneFrac, Int.natAbs_zero, rneMag_zero]
  decide

/-- The infinities of both signs. -/
theorem ofSignMag_infinity (s : Bool) :
    F64.ofSignMag s (2047 * 2 ^ 52) = if s then 0xFFF0000000000000 else 0x7FF0000000000000 := by
  cases s <;> decide

/-- The zeros of both signs. -/
theorem ofSignMag_zero (s : Bool) : F64.ofSignMag s 0 = if s then 0x8000000000000000 else 0 := by
  cases s <;> decide

theorem not_overflows_zero {den : Nat} (hden : den ≠ 0) : ¬ Overflows 0 den := by
  intro h
  have hinf := rneFrac_of_overflows hden h
  rw [rneFrac_zero] at hinf
  exact absurd hinf (by decide)

/-- Settles O55: `rneMag` is the nearest pattern, cut off at infinity, with the sign put to it. -/
theorem roundingIsNearestEven : Obligations.RoundingIsNearestEven := by
  intro num den hden
  have hden0 : den ≠ 0 := by omega
  refine ⟨isNearest_rneFrac hden0, fun hover => ?_, rneFrac_zero den⟩
  rw [rneFrac_of_overflows hden0 hover, ofSignMag_infinity]
  simp

/-! ### NaN operands and invalid operations -/

/-- Every draw is a NaN. -/
theorem isNaN_nanOf (id : Nat) : F64.isNaN (nanOf id) = true := by
  have hfrac := (Config.nanDraw id).frac.isLt
  rw [F64.isNaN_iff, nanOf, F64.pattern_ofSignMag _ (by omega)]
  omega

theorem fadd_of_isNaN {a b : F64} (h : F64.isNaN a = true ∨ F64.isNaN b = true) (id : Nat) :
    fadd id a b = nanOf id := by
  rw [fadd, if_pos (by simpa using h)]

theorem fmul_of_isNaN {a b : F64} (h : F64.isNaN a = true ∨ F64.isNaN b = true) (id : Nat) :
    fmul id a b = nanOf id := by
  rw [fmul, if_pos (by simpa using h)]

/-- Addition with an infinity on the left: inf - inf is invalid, and any other sum is that infinity. -/
theorem fadd_of_isInf_left {a b : F64} (ha : F64.isInf a = true) (hb : F64.isNaN b = false) (id : Nat) :
    fadd id a b = if F64.isInf b = true ∧ F64.neg a ≠ F64.neg b then nanOf id else a := by
  simp [fadd, F64.isNaN_of_isInf ha, ha, hb]

theorem fadd_of_isInf_right {a b : F64} (ha : F64.isFinite a = true) (hb : F64.isInf b = true) (id : Nat) :
    fadd id a b = b := by
  simp [fadd, F64.isNaN_of_isInf hb, F64.isNaN_of_isFinite ha, F64.isInf_of_isFinite ha, hb]

theorem F64.magScaled_eq_zero_iff {x : F64} : F64.magScaled x = 0 ↔ F64.pattern x = 0 := by
  rw [F64.magScaled_eq, patternValue_strictMono.injective.eq_iff' patternValue_zero]

theorem F64.isFinite_of_magScaled_eq_zero {x : F64} (h : F64.magScaled x = 0) : F64.isFinite x = true := by
  rw [F64.magScaled_eq_zero_iff] at h
  rw [F64.isFinite_iff]
  omega

/-- Multiplication with an infinity: by a zero it is invalid, and any other product is infinite. -/
theorem fmul_of_isInf {a b : F64} (ha : F64.isNaN a = false) (hb : F64.isNaN b = false)
    (h : F64.isInf a = true ∨ F64.isInf b = true) (id : Nat) :
    fmul id a b = if F64.magScaled a = 0 ∨ F64.magScaled b = 0 then nanOf id
      else F64.ofSignMag (F64.neg a != F64.neg b) (2047 * 2 ^ 52) := by
  have hzero (x : F64) : (F64.isFinite x = true ∧ F64.magScaled x = 0) ↔ F64.magScaled x = 0 :=
    and_iff_right_of_imp F64.isFinite_of_magScaled_eq_zero
  simp only [fmul, ha, hb, Bool.or_eq_true, Bool.and_eq_true, beq_iff_eq, hzero, h, if_true, or_self,
    Bool.false_eq_true, if_false]

theorem F64.magScaled_ne_zero_of_isInf {x : F64} (h : F64.isInf x = true) : F64.magScaled x ≠ 0 := by
  rw [ne_eq, F64.magScaled_eq_zero_iff, F64.isInf_iff.mp h]
  decide

/-- Settles O57: each of these operations answers a draw, and every draw is a NaN. -/
theorem invalidOperationsGiveNaN : Obligations.InvalidOperationsGiveNaN := by
  intro id a b
  refine ⟨fun h => ⟨?_, ?_, ?_⟩, fun ha hb => ⟨fun hneg => ?_, fun hneg => ?_⟩, fun ha hb => ?_⟩
  · rw [fadd_of_isNaN h]
    exact isNaN_nanOf id
  · rw [fsub, fadd_of_isNaN (by rwa [F64.isNaN_fneg])]
    exact isNaN_nanOf id
  · rw [fmul_of_isNaN h]
    exact isNaN_nanOf id
  · rw [fadd_of_isInf_left ha (F64.isNaN_of_isInf hb), if_pos ⟨hb, hneg⟩]
    exact isNaN_nanOf id
  · rw [fsub, fadd_of_isInf_left ha (by rw [F64.isNaN_fneg, F64.isNaN_of_isInf hb]),
      if_pos ⟨by rw [F64.isInf_fneg, hb], by simp [hneg]⟩]
    exact isNaN_nanOf id
  · have hb0 : F64.magScaled b = 0 := by rw [F64.magScaled_eq_zero_iff, ← F64.toNat_extractLsb', hb]; rfl
    have hnan := F64.isNaN_of_isFinite (F64.isFinite_of_magScaled_eq_zero hb0)
    rw [fmul_of_isInf (F64.isNaN_of_isInf ha) hnan (.inl ha), fmul_of_isInf hnan (F64.isNaN_of_isInf ha) (.inr ha),
      if_pos (.inr hb0), if_pos (.inl hb0)]
    exact ⟨isNaN_nanOf id, isNaN_nanOf id⟩

/-! ### Finite operands -/

theorem fadd_of_isFinite {a b : F64} (ha : F64.isFinite a = true) (hb : F64.isFinite b = true) (id : Nat) :
    fadd id a b = if F64.scaled a + F64.scaled b = 0 then F64.ofSignMag (F64.neg a && F64.neg b) 0
      else rneFrac (F64.scaled a + F64.scaled b) f64Unit := by
  simp only [fadd, F64.isNaN_of_isFinite ha, F64.isNaN_of_isFinite hb, F64.isInf_of_isFinite ha,
    F64.isInf_of_isFinite hb, Bool.or_self, Bool.false_eq_true, if_false]

theorem fmul_of_isFinite {a b : F64} (ha : F64.isFinite a = true) (hb : F64.isFinite b = true) (id : Nat) :
    fmul id a b = F64.ofSignMag (F64.neg a != F64.neg b)
      (rneMag (F64.magScaled a * F64.magScaled b) (f64Unit * f64Unit)) := by
  simp only [fmul, F64.isNaN_of_isFinite ha, F64.isNaN_of_isFinite hb, F64.isInf_of_isFinite ha,
    F64.isInf_of_isFinite hb, Bool.or_self, Bool.false_eq_true, if_false]

theorem isNearest_zero {den : Nat} (s : Bool) : IsNearest 0 den (F64.ofSignMag s 0) := by
  have hscaled : F64.scaled (F64.ofSignMag s 0) = 0 := by cases s <;> decide
  have hlast : (F64.ofSignMag s 0).getLsbD 0 = false := by cases s <;> decide
  refine ⟨by cases s <;> decide, fun y _ => ⟨?_, fun _ _ => hlast⟩⟩
  rw [hscaled, zero_mul, zero_mul, sub_self, Int.natAbs_zero]
  exact Nat.zero_le _

/-- R12 for a finite sum: rounded once, with the sign of an exact zero sum. -/
theorem fadd_rounds {a b : F64} (ha : F64.isFinite a = true) (hb : F64.isFinite b = true) (id : Nat) :
    (¬ Overflows (F64.scaled a + F64.scaled b) f64Unit →
      IsNearest (F64.scaled a + F64.scaled b) f64Unit (fadd id a b)) ∧
    (Overflows (F64.scaled a + F64.scaled b) f64Unit →
      fadd id a b = F64.ofSignMag (decide (F64.scaled a + F64.scaled b < 0)) (2047 * 2 ^ 52)) ∧
    (F64.scaled a + F64.scaled b = 0 → fadd id a b = F64.ofSignMag (F64.neg a && F64.neg b) 0) := by
  rw [fadd_of_isFinite ha hb]
  rcases eq_or_ne (F64.scaled a + F64.scaled b) 0 with hzero | hne
  · rw [if_pos hzero, hzero]
    exact ⟨fun _ => isNearest_zero _, fun hover => absurd hover (not_overflows_zero f64Unit_ne_zero), fun _ => rfl⟩
  · rw [if_neg hne]
    exact ⟨isNearest_rneFrac f64Unit_ne_zero, rneFrac_of_overflows f64Unit_ne_zero, fun h => absurd h hne⟩

/-- R12 for a finite difference, which is the sum with the negated subtrahend. -/
theorem fsub_rounds {a b : F64} (ha : F64.isFinite a = true) (hb : F64.isFinite b = true) (id : Nat) :
    (¬ Overflows (F64.scaled a - F64.scaled b) f64Unit →
      IsNearest (F64.scaled a - F64.scaled b) f64Unit (fsub id a b)) ∧
    (Overflows (F64.scaled a - F64.scaled b) f64Unit →
      fsub id a b = F64.ofSignMag (decide (F64.scaled a - F64.scaled b < 0)) (2047 * 2 ^ 52)) ∧
    (F64.scaled a - F64.scaled b = 0 → fsub id a b = F64.ofSignMag (F64.neg a && !F64.neg b) 0) := by
  have h := fadd_rounds ha (b := fneg b) (by rwa [F64.isFinite_fneg]) id
  rwa [F64.scaled_fneg, ← sub_eq_add_neg, F64.neg_fneg] at h

/-- An exact product is the product of the magnitudes with the exclusive or of the signs. -/
theorem F64.scaled_mul (a b : F64) :
    F64.scaled a * F64.scaled b = if F64.neg a != F64.neg b then -((F64.magScaled a * F64.magScaled b : Nat) : Int)
      else (F64.magScaled a * F64.magScaled b : Nat) := by
  rw [F64.scaled, F64.scaled]
  cases F64.neg a <;> cases F64.neg b <;> simp

/-- R12 for a finite product: rounded once, with the exclusive or of the signs. -/
theorem fmul_rounds {a b : F64} (ha : F64.isFinite a = true) (hb : F64.isFinite b = true) (id : Nat) :
    (¬ Overflows (F64.scaled a * F64.scaled b) (f64Unit * f64Unit) →
      IsNearest (F64.scaled a * F64.scaled b) (f64Unit * f64Unit) (fmul id a b)) ∧
    (Overflows (F64.scaled a * F64.scaled b) (f64Unit * f64Unit) →
      fmul id a b = F64.ofSignMag (F64.neg a != F64.neg b) (2047 * 2 ^ 52)) ∧
    F64.neg (fmul id a b) = (F64.neg a != F64.neg b) := by
  rw [fmul_of_isFinite ha hb, F64.scaled_mul]
  refine ⟨isNearest_ofSignMag f64Unit_sq_ne_zero _, fun hover => ?_,
    F64.neg_ofSignMag _ (roundsTo_rneMag _ f64Unit_sq_ne_zero).lt_two_pow⟩
  have hmag := rneMag_of_overflows f64Unit_sq_ne_zero hover
  rw [natAbs_ofSign] at hmag
  rw [hmag]

/-! ### Infinite operands -/

/-- R12 for an infinity and a finite value: sums and differences. -/
theorem fadd_fsub_infinity {a b : F64} (ha : F64.isInf a = true) (hb : F64.isFinite b = true) (id : Nat) :
    fadd id a b = a ∧ fadd id b a = a ∧ fsub id a b = a ∧ fsub id b a = F64.ofSignMag (!F64.neg a) (2047 * 2 ^ 52) := by
  have hinf : F64.isInf (fneg a) = true := by rwa [F64.isInf_fneg]
  have hfin : F64.isFinite (fneg b) = true := by rwa [F64.isFinite_fneg]
  rw [fsub, fsub, fadd_of_isInf_left ha (F64.isNaN_of_isFinite hb), fadd_of_isInf_right hb ha,
    fadd_of_isInf_left ha (F64.isNaN_of_isFinite hfin), fadd_of_isInf_right hb hinf, F64.isInf_of_isFinite hb,
    F64.isInf_of_isFinite hfin, F64.eq_ofSignMag_of_isInf hinf, F64.neg_fneg]
  simp

/-- R12 for a product with an infinity that is not invalid. -/
theorem fmul_infinity {a b : F64} (ha : F64.isInf a = true) (hb : F64.isNaN b = false) (hb0 : F64.magScaled b ≠ 0)
    (id : Nat) : fmul id a b = F64.ofSignMag (F64.neg a != F64.neg b) (2047 * 2 ^ 52) ∧
      fmul id b a = F64.ofSignMag (F64.neg a != F64.neg b) (2047 * 2 ^ 52) := by
  have ha0 := F64.magScaled_ne_zero_of_isInf ha
  rw [fmul_of_isInf (F64.isNaN_of_isInf ha) hb (.inl ha), fmul_of_isInf hb (F64.isNaN_of_isInf ha) (.inr ha),
    if_neg (by simp [ha0, hb0]), if_neg (by simp [ha0, hb0]), bne_comm (a := F64.neg b)]
  exact ⟨rfl, rfl⟩

/-- Settles O56, from the rounding of finite results and the rules for infinities. -/
theorem arithmeticIsCorrectlyRounded : Obligations.ArithmeticIsCorrectlyRounded := by
  intro id a b infinity zero
  have hinfinity (s : Bool) : infinity s = F64.ofSignMag s (2047 * 2 ^ 52) := (ofSignMag_infinity s).symm
  have hzero (s : Bool) : zero s = F64.ofSignMag s 0 := (ofSignMag_zero s).symm
  simp only [hinfinity, hzero]
  refine ⟨fun ha hb => ?_, fun ha hb => ?_, fun ha hb => ⟨fun hneg => ?_, fun hneg => ?_, ?_⟩⟩
  · obtain ⟨hadd, haddInf, haddZero⟩ := fadd_rounds ha hb id
    obtain ⟨hsub, hsubInf, hsubZero⟩ := fsub_rounds ha hb id
    obtain ⟨hmul, hmulInf, hmulNeg⟩ := fmul_rounds ha hb id
    exact ⟨hadd, hsub, hmul, haddInf, hsubInf, hmulInf, haddZero, hsubZero, hmulNeg⟩
  · obtain ⟨hab, hba, hsub, hsub'⟩ := fadd_fsub_infinity ha hb id
    refine ⟨hab, hba, hsub, hsub', fun hb0 => fmul_infinity ha (F64.isNaN_of_isFinite hb) ?_ id⟩
    rwa [← F64.natAbs_scaled, ne_eq, Int.natAbs_eq_zero]
  · rw [fadd_of_isInf_left ha (F64.isNaN_of_isInf hb), if_neg (by simp [hneg])]
  · rw [fsub, fadd_of_isInf_left ha (by rw [F64.isNaN_fneg, F64.isNaN_of_isInf hb]), if_neg]
    rintro ⟨-, hne⟩
    exact hne (by rw [F64.neg_fneg, Bool.eq_not.mpr hneg])
  · exact (fmul_infinity ha (F64.isNaN_of_isInf hb) (F64.magScaled_ne_zero_of_isInf hb) id).1

/-! ## The center bin

Rounding to integers, and the center bin (00_scope R16, 43_peak_scan R170). -/

/-- The magnitude of `roundHalfAway` is the floor of `|num| / den + 1/2`. -/
theorem roundHalfAway_eq (num : Int) (den : Nat) :
    roundHalfAway num den = if num < 0 then -(((2 * num.natAbs + den) / (2 * den) : Nat) : Int)
      else ((2 * num.natAbs + den) / (2 * den) : Nat) := rfl

/-- `roundHalfAway` is a nearest integer, and at a tie the one farther from zero. -/
theorem roundHalfAway_spec (num : Int) {den : Nat} (hden : 1 ≤ den) :
    2 * (num - roundHalfAway num den * den).natAbs ≤ den ∧
    (2 * (num - roundHalfAway num den * den).natAbs = den → num.natAbs < (roundHalfAway num den).natAbs * den) := by
  have hdiv := Nat.div_add_mod (2 * num.natAbs + den) (2 * den)
  have hrem := Nat.mod_lt (2 * num.natAbs + den) (show 0 < 2 * den by omega)
  rw [roundHalfAway_eq]
  generalize (2 * num.natAbs + den) / (2 * den) = m at hdiv ⊢
  generalize (2 * num.natAbs + den) % (2 * den) = r at hdiv hrem
  have hprod : 2 * den * m = 2 * (m * den) := by ring
  rw [hprod] at hdiv
  have hcast : ((m * den : Nat) : Int) = m * den := Nat.cast_mul m den
  split
  · rw [Int.natAbs_neg, Int.natAbs_natCast, neg_mul]
    generalize m * den = x at *
    omega
  · rw [Int.natAbs_natCast]
    generalize m * den = x at *
    omega

/-- Settles O46, from `roundHalfAway_spec`. -/
theorem centerBinIsRoundHalfAway : Obligations.CenterBinIsRoundHalfAway :=
  ⟨fun num _ hden => roundHalfAway_spec num hden, by decide, by decide, fun _ _ _ _ => rfl⟩

/-! ## The magnitude

The magnitude of a bin (00_scope R17, 43_peak_scan R174): special values, and one rounding of the exact root. -/

theorem magnitude_of_isInf {z : Cplx} (h : F64.isInf z.re = true ∨ F64.isInf z.im = true) (id n : Nat) :
    magnitude id z n = F64.posInf := by
  rw [magnitude, if_pos (by simpa using h)]

theorem magnitude_of_isNaN {z : Cplx} (hre : F64.isInf z.re = false) (him : F64.isInf z.im = false)
    (h : F64.isNaN z.re = true ∨ F64.isNaN z.im = true) (id n : Nat) : magnitude id z n = nanOf id := by
  rw [magnitude, if_neg (by simp [hre, him]), if_pos (by simpa using h)]

theorem magnitude_of_isFinite {z : Cplx} (hre : F64.isFinite z.re = true) (him : F64.isFinite z.im = true)
    (id n : Nat) : magnitude id z n = F64.ofSignMag false
      (rneSqrtMag (4 * (F64.magScaled z.re * F64.magScaled z.re + F64.magScaled z.im * F64.magScaled z.im))
        (n * n * (f64Unit * f64Unit))) := by
  rw [magnitude, if_neg (by rw [F64.isInf_of_isFinite hre, F64.isInf_of_isFinite him]; decide),
    if_neg (by rw [F64.isNaN_of_isFinite hre, F64.isNaN_of_isFinite him]; decide)]

theorem F64.magScaled_sq (x : F64) : ((F64.magScaled x * F64.magScaled x : Nat) : ℝ) = (F64.scaled x : ℝ) ^ 2 := by
  rw [← F64.natAbs_scaled, ← Int.cast_natCast, Int.natAbs_mul_self, sq, Int.cast_mul]

/-- The radicand that the model rounds the root of is the exact one of R174. -/
theorem sqrt_radicand (x y : F64) (n : Nat) :
    Real.sqrt (((4 * (F64.magScaled x * F64.magScaled x + F64.magScaled y * F64.magScaled y) : Nat) : ℝ) /
        ((n * n * (f64Unit * f64Unit) : Nat) : ℝ)) * f64Unit =
      2 * Real.sqrt ((F64.scaled x : ℝ) ^ 2 + (F64.scaled y : ℝ) ^ 2) / n := by
  have hunit := f64Unit_pos
  rw [Nat.cast_mul 4, Nat.cast_add, F64.magScaled_sq, F64.magScaled_sq, Nat.cast_mul (n * n), Nat.cast_mul n,
    Nat.cast_mul f64Unit]
  generalize (f64Unit : ℝ) = u at hunit ⊢
  have hsq : (n : ℝ) * n * (u * u) = (n * u) ^ 2 := by ring
  rw [hsq, Real.sqrt_div' _ (sq_nonneg _), Real.sqrt_sq (by positivity), Real.sqrt_mul (by positivity),
    show ((4 : Nat) : ℝ) = 2 ^ 2 by norm_num, Real.sqrt_sq two_pos.le,
    div_mul_eq_mul_div, mul_div_mul_right _ _ hunit.ne']

/-- Settles O58: the special values, and for a finite entry the rounded root of the exact radicand. -/
theorem magnitudeIsNearest : Obligations.MagnitudeIsNearest := by
  intro id z n hn
  refine ⟨fun h => magnitude_of_isInf h id n, fun hre him h => ?_, fun hre him => ?_⟩
  · rw [magnitude_of_isNaN hre him h]
    exact isNaN_nanOf id
  · intro exact
    have hden : n * n * (f64Unit * f64Unit) ≠ 0 := mul_ne_zero (mul_ne_zero (by omega) (by omega)) f64Unit_sq_ne_zero
    have hround := roundsTo_rneSqrtMag
      (4 * (F64.magScaled z.re * F64.magScaled z.re + F64.magScaled z.im * F64.magScaled z.im)) hden
    rw [sqrt_radicand] at hround
    rw [magnitude_of_isFinite hre him]
    refine ⟨F64.neg_ofSignMag _ hround.lt_two_pow, fun hlt => ?_, fun hge => ?_⟩
    · exact hround.isNearestReal (by positivity) hlt false
    · rw [hround.eq_infinity hge]
      rfl

/-! ## The twiddle

The twiddle (00_scope R15): the partial sums that `cosF` and `sinF` round are the Taylor polynomials of cos and sin,
which lie above and below them by turns. -/

/-! ### The Taylor polynomials of cos and sin -/

/-- The Taylor polynomial of cos with `n` terms after the 1. -/
noncomputable def cosTaylor (n : Nat) (x : ℝ) : ℝ :=
  ∑ k ∈ Finset.range (n + 1), (-1) ^ k * x ^ (2 * k) / (2 * k).factorial

/-- The Taylor polynomial of sin with `n` terms after the `x`. -/
noncomputable def sinTaylor (n : Nat) (x : ℝ) : ℝ :=
  ∑ k ∈ Finset.range (n + 1), (-1) ^ k * x ^ (2 * k + 1) / (2 * k + 1).factorial

theorem cosTaylor_succ (n : Nat) (x : ℝ) :
    cosTaylor (n + 1) x = cosTaylor n x + (-1) ^ (n + 1) * x ^ (2 * n + 2) / (2 * n + 2).factorial :=
  Finset.sum_range_succ _ _

theorem sinTaylor_succ (n : Nat) (x : ℝ) :
    sinTaylor (n + 1) x = sinTaylor n x + (-1) ^ (n + 1) * x ^ (2 * n + 3) / (2 * n + 3).factorial :=
  Finset.sum_range_succ _ _

theorem cosTaylor_at_zero (n : Nat) : cosTaylor n 0 = 1 := by
  induction n with
  | zero => simp [cosTaylor]
  | succ n ih => simp [cosTaylor_succ, ih]

theorem sinTaylor_at_zero (n : Nat) : sinTaylor n 0 = 0 := by
  simp [sinTaylor]

/-- The derivative of a Taylor term. -/
theorem hasDerivAt_taylorTerm (c : ℝ) (n : Nat) (x : ℝ) :
    HasDerivAt (fun x => c * x ^ (n + 1) / (n + 1).factorial) (c * x ^ n / n.factorial) x := by
  have h := ((hasDerivAt_pow (n + 1) x).const_mul c).div_const ((n + 1).factorial : ℝ)
  have hn : ((n + 1 : Nat) : ℝ) ≠ 0 := by positivity
  rwa [Nat.factorial_succ, Nat.cast_mul, Nat.add_sub_cancel, mul_left_comm, mul_div_mul_left _ _ hn,
    ← Nat.cast_mul, ← Nat.factorial_succ] at h

theorem hasDerivAt_sinTaylor (n : Nat) (x : ℝ) : HasDerivAt (sinTaylor n) (cosTaylor n x) x :=
  HasDerivAt.fun_sum fun k _ => hasDerivAt_taylorTerm ((-1) ^ k) (2 * k) x

theorem hasDerivAt_cosTaylor_succ (n : Nat) (x : ℝ) : HasDerivAt (cosTaylor (n + 1)) (-sinTaylor n x) x := by
  induction n with
  | zero =>
    have hfun : cosTaylor (0 + 1) = fun x : ℝ => 1 + -1 * x ^ (1 + 1) / (Nat.factorial (1 + 1) : ℝ) :=
      funext fun x => by simp [cosTaylor, Finset.sum_range_succ]
    rw [hfun]
    exact ((hasDerivAt_taylorTerm (-1) 1 x).const_add 1).congr_deriv (by simp [sinTaylor])
  | succ n ih =>
    rw [funext (cosTaylor_succ (n + 1))]
    refine (ih.fun_add (hasDerivAt_taylorTerm ((-1) ^ (n + 2)) (2 * n + 3) x)).congr_deriv ?_
    rw [sinTaylor_succ, neg_add, pow_succ _ (n + 1), mul_neg_one, neg_mul, neg_div]

/-- A function that is zero at 0 and grows from there on is not negative. -/
theorem nonneg_of_deriv_nonneg {f f' : ℝ → ℝ} (hf : ∀ x, HasDerivAt f (f' x) x) (h0 : f 0 = 0)
    (hpos : ∀ x, 0 ≤ x → 0 ≤ f' x) {x : ℝ} (hx : 0 ≤ x) : 0 ≤ f x := by
  have hmono : MonotoneOn f (Set.Ici 0) :=
    monotoneOn_of_hasDerivWithinAt_nonneg (convex_Ici 0) (fun x _ => (hf x).continuousAt.continuousWithinAt)
      (fun x _ => (hf x).hasDerivWithinAt) fun x hx' => hpos x (interior_subset hx')
  rw [← h0]
  exact hmono Set.self_mem_Ici hx hx

/-- The Taylor polynomials lie above and below by turns, each bound the derivative of the next. -/
theorem taylor_alternates (n : Nat) :
    (∀ x : ℝ, 0 ≤ x → 0 ≤ (-1) ^ n * (cosTaylor n x - Real.cos x)) ∧
    (∀ x : ℝ, 0 ≤ x → 0 ≤ (-1) ^ n * (sinTaylor n x - Real.sin x)) := by
  have hsin (n : Nat) (hcos : ∀ x : ℝ, 0 ≤ x → 0 ≤ (-1) ^ n * (cosTaylor n x - Real.cos x)) :
      ∀ x : ℝ, 0 ≤ x → 0 ≤ (-1) ^ n * (sinTaylor n x - Real.sin x) := fun x hx =>
    nonneg_of_deriv_nonneg (fun y => ((hasDerivAt_sinTaylor n y).sub (Real.hasDerivAt_sin y)).const_mul ((-1) ^ n))
      (by simp [sinTaylor_at_zero]) hcos hx
  induction n with
  | zero =>
    have hcos (x : ℝ) (_ : 0 ≤ x) : 0 ≤ (-1) ^ 0 * (cosTaylor 0 x - Real.cos x) := by
      simpa [cosTaylor] using Real.cos_le_one x
    exact ⟨hcos, hsin 0 hcos⟩
  | succ n ih =>
    have hcos (x : ℝ) (hx : 0 ≤ x) : 0 ≤ (-1) ^ (n + 1) * (cosTaylor (n + 1) x - Real.cos x) := by
      refine nonneg_of_deriv_nonneg
        (fun y => ((hasDerivAt_cosTaylor_succ n y).sub (Real.hasDerivAt_cos y)).const_mul ((-1) ^ (n + 1)))
        (by simp [cosTaylor_at_zero]) (fun y hy => ?_) hx
      have := ih.2 y hy
      rw [pow_succ]
      linarith
    exact ⟨hcos, hsin (n + 1) hcos⟩

/-- Of bounds that alternate, an odd one and the next enclose the value. -/
theorem enclosed_of_alternates {f : Nat → ℝ} {v : ℝ} (h : ∀ n, 0 ≤ (-1) ^ n * (f n - v)) {n : Nat} (hn : Odd n) :
    f n ≤ v ∧ v ≤ f (n + 1) := by
  have hlo := h n
  have hhi := h (n + 1)
  rw [hn.neg_one_pow] at hlo
  rw [hn.add_one.neg_one_pow] at hhi
  exact ⟨by linarith, by linarith⟩

theorem cosTaylor_bounds {n : Nat} (hn : Odd n) {x : ℝ} (hx : 0 ≤ x) :
    cosTaylor n x ≤ Real.cos x ∧ Real.cos x ≤ cosTaylor (n + 1) x :=
  enclosed_of_alternates (f := (cosTaylor · x)) (fun n => (taylor_alternates n).1 x hx) hn

theorem sinTaylor_bounds {n : Nat} (hn : Odd n) {x : ℝ} (hx : 0 ≤ x) :
    sinTaylor n x ≤ Real.sin x ∧ Real.sin x ≤ sinTaylor (n + 1) x :=
  enclosed_of_alternates (f := (sinTaylor · x)) (fun n => (taylor_alternates n).2 x hx) hn

/-! ### The model's partial sums -/

/-- A fraction as the model holds it. -/
noncomputable def fractionValue (t : Int × Nat) : ℝ := (t.1 : ℝ) / t.2

theorem nestedSum_snd_ne_zero {c : Nat → Nat} {q : Nat} (p : Nat) (hq : q ≠ 0) (r : Nat) {j : Nat}
    (hc : ∀ i ≥ j, c i ≠ 0) : (nestedSum c p q r j).2 ≠ 0 := by
  induction r generalizing j with
  | zero => exact one_ne_zero
  | succ r ih => exact mul_ne_zero (mul_ne_zero hq (hc j le_rfl)) (ih fun i hi => hc i (by omega))

/-- One level of the nested sum. -/
theorem fractionValue_nestedSum_succ {c : Nat → Nat} {q : Nat} (p : Nat) (hq : q ≠ 0) (r : Nat) {j : Nat}
    (hc : ∀ i ≥ j, c i ≠ 0) :
    fractionValue (nestedSum c p q (r + 1) j) =
      1 + -((p : ℝ) / q) / c j * fractionValue (nestedSum c p q r (j + 1)) := by
  have hq' : (q : ℝ) ≠ 0 := by exact_mod_cast hq
  have hcj : (c j : ℝ) ≠ 0 := by exact_mod_cast hc j le_rfl
  have hinner : ((nestedSum c p q r (j + 1)).2 : ℝ) ≠ 0 := by
    exact_mod_cast nestedSum_snd_ne_zero p hq r fun i hi => hc i (by omega)
  simp only [fractionValue, nestedSum]
  push_cast
  field_simp
  ring

/-- The nested sum, expanded. -/
theorem fractionValue_nestedSum {c : Nat → Nat} {q : Nat} (p : Nat) (hq : q ≠ 0) (r : Nat) {j : Nat}
    (hc : ∀ i ≥ j, c i ≠ 0) :
    fractionValue (nestedSum c p q r j) =
      ∑ k ∈ Finset.range (r + 1), (-((p : ℝ) / q)) ^ k / ∏ i ∈ Finset.range k, (c (j + i) : ℝ) := by
  induction r generalizing j with
  | zero => simp [fractionValue, nestedSum]
  | succ r ih =>
    have hindex (i : Nat) : c (j + 1 + i) = c (j + (i + 1)) := by rw [Nat.add_assoc, Nat.add_comm 1]
    rw [fractionValue_nestedSum_succ p hq r hc, ih fun i hi => hc i (by omega), Finset.sum_range_succ' _ (r + 1),
      Finset.mul_sum, add_comm]
    congr 1
    · refine Finset.sum_congr rfl fun k _ => ?_
      simp only [hindex]
      rw [Finset.prod_range_succ', pow_succ', Nat.add_zero, div_mul_div_comm, mul_comm (c j : ℝ)]
    · simp

theorem prod_cosLevels (k : Nat) :
    ∏ i ∈ Finset.range k, (((2 * (1 + i) - 1) * (2 * (1 + i)) : Nat) : ℝ) = (2 * k).factorial := by
  induction k with
  | zero => simp
  | succ k ih =>
    rw [Finset.prod_range_succ, ih, show 2 * (k + 1) = 2 * k + 1 + 1 by ring, Nat.factorial_succ, Nat.factorial_succ,
      show 2 * (1 + k) - 1 = 2 * k + 1 by omega]
    push_cast
    ring

theorem prod_sinLevels (k : Nat) :
    ∏ i ∈ Finset.range k, (((2 * (1 + i)) * (2 * (1 + i) + 1) : Nat) : ℝ) = (2 * k + 1).factorial := by
  induction k with
  | zero => simp
  | succ k ih =>
    rw [Finset.prod_range_succ, ih, show 2 * (k + 1) + 1 = 2 * k + 1 + 1 + 1 by ring,
      Nat.factorial_succ (2 * k + 1 + 1), Nat.factorial_succ (2 * k + 1)]
    generalize (2 * k + 1).factorial = f
    push_cast
    ring

theorem cosLevel_ne_zero (j : Nat) (hj : j ≥ 1) : (2 * j - 1) * (2 * j) ≠ 0 := mul_ne_zero (by omega) (by omega)

theorem sinLevel_ne_zero (j : Nat) (hj : j ≥ 1) : (2 * j) * (2 * j + 1) ≠ 0 := mul_ne_zero (by omega) (by omega)

theorem cosPartial_snd_ne_zero (m r : Nat) : (cosPartial m r).2 ≠ 0 :=
  nestedSum_snd_ne_zero _ f64Unit_sq_ne_zero r cosLevel_ne_zero

theorem sinPartial_snd_ne_zero (m r : Nat) : (sinPartial m r).2 ≠ 0 :=
  mul_ne_zero f64Unit_ne_zero (nestedSum_snd_ne_zero _ f64Unit_sq_ne_zero r sinLevel_ne_zero)

theorem fractionValue_cosPartial (m r : Nat) : fractionValue (cosPartial m r) = cosTaylor r (m / f64Unit) := by
  rw [cosPartial, fractionValue_nestedSum _ f64Unit_sq_ne_zero _ cosLevel_ne_zero, cosTaylor]
  refine Finset.sum_congr rfl fun k _ => ?_
  rw [prod_cosLevels, Nat.cast_mul, Nat.cast_mul, neg_pow, pow_mul, mul_div_mul_comm, sq]

theorem fractionValue_sinPartial (m r : Nat) : fractionValue (sinPartial m r) = sinTaylor r (m / f64Unit) := by
  have hnested := fractionValue_nestedSum (m * m) f64Unit_sq_ne_zero r sinLevel_ne_zero
  rw [fractionValue] at hnested
  rw [fractionValue, sinPartial, Int.cast_mul, Nat.cast_mul, Int.cast_natCast, mul_div_mul_comm, hnested, sinTaylor,
    Finset.mul_sum]
  refine Finset.sum_congr rfl fun k _ => ?_
  rw [prod_sinLevels, Nat.cast_mul, Nat.cast_mul, neg_pow, mul_div_mul_comm, ← sq, ← pow_mul, pow_succ]
  ring

/-! ### Correct rounding -/

theorem roundSeries_of_alike {partialSum : Nat → Int × Nat} {r : Nat} (tries : Nat)
    (h : rneFrac (partialSum r).1 (partialSum r).2 = rneFrac (partialSum (r + 1)).1 (partialSum (r + 1)).2) :
    roundSeries partialSum (tries + 1) r = rneFrac (partialSum r).1 (partialSum r).2 := if_pos h

/-- A fraction that rounds to a finite value rounds to a nearest one. -/
theorem isNearestReal_of_isFinite {t : Int × Nat} (hden : t.2 ≠ 0) (h : F64.isFinite (rneFrac t.1 t.2) = true) :
    IsNearestReal (fractionValue t * f64Unit) (rneFrac t.1 t.2) := by
  refine (isNearest_iff hden).mp (isNearest_rneFrac hden fun hover => ?_)
  rw [rneFrac_of_overflows hden hover, F64.isFinite_iff, F64.pattern_ofSignMag _ (by decide)] at h
  omega

/-- A value that is nearest to two bounds is nearest to all between them. -/
theorem nearest_of_bracket {lo hi v : ℝ} {y z : F64} (hlo : IsNearestReal lo y) (hhi : IsNearestReal hi y)
    (hv : lo ≤ v ∧ v ≤ hi) (hz : F64.isFinite z = true) : |v - F64.scaled y| ≤ |v - F64.scaled z| := by
  obtain ⟨hlov, hvhi⟩ := hv
  have h1 := (hlo.2 z hz).1
  have h2 := (hhi.2 z hz).1
  rw [← sq_le_sq] at h1 h2 ⊢
  rcases le_total (F64.scaled y : ℝ) (F64.scaled z) with hyz | hzy
  · have hstep := mul_le_mul_of_nonneg_right hvhi (sub_nonneg.mpr hyz)
    linarith
  · have hstep := mul_le_mul_of_nonneg_right hlov (sub_nonneg.mpr hzy)
    linarith

/-- Where a lower and an upper partial sum round to the same finite value, so does all between them. -/
theorem roundSeries_nearest {partialSum : Nat → Int × Nat} {r : Nat} {v : ℝ} (hden : ∀ k, (partialSum k).2 ≠ 0)
    (halike : rneFrac (partialSum r).1 (partialSum r).2 = rneFrac (partialSum (r + 1)).1 (partialSum (r + 1)).2)
    (hfin : F64.isFinite (rneFrac (partialSum r).1 (partialSum r).2) = true)
    (hv : fractionValue (partialSum r) ≤ v ∧ v ≤ fractionValue (partialSum (r + 1))) (tries : Nat) {z : F64}
    (hz : F64.isFinite z = true) :
    |v * f64Unit - F64.scaled (roundSeries partialSum (tries + 1) r)| ≤ |v * f64Unit - F64.scaled z| := by
  obtain ⟨hlo, hhi⟩ := hv
  rw [roundSeries_of_alike tries halike]
  have hupper := isNearestReal_of_isFinite (hden (r + 1)) (halike ▸ hfin)
  rw [← halike] at hupper
  exact nearest_of_bracket (isNearestReal_of_isFinite (hden r) hfin) hupper
    ⟨mul_le_mul_of_nonneg_right hlo f64Unit_pos.le, mul_le_mul_of_nonneg_right hhi f64Unit_pos.le⟩ hz

/-- Settles O60: the Taylor polynomials of 23 and 24 terms enclose the value, and both round to the result. -/
theorem cosSinCorrectlyRounded : Obligations.CosSinCorrectlyRounded := by
  intro x _ hneg nearest alike
  have hangle : (F64.scaled x : ℝ) / f64Unit = (F64.magScaled x : ℝ) / f64Unit := by
    rw [F64.scaled, hneg]
    rfl
  have hnonneg : 0 ≤ (F64.magScaled x : ℝ) / f64Unit := div_nonneg (Nat.cast_nonneg _) f64Unit_pos.le
  have hodd : Odd 23 := by decide
  rw [hangle]
  constructor
  · rintro ⟨halike, hfin⟩ z hz
    refine roundSeries_nearest (cosPartial_snd_ne_zero _) halike hfin ?_ 31 hz
    rw [fractionValue_cosPartial, fractionValue_cosPartial]
    exact cosTaylor_bounds hodd hnonneg
  · rintro ⟨halike, hfin⟩ z hz
    refine roundSeries_nearest (sinPartial_snd_ne_zero _) halike hfin ?_ 31 hz
    rw [fractionValue_sinPartial, fractionValue_sinPartial]
    exact sinTaylor_bounds hodd hnonneg

/-! ### The twiddle's angle, and property T1 -/

/-- PI64 is below 4. -/
theorem scaled_pi64_bounds : 0 ≤ F64.scaled Config.pi64 ∧ F64.scaled Config.pi64 ≤ 4 * f64Unit := by decide +kernel

/-- The angle of a twiddle is far below the overflow bound. -/
theorem not_overflows_twiddleAngle {i n : Nat} (h : i < n) :
    ¬ Overflows (F64.scaled Config.pi64 * i) (f64Unit * n) := by
  obtain ⟨hlo, hhi⟩ := scaled_pi64_bounds
  have hbig : 4 ≤ 2 ^ 1024 - 2 ^ 970 := by decide +kernel
  have hunit := Nat.pos_of_ne_zero f64Unit_ne_zero
  have hangle : (F64.scaled Config.pi64 * i).natAbs < 4 * (f64Unit * n) := by
    calc (F64.scaled Config.pi64 * i).natAbs = (F64.scaled Config.pi64).natAbs * i := by
          rw [Int.natAbs_mul, Int.natAbs_natCast]
      _ ≤ 4 * f64Unit * i := Nat.mul_le_mul_right i (by omega)
      _ < 4 * f64Unit * n := Nat.mul_lt_mul_of_pos_left h (by omega)
      _ = 4 * (f64Unit * n) := Nat.mul_assoc _ _ _
  rw [Overflows, not_le]
  exact hangle.trans_le (Nat.mul_le_mul_right _ hbig)

theorem twiddleAngle_isNearest {i n : Nat} (h : i < n) :
    IsNearest (F64.scaled Config.pi64 * i) (f64Unit * n) (twiddleAngle i n) :=
  isNearest_rneFrac (mul_ne_zero f64Unit_ne_zero (by omega)) (not_overflows_twiddleAngle h)

theorem twiddleAngle_zero (n : Nat) : twiddleAngle 0 n = 0 := by
  rw [twiddleAngle, Nat.cast_zero, mul_zero, rneFrac_zero]

theorem cosF_zero : cosF 0 = 0x3FF0000000000000 := by decide +kernel

theorem sinF_zero : sinF 0 = 0 := by decide +kernel

/-- Settles O43: the angle is rounded once, and is 0 at index 0. -/
theorem twiddleAtZero : Obligations.TwiddleAtZero := by
  intro n _
  refine ⟨?_, fun i hi => ⟨twiddleAngle i n, twiddleAngle_isNearest hi, rfl⟩⟩
  rw [twiddle, twiddleAngle_zero, cosF_zero, sinF_zero]
  exact ⟨rfl, .inr rfl⟩

end Sys2Proof.Machine

/-! # The state of the block: the statements of 10_state -/

namespace Sys2Proof.Machine

/-! ## What one core step can do

`exec` said once, from any state: the core steps that answer a next state, and what holds where each is made. -/

/-- The command `i`, with RUN in the sub-operation `sub`, is transforming (42_fft R151). -/
def Transforms (i : Instr) (sub : Option SubOp) : Prop := i = .transform ∨ (i = .run ∧ sub = some .transform)

/-- The command `i`, with RUN in the sub-operation `sub`, is scanning (43_peak_scan R173). -/
def Scans (i : Instr) (sub : Option SubOp) : Prop := i = .scan ∨ (i = .run ∧ sub = some .scan)

/-- What follows the body of ACQUIRE in the command `i` (44_command_control R197). -/
def afterAcquire : Instr → State → State
  | .run => enterSub .transform .fft
  | _ => goto .fin

/-- What follows the body of TRANSFORM in the command `i` (44_command_control R197). -/
def afterTransform : Instr → State → State
  | .run => enterSub .scan .scan
  | _ => goto .fin

/-- The next states of a core step of the command `i`. -/
inductive CoreStepTo (i : Instr) (s : State) : State → Prop
  | completes : i = .nop ∨ s.seq.phase = .fin → CoreStepTo i s (complete s)
  | timesOut (index : Nat) (op : Byte) : ReadsSamples i s.seq.sub → s.seq.phase = .poll →
      s.seq.polls = s.latched.p.toNat → CoreStepTo i s (raiseErr .sampleTimeout index op s)
  | polls : ReadsSamples i s.seq.sub → s.seq.phase = .poll → s.seq.polls ≠ s.latched.p.toNat →
      CoreStepTo i s (pollOnce s)
  | readsB2 : ReadsSamples i s.seq.sub → s.seq.phase = .readB2 → CoreStepTo i s (readB2Step s)
  | readsB1 : ReadsSamples i s.seq.sub → s.seq.phase = .readB1 → CoreStepTo i s (readB1Step s)
  | readsB0 : i = .readSample → s.seq.phase = .readB0 → CoreStepTo i s (goto .fin (readB0Step s))
  | acquiresB0 : Acquires i s.seq.sub → s.seq.phase = .readB0 → CoreStepTo i s (goto .store (readB0Step s))
  | acquireRefuses (e : ErrKind) (op : Byte) : Acquires i s.seq.sub → s.seq.phase = .init →
      CoreStepTo i s (raiseErr e 0 op s)
  | acquiresNothing : Acquires i s.seq.sub → s.seq.phase = .init → legalN s.nMax s.latched.n = true →
      s.latched.s.toNat = 0 → CoreStepTo i s (afterAcquire i (acquireClear s))
  | startsAcquiring : Acquires i s.seq.sub → s.seq.phase = .init → legalN s.nMax s.latched.n = true →
      s.latched.s.toNat ≤ s.latched.n.toNat → s.latched.s.toNat ≠ 0 →
      CoreStepTo i s (startSample 0 (acquireClear s))
  | storesLast : Acquires i s.seq.sub → s.seq.phase = .store → s.seq.i + 1 = s.latched.s.toNat →
      CoreStepTo i s (afterAcquire i { useSample s with seq := { s.seq with i := s.seq.i + 1 } })
  | stores : Acquires i s.seq.sub → s.seq.phase = .store → s.seq.i + 1 ≠ s.latched.s.toNat →
      CoreStepTo i s (startSample (s.seq.i + 1) (useSample s))
  | transformRefuses (e : ErrKind) (op : Byte) : Transforms i s.seq.sub → s.seq.phase = .fft →
      CoreStepTo i s (raiseErr e 0 op s)
  | transforms : Transforms i s.seq.sub → s.seq.phase = .fft → legalN s.nMax s.latched.n = true →
      CoreStepTo i s (afterTransform i (transformBuf s.latched.n.toNat s))
  | scanRefuses (e : ErrKind) (op : Byte) : Scans i s.seq.sub → s.seq.phase = .scan →
      CoreStepTo i s (raiseErr e 0 op { s with peakCount := 0 })
  | scansNothing : Scans i s.seq.sub → s.seq.phase = .scan → CoreStepTo i s (goto .fin { s with peakCount := 0 })
  | scans : Scans i s.seq.sub → s.seq.phase = .scan → legalN s.nMax s.latched.n = true →
      CoreStepTo i s (goto .fin (scanWindow s))

section
variable {i : Instr} {s t : State}

theorem coreStepTo_pollStep (hr : ReadsSamples i s.seq.sub) (hp : s.seq.phase = .poll) (index : Nat) (op : Byte) :
    CoreStepTo i s (pollStep index op s) := by
  rcases pollStep_cases index op s with ⟨hspent, h⟩ | ⟨hmore, h⟩ <;> rw [h]
  · exact .timesOut index op hr hp hspent
  · exact .polls hr hp hmore

theorem coreStepTo_acquireInit (ha : Acquires i s.seq.sub) (hp : s.seq.phase = .init) (op : Byte) :
    CoreStepTo i s (acquireInit (afterAcquire i) op s) := by
  rcases acquireInit_cases (afterAcquire i) op s with
    ⟨-, h⟩ | ⟨-, -, h⟩ | ⟨hn, -, h0, h⟩ | ⟨hn, hle, h0, h⟩ <;> rw [h]
  · exact .acquireRefuses _ op ha hp
  · exact .acquireRefuses _ op ha hp
  · exact .acquiresNothing ha hp hn h0
  · exact .startsAcquiring ha hp hn hle h0

theorem coreStepTo_acquireStore (ha : Acquires i s.seq.sub) (hp : s.seq.phase = .store) :
    CoreStepTo i s (acquireStore (afterAcquire i) s) := by
  rcases acquireStore_cases (afterAcquire i) s with ⟨hlast, h⟩ | ⟨hmore, h⟩ <;> rw [h]
  · exact .storesLast ha hp hlast
  · exact .stores ha hp hmore

theorem coreStepTo_transformBody (ht : Transforms i s.seq.sub) (hp : s.seq.phase = .fft) (op : Byte) :
    CoreStepTo i s (transformBody (afterTransform i) op s) := by
  rcases transformBody_cases (afterTransform i) op s with ⟨-, h⟩ | ⟨hn, h⟩ <;> rw [h]
  · exact .transformRefuses _ op ht hp
  · exact .transforms ht hp hn

theorem coreStepTo_scanBody (hs : Scans i s.seq.sub) (hp : s.seq.phase = .scan) (op : Byte) :
    CoreStepTo i s (scanBody op s) := by
  rcases scanBody_cases op s with ⟨-, h⟩ | ⟨-, -, h⟩ | ⟨-, -, -, h⟩ | ⟨-, -, -, -, h⟩ | ⟨hn, -, -, -, h⟩ <;> rw [h]
  · exact .scanRefuses _ op hs hp
  · exact .scanRefuses _ op hs hp
  · exact .scansNothing hs hp
  · exact .scanRefuses _ op hs hp
  · exact .scans hs hp hn

theorem readsSamples_of_acquires {sub : Option SubOp} (h : Acquires i sub) : ReadsSamples i sub := .inr h

theorem coreStepTo_of_execReadSample (h : execReadSample s = .next t) : CoreStepTo .readSample s t := by
  have hr : ReadsSamples .readSample s.seq.sub := .inl rfl
  cases hp : s.seq.phase <;> simp only [execReadSample, hp] at h <;> cases h
  case poll => exact coreStepTo_pollStep hr hp _ _
  case readB2 => exact .readsB2 hr hp
  case readB1 => exact .readsB1 hr hp
  case readB0 => exact .readsB0 rfl hp
  case fin => exact .completes (.inr hp)

theorem coreStepTo_of_acquireBody (ha : Acquires i s.seq.sub) {op : Byte}
    (h : acquireBody (afterAcquire i) op s = .next t) : CoreStepTo i s t := by
  have hr := readsSamples_of_acquires ha
  cases hp : s.seq.phase <;> simp only [acquireBody, hp] at h <;> cases h
  case init => exact coreStepTo_acquireInit ha hp op
  case poll => exact coreStepTo_pollStep hr hp _ op
  case readB2 => exact .readsB2 hr hp
  case readB1 => exact .readsB1 hr hp
  case readB0 => exact .acquiresB0 ha hp
  case store => exact coreStepTo_acquireStore ha hp

theorem coreStepTo_of_execAcquire (h : execAcquire s = .next t) : CoreStepTo .acquire s t := by
  unfold execAcquire at h
  split at h
  next hp => cases h; exact .completes (.inr hp)
  next => exact coreStepTo_of_acquireBody (.inl rfl) h

theorem coreStepTo_of_execTransform (h : execTransform s = .next t) : CoreStepTo .transform s t := by
  cases hp : s.seq.phase <;> simp only [execTransform, hp] at h <;> cases h
  case fft => exact coreStepTo_transformBody (i := .transform) (.inl rfl) hp _
  case fin => exact .completes (.inr hp)

theorem coreStepTo_of_execScan (h : execScan s = .next t) : CoreStepTo .scan s t := by
  cases hp : s.seq.phase <;> simp only [execScan, hp] at h <;> cases h
  case scan => exact coreStepTo_scanBody (.inl rfl) hp _
  case fin => exact .completes (.inr hp)

theorem coreStepTo_of_runBody (h : runBody s = .next t) : CoreStepTo .run s t := by
  unfold runBody at h
  split at h
  next hsub => exact coreStepTo_of_acquireBody (i := .run) (.inr ⟨rfl, hsub⟩) h
  next hsub =>
    split at h <;> cases h
    next hp => exact coreStepTo_transformBody (i := .run) (.inr ⟨rfl, hsub⟩) hp _
  next hsub =>
    split at h <;> cases h
    next hp => exact coreStepTo_scanBody (.inr ⟨rfl, hsub⟩) hp _
  next => cases h

theorem coreStepTo_of_execRun (h : execRun s = .next t) : CoreStepTo .run s t := by
  unfold execRun at h
  split at h
  next hp => cases h; exact .completes (.inr hp)
  next => exact coreStepTo_of_runBody h

/-- Everything that a core step can do. -/
theorem coreStepTo_of_exec (h : exec i s = .next t) : CoreStepTo i s t := by
  cases i with
  | nop => cases h; exact .completes (.inl rfl)
  | readSample => exact coreStepTo_of_execReadSample h
  | acquire => exact coreStepTo_of_execAcquire h
  | transform => exact coreStepTo_of_execTransform h
  | scan => exact coreStepTo_of_execScan h
  | run => exact coreStepTo_of_execRun h

end

end Sys2Proof.Machine

namespace Sys2Proof.Machine

/-! ## The invariant, one update at a time -/

section
variable {i : Instr} {s t : State}

/-! ### A running command -/

theorem State.Inv.busy_of_op (h : s.Inv) (hop : s.seq.op = some i) : s.status.busy = true :=
  h.busyOp.mpr (by simp [hop])

theorem State.Inv.errIndex_of_busy (h : s.Inv) (hb : s.status.busy = true) : s.errIndex = 0 := by
  obtain ⟨-, -, hcode, -⟩ := h.status.1 hb
  by_contra hne
  have := h.errIndex hne
  simp [hcode] at this

/-! ### Legal positions of the sequencer -/

theorem Seq.legal.sub_eq_none {q : Seq} (hq : q.legal) (hop : q.op = some i) (hi : i ≠ .run) : q.sub = none := by
  cases hsub : q.sub with
  | none => rfl
  | some sub => cases i <;> simp_all [Seq.legal]

theorem Seq.legal_sampling {q : Seq} (hq : q.legal) (hop : q.op = some i) (hr : ReadsSamples i q.sub) {p : Phase}
    (hp : p.sampling = true) (hstore : p = .store → i ≠ .readSample) : Seq.legal { q with phase := p } := by
  rcases hr with rfl | rfl | ⟨rfl, hsub⟩
  · have hsub := hq.sub_eq_none hop (by decide)
    have hne : p ≠ .store := fun h => hstore h rfl
    simp [Seq.legal, hop, hsub, hp, hne]
  · have hsub := hq.sub_eq_none hop (by decide)
    simp [Seq.legal, hop, hsub, hp]
  · simp [Seq.legal, hop, hsub, hp]

theorem Seq.legal_init {q : Seq} (hq : q.legal) (hop : q.op = some i) (ha : Acquires i q.sub) :
    Seq.legal { q with phase := .init } := by
  rcases ha with rfl | ⟨rfl, hsub⟩
  · have hsub := hq.sub_eq_none hop (by decide)
    simp [Seq.legal, hop, hsub]
  · simp [Seq.legal, hop, hsub]

theorem Seq.legal_fin {q : Seq} (hq : q.legal) (hop : q.op = some i) (hi : i ≠ .run ∨ q.sub = some .scan) :
    Seq.legal { q with phase := .fin } := by
  rcases hi with hi | hsub
  · have hsub := hq.sub_eq_none hop hi
    cases i <;> simp_all [Seq.legal]
  · cases i <;> simp_all [Seq.legal]

theorem acquireBody_next (hp : s.seq.phase = .init ∨ s.seq.phase.sampling = true) (leave : State → State)
    (op : Byte) : ∃ t, acquireBody leave op s = .next t := by
  cases h : s.seq.phase <;> simp [h, Phase.sampling] at hp <;> simp [acquireBody, h]

/-- A command in a legal position answers a next state: the faults are for the other positions (log 15). -/
theorem exec_next_of_legal (hq : s.seq.legal) (hop : s.seq.op = some i) : ∃ t, exec i s = .next t := by
  by_cases hi : i = .run
  · subst hi
    change ∃ t, execRun s = .next t
    rcases hsub : s.seq.sub with _ | _ | _ | _ <;> simp only [Seq.legal, hop, hsub] at hq
    case some.acquire =>
      obtain ⟨t, ht⟩ := acquireBody_next hq (enterSub .transform .fft) (SubOp.opcode .acquire)
      simp only [execRun, runBody, hsub, ht]
      split <;> exact ⟨_, rfl⟩
    case some.transform => simp [execRun, runBody, hsub, hq]
    case some.scan => rcases hq with hq | hq <;> simp [execRun, runBody, hsub, hq]
  · have hsub := hq.sub_eq_none hop hi
    cases i <;> simp only [Seq.legal, hop, hsub] at hq
    case nop => exact ⟨_, rfl⟩
    case readSample => cases hp : s.seq.phase <;> simp [hp, Phase.sampling] at hq <;> simp [exec, execReadSample, hp]
    case acquire =>
      by_cases hfin : s.seq.phase = .fin
      · simp [exec, execAcquire, hfin]
      · have hp : s.seq.phase = .init ∨ s.seq.phase.sampling = true := by simpa [hfin] using hq
        simpa [exec, execAcquire, hfin] using acquireBody_next hp (goto .fin) Instr.acquire.opcode
    case transform => rcases hq with hq | hq <;> simp [exec, execTransform, hq]
    case scan => rcases hq with hq | hq <;> simp [exec, execScan, hq]

/-- The invariant says nothing about the two interfaces, and lets the draw counter grow. -/
theorem State.Inv.interfaces (h : s.Inv) (env : List Move) (adc : List Byte) (history : List Event) {draws : Nat}
    (hd : s.draws ≤ draws) :
    State.Inv { s with env := env, adc := adc, history := history, draws := draws } :=
  { h with epochs := ⟨h.epochs.1.trans hd, h.epochs.2.trans hd⟩ }

theorem busRead_eq (reg : Byte) (s : State) :
    busRead reg s = { s with
      adc := s.adc.tail, history := .busRead reg s.adcAnswer :: s.history
      draws := if s.adc = [] then s.draws + 1 else s.draws } := by
  unfold busRead State.adcAdvance
  cases h : s.adc <;> simp

theorem State.Inv.busRead (h : s.Inv) (reg : Byte) : (busRead reg s).Inv := by
  rw [busRead_eq]
  exact h.interfaces _ _ _ (by split <;> omega)

/-- A state in which no command runs: its flags decide. -/
theorem State.Inv.ended (h : s.Inv) {status : Status} {errIndex : Word} (latched : Latched) (hlegal : status.legal)
    (hcode : status.codeLegal) (hbusy : status.busy = false) (hindex : errIndex ≠ 0 → status.errCode = 4) :
    State.Inv { s with
      status := status, errIndex := errIndex, latched := latched, seq := { s.seq with op := none, sub := none } } :=
  { h with
    status := hlegal
    code := hcode
    busyOp := by simp [hbusy]
    resetIdle := fun _ => rfl
    seqLegal := trivial
    latchAgrees := by simp [hbusy]
    counts := by simp [hbusy]
    acquiring := by simp [State.acquiring]
    pastAcquire := by simp [State.pastAcquire]
    accBound := ⟨h.accBound.1, by simp [State.acquiring]⟩
    errIndex := hindex }

theorem ErrKind.code_ne_zero (e : ErrKind) : e.code ≠ 0 := by cases e <;> decide

theorem Status.legal_enterError (st : Status) (e : ErrKind) (op : Byte) : (st.enterError e.code op).legal :=
  ⟨by simp, fun _ => ⟨rfl, e.code_ne_zero⟩, by simp⟩

theorem Status.codeLegal_enterError (st : Status) (e : ErrKind) (op : Byte) :
    (st.enterError e.code op).codeLegal := by
  cases e <;> simp [Status.codeLegal, ErrKind.code]

theorem State.Inv.raiseErr (h : s.Inv) (hindex : s.errIndex = 0) (e : ErrKind) (info : Nat) (op : Byte) :
    (raiseErr e info op s).Inv :=
  h.ended _ (Status.legal_enterError _ e op) (Status.codeLegal_enterError _ e op) rfl (by
    cases e <;> simp [hindex, ErrKind.code])

theorem State.Inv.complete (h : s.Inv) (hb : s.status.busy = true) : (complete s).Inv := by
  obtain ⟨-, herr, hcode, hop⟩ := h.status.1 hb
  exact h.ended _ ⟨by simp, by simp [herr], by simp [hcode, hop]⟩ h.code rfl h.errIndex

/-! ### A sample under way -/

/-- From one phase of the sample reader to another. -/
theorem State.Inv.nextPhase (h : s.Inv) (hop : s.seq.op = some i) (hr : ReadsSamples i s.seq.sub)
    (hs : s.seq.phase.sampling = true) {p : Phase} (hp : p.sampling = true) (hstore : p = .store → i ≠ .readSample)
    {polls : Nat} (hpolls : polls ≤ s.latched.p.toNat) (b2 b1 : Byte) :
    State.Inv { s with seq := { s.seq with polls := polls, phase := p, b2 := b2, b1 := b1 } } :=
  { h with
    seqLegal := Seq.legal_sampling h.seqLegal hop hr hp hstore
    counts := fun hb => ⟨(h.counts hb).1, hpolls⟩
    acquiring := fun ha => h.acquiring ⟨ha.1, hs⟩
    pastAcquire := h.pastAcquire
    accBound := ⟨h.accBound.1, fun ha => h.accBound.2 ⟨ha.1, hs⟩⟩ }

/-- To a position in which no sample is under way. -/
theorem State.Inv.reposition (h : s.Inv) {q : Seq} (hop : q.op = s.seq.op) (hlegal : q.legal)
    (hcounts : s.status.busy = true → q.i ≤ s.latched.s.toNat ∧ q.polls ≤ s.latched.p.toNat)
    (hp : q.phase.sampling = false)
    (hpast : State.pastAcquire { s with seq := q } →
      legalN s.nMax s.latched.n = true ∧ s.latched.s.toNat ≤ s.latched.n.toNat) :
    State.Inv { s with seq := q } :=
  { h with
    busyOp := by simpa [hop] using h.busyOp
    resetIdle := by simpa [hop] using h.resetIdle
    seqLegal := hlegal
    counts := hcounts
    acquiring := by simp [State.acquiring, hp]
    pastAcquire := hpast
    accBound := ⟨h.accBound.1, by simp [State.acquiring, hp]⟩ }

theorem State.Inv.goto (h : s.Inv) {p : Phase} (hlegal : Seq.legal { s.seq with phase := p })
    (hp : p.sampling = false) : (goto p s).Inv :=
  h.reposition rfl hlegal h.counts hp h.pastAcquire

theorem State.Inv.pollOnce (h : s.Inv) (hop : s.seq.op = some i) (hr : ReadsSamples i s.seq.sub)
    (hp : s.seq.phase = .poll) (hmore : s.seq.polls ≠ s.latched.p.toNat) : (pollOnce s).Inv := by
  have hpolls := (h.counts (h.busy_of_op hop)).2
  exact (h.busRead _).nextPhase (by simpa using hop) (by simpa using hr) (by simp [hp, Phase.sampling])
    (by split <;> rfl) (by split <;> simp) (by simpa using by omega) _ _

theorem State.Inv.readB2Step (h : s.Inv) (hop : s.seq.op = some i) (hr : ReadsSamples i s.seq.sub)
    (hp : s.seq.phase = .readB2) : (readB2Step s).Inv :=
  (h.busRead _).nextPhase (by simpa using hop) (by simpa using hr) (by simp [hp, Phase.sampling]) rfl (by simp)
    ((h.busRead _).counts (by simpa using h.busy_of_op hop)).2 _ _

theorem State.Inv.readB1Step (h : s.Inv) (hop : s.seq.op = some i) (hr : ReadsSamples i s.seq.sub)
    (hp : s.seq.phase = .readB1) : (readB1Step s).Inv :=
  (h.busRead _).nextPhase (by simpa using hop) (by simpa using hr) (by simp [hp, Phase.sampling]) rfl (by simp)
    ((h.busRead _).counts (by simpa using h.busy_of_op hop)).2 _ _

theorem State.Inv.readB0Step (h : s.Inv) : (readB0Step s).Inv :=
  { h.busRead s.latched.b0Reg with sample := rfl }

theorem State.Inv.acquiresB0 (h : s.Inv) (hop : s.seq.op = some i) (ha : Acquires i s.seq.sub)
    (hp : s.seq.phase = .readB0) : (Machine.goto .store (Machine.readB0Step s)).Inv :=
  h.readB0Step.nextPhase (by simpa using hop) (by simpa using readsSamples_of_acquires ha)
    (by simp [hp, Phase.sampling]) rfl (by rintro - rfl; simp [Acquires] at ha)
    (h.readB0Step.counts (by simpa using h.busy_of_op hop)).2 _ _

/-! ### Between two samples of ACQUIRE -/

/-- The next sample's poll loop. -/
theorem State.Inv.startSample (h : s.Inv) (hop : s.seq.op = some i) (ha : Acquires i s.seq.sub)
    (hn : legalN s.nMax s.latched.n = true) (hle : s.latched.s.toNat ≤ s.latched.n.toNat) {k : Nat}
    (hk : k < s.latched.s.toNat) (hacc : s.acc.toInt.natAbs ≤ k * 2 ^ 23) : (startSample k s).Inv :=
  { h with
    seqLegal := Seq.legal_sampling h.seqLegal hop (readsSamples_of_acquires ha) rfl (by simp)
    counts := fun _ => ⟨hk.le, Nat.zero_le _⟩
    acquiring := fun _ => ⟨hk, hn, hle⟩
    pastAcquire := h.pastAcquire
    accBound := ⟨h.accBound.1, fun _ => hacc⟩ }

/-- The end of ACQUIRE, or RUN's way on to TRANSFORM. -/
theorem State.Inv.afterAcquire (h : s.Inv) (hop : s.seq.op = some i) (ha : Acquires i s.seq.sub)
    (hn : legalN s.nMax s.latched.n = true) (hle : s.latched.s.toNat ≤ s.latched.n.toNat) {q : Seq}
    (hsame : q.op = s.seq.op ∧ q.sub = s.seq.sub) (hq : q.i ≤ s.latched.s.toNat ∧ q.polls ≤ s.latched.p.toNat) :
    (afterAcquire i { s with seq := q }).Inv := by
  obtain ⟨hqop, hqsub⟩ := hsame
  rcases ha with rfl | ⟨rfl, -⟩
  · have hsub := h.seqLegal.sub_eq_none hop (by decide)
    exact h.reposition (q := { q with phase := .fin }) hqop (by simp [Seq.legal, hqop, hqsub, hop, hsub])
      (fun _ => hq) rfl (fun _ => ⟨hn, hle⟩)
  · exact h.reposition (q := { q with sub := some .transform, phase := .fft }) hqop
      (by simp [Seq.legal, hqop, hop]) (fun _ => hq) rfl (fun _ => ⟨hn, hle⟩)

/-! ### Stores into BUF and PEAK -/

theorem State.setBufs_eq (zs : List Cplx) (k : Nat) (s : State) :
    s.setBufs k zs = { s with mem := (s.setBufs k zs).mem } := by
  induction zs generalizing k s with
  | nil => rfl
  | cons z zs ih => exact ih (k + 1) (s.setBuf k z)

theorem State.setPeaks_eq (es : List PeakEntry) (k : Nat) (s : State) :
    s.setPeaks k es = { s with mem := (s.setPeaks k es).mem } := by
  induction es generalizing k s with
  | nil => rfl
  | cons e es ih => exact ih (k + 1) (s.setPeak k e)

theorem State.Inv.setBufs (h : s.Inv) {k : Nat} {zs : List Cplx} (hk : k + zs.length ≤ s.nMax.toNat) :
    (s.setBufs k zs).Inv := by
  rw [State.setBufs_eq]
  refine { h with memWf := State.setBufs_wf zs k h.memWf, memRange := fun c hc => ?_ }
  refine (State.mem_setBufs hc).elim (fun hin => .inl ?_) (h.memRange c)
  simp only [bufAddr] at hin ⊢
  omega

theorem State.Inv.setPeaks (h : s.Inv) {k : Nat} {es : List PeakEntry} (hk : k + es.length ≤ s.nMax.toNat) :
    (s.setPeaks k es).Inv := by
  rw [State.setPeaks_eq]
  refine { h with memWf := State.setPeaks_wf es k h.memWf, memRange := fun c hc => ?_ }
  refine (State.mem_setPeaks hc).elim (fun hin => .inr ?_) (h.memRange c)
  simp only [peakAddr] at hin ⊢
  omega

theorem State.Inv.acquireClear (h : s.Inv) (hn : legalN s.nMax s.latched.n = true) : (acquireClear s).Inv :=
  { h.setBufs (k := 0) (zs := List.replicate s.latched.n.toNat ⟨F64.posZero, F64.posZero⟩)
      (by simpa using (legalN_bounds hn).2) with
    accBound := ⟨by simp [Machine.acquireClear], fun _ => by simp [Machine.acquireClear]⟩ }

theorem State.Inv.transformBuf (h : s.Inv) {n : Nat} (hn : n ≤ s.nMax.toNat) : (transformBuf n s).Inv :=
  { h.setBufs (k := 0) (zs := fftOfBuf s n) (by simpa using hn) with
    epochs := by
      obtain ⟨hmem, -⟩ := h.epochs
      simpa using by omega }

theorem State.Inv.scanWindow (h : s.Inv) (hn : legalN s.nMax s.latched.n = true) : (scanWindow s).Inv := by
  have hlen := (scanEntries_length_le s).trans (legalN_bounds hn).2
  exact
    { h.setPeaks (k := 0) (es := scanEntries s) (by simpa using hlen) with
      peakCount := by
        rw [scanWindow_peakCount, scanWindow_nMax, BitVec.toNat_ofNat]
        exact (Nat.mod_le _ _).trans hlen
      epochs := by
        obtain ⟨hmem, hscr⟩ := h.epochs
        simpa using by omega }

/-! ### The accumulator (41_bias_acquire R131) -/

/-- A sample is a 24-bit integer. -/
theorem natAbs_extendSample_le (raw : BitVec 24) : (extendSample raw).toInt.natAbs ≤ 2 ^ 23 := by
  have hlo := BitVec.le_toInt raw
  have hhi := BitVec.toInt_lt (x := raw)
  rw [extendSample, BitVec.toInt_signExtend_of_le (by decide)]
  omega

/-- Below the bound of R131 one more sample does not wrap ACC. -/
theorem natAbs_acc_add_le {acc : DWord} {v : Word} {b : Nat} (hacc : acc.toInt.natAbs ≤ b) (hb : b ≤ 2 ^ 39)
    (hv : v.toInt.natAbs ≤ 2 ^ 23) : (acc + v.signExtend 64).toInt.natAbs ≤ b + 2 ^ 23 := by
  rw [BitVec.toInt_add, BitVec.toInt_signExtend_of_le (by decide), Int.bmod_eq_of_le (by omega) (by omega)]
  omega

theorem State.acquiring_of_acquires (hop : s.seq.op = some i) (ha : Acquires i s.seq.sub)
    (hs : s.seq.phase.sampling = true) : s.acquiring := by
  refine ⟨?_, hs⟩
  rcases ha with rfl | ⟨rfl, hsub⟩
  · exact .inl hop
  · exact .inr ⟨hop, hsub⟩

theorem State.Inv.latched_n_le (h : s.Inv) (hn : legalN s.nMax s.latched.n = true) : s.latched.n.toNat ≤ 65536 :=
  (legalN_bounds hn).2.trans (legalCapacity_bounds h.capacity).2

/-- Once a sample is used and no other is under way, the invariant holds, with one more sample in ACC at most. -/
theorem State.Inv.useSample (h : s.Inv) (hop : s.seq.op = some i) (ha : Acquires i s.seq.sub)
    (hp : s.seq.phase = .store) :
    (Machine.goto .init (useSample s)).Inv ∧ (useSample s).acc.toInt.natAbs ≤ (s.seq.i + 1) * 2 ^ 23 := by
  have hacq := State.acquiring_of_acquires hop ha (by rw [hp]; rfl)
  obtain ⟨hi, hn, hle⟩ := h.acquiring hacq
  have hacc := h.accBound.2 hacq
  have hmax := h.latched_n_le hn
  have hlegal := Seq.legal_init h.seqLegal hop ha
  rcases useSample_cases s with ⟨-, hu⟩ | ⟨-, hu⟩ <;> rw [hu]
  · have hv : s.sampleVal.toInt.natAbs ≤ 2 ^ 23 := h.sample ▸ natAbs_extendSample_le s.sampleRaw
    have hsum := natAbs_acc_add_le hacc (by omega) hv
    refine ⟨{ h.goto hlegal rfl with accBound := ⟨?_, by simp [State.acquiring, Phase.sampling]⟩ }, ?_⟩
    · exact hsum.trans (by omega)
    · exact hsum.trans (by omega)
  · have hbuf : (storeCentered s).Inv := h.setBufs (k := s.seq.i) (zs := [_]) (by
      have := (legalN_bounds hn).2
      simp only [List.length_singleton]
      omega)
    exact ⟨hbuf.goto hlegal rfl, hacc.trans (by omega)⟩

theorem State.Inv.stores (h : s.Inv) (hop : s.seq.op = some i) (ha : Acquires i s.seq.sub)
    (hp : s.seq.phase = .store) (hmore : s.seq.i + 1 ≠ s.latched.s.toNat) :
    (Machine.startSample (s.seq.i + 1) (Machine.useSample s)).Inv := by
  obtain ⟨hi, hn, hle⟩ := h.acquiring (State.acquiring_of_acquires hop ha (by rw [hp]; rfl))
  obtain ⟨hu, hacc⟩ := h.useSample hop ha hp
  exact hu.startSample (by simpa using hop) (by simpa using ha) (by simpa using hn) (by simpa using hle)
    (by simpa using by omega) hacc

theorem State.Inv.storesLast (h : s.Inv) (hop : s.seq.op = some i) (ha : Acquires i s.seq.sub)
    (hp : s.seq.phase = .store) (hlast : s.seq.i + 1 = s.latched.s.toNat) :
    (Machine.afterAcquire i { Machine.useSample s with seq := { s.seq with i := s.seq.i + 1 } }).Inv := by
  obtain ⟨hi, hn, hle⟩ := h.acquiring (State.acquiring_of_acquires hop ha (by rw [hp]; rfl))
  obtain ⟨hu, -⟩ := h.useSample hop ha hp
  have hcounts := h.counts (h.busy_of_op hop)
  exact hu.afterAcquire (by simpa using hop) (by simpa using ha) (by simpa using hn) (by simpa using hle) (by simp)
    (by simpa using by omega)

/-! ### The core's step -/

theorem State.Inv.afterTransform (h : s.Inv) (hop : s.seq.op = some i) (ht : Transforms i s.seq.sub) :
    (afterTransform i s).Inv := by
  rcases ht with rfl | ⟨rfl, hsub⟩
  · exact h.goto (Seq.legal_fin h.seqLegal hop (.inl (by decide))) rfl
  · exact h.reposition (q := { s.seq with sub := some .scan, phase := .scan }) rfl (by simp [Seq.legal, hop])
      h.counts rfl (fun _ => h.pastAcquire ⟨hop, .inl hsub⟩)

/-- A core step keeps the invariant. -/
theorem CoreStepTo.inv (ht : CoreStepTo i s t) (h : s.Inv) (hop : s.seq.op = some i) : t.Inv := by
  have hbusy := h.busy_of_op hop
  have hindex := h.errIndex_of_busy hbusy
  have hcleared : State.Inv { s with peakCount := 0 } := { h with peakCount := Nat.zero_le _ }
  cases ht with
  | completes => exact h.complete hbusy
  | timesOut index op => exact h.raiseErr hindex _ _ op
  | polls hr hp hmore => exact h.pollOnce hop hr hp hmore
  | readsB2 hr hp => exact h.readB2Step hop hr hp
  | readsB1 hr hp => exact h.readB1Step hop hr hp
  | readsB0 hi hp =>
    subst hi
    exact h.readB0Step.goto (by simpa using Seq.legal_fin h.seqLegal hop (.inl (by decide))) rfl
  | acquiresB0 ha hp => exact h.acquiresB0 hop ha hp
  | acquireRefuses e op => exact h.raiseErr hindex e _ op
  | acquiresNothing ha hp hn h0 =>
    exact (h.acquireClear hn).afterAcquire (q := (acquireClear s).seq) (by simpa using hop) (by simpa using ha)
      (by simpa using hn) (by simpa using by omega) ⟨rfl, rfl⟩ (by simpa using h.counts hbusy)
  | startsAcquiring ha hp hn hle h0 =>
    exact (h.acquireClear hn).startSample (by simpa using hop) (by simpa using ha) (by simpa using hn)
      (by simpa using hle) (by simpa using by omega) (by simp)
  | storesLast ha hp hlast => exact h.storesLast hop ha hp hlast
  | stores ha hp hmore => exact h.stores hop ha hp hmore
  | transformRefuses e op => exact h.raiseErr hindex e _ op
  | transforms ht hp hn =>
    exact (h.transformBuf (legalN_bounds hn).2).afterTransform (by simpa using hop) (by simpa using ht)
  | scanRefuses e op => exact hcleared.raiseErr hindex e _ op
  | scansNothing hs hp =>
    exact hcleared.goto (Seq.legal_fin h.seqLegal hop (hs.imp (by rintro rfl; decide) And.right)) rfl
  | scans hs hp hn =>
    exact (h.scanWindow hn).goto
      (by simpa using Seq.legal_fin h.seqLegal hop (hs.imp (by rintro rfl; decide) And.right)) rfl

theorem State.Inv.coreStep (h : s.Inv) (ht : coreStep s = .next t) : t.Inv := by
  by_cases hrun : s.inReset = true ∨ s.seq.op = none
  · rw [coreStep_idle hrun] at ht
    cases ht
    exact h
  · obtain ⟨hreset, hop⟩ := not_or.mp hrun
    obtain ⟨i, hop⟩ := Option.ne_none_iff_exists'.mp hop
    rw [coreStep_run (by simpa using hreset) hop] at ht
    exact (coreStepTo_of_exec ht).inv h hop

theorem State.Inv.coreStep_next (h : s.Inv) : ∃ t, Machine.coreStep s = .next t := by
  by_cases hrun : s.inReset = true ∨ s.seq.op = none
  · exact ⟨s, coreStep_idle hrun⟩
  · obtain ⟨hreset, hop⟩ := not_or.mp hrun
    obtain ⟨i, hop⟩ := Option.ne_none_iff_exists'.mp hop
    rw [coreStep_run (by simpa using hreset) hop]
    exact exec_next_of_legal h.seqLegal hop

/-! ### The outside's step -/

theorem legal_startCommand (i : Instr) (q : Seq) :
    Seq.legal { q with op := some i, sub := firstSub i, i := 0, polls := 0, phase := firstPhase i } := by
  cases i <;> simp [Seq.legal, firstSub, firstPhase, Phase.sampling]

/-- An acceptance (44_command_control R191): no command but READ_SAMPLE starts with a sample under way. -/
theorem State.Inv.accept (h : s.Inv) (hreset : s.inReset = false) (w : Word) : (accept w s).Inv := by
  rcases accept_cases w s with ⟨i, -, hacc⟩ | ⟨e, -, hacc⟩ <;> rw [hacc]
  · exact
    { h with
      status := ⟨by simp, by simp, by simp⟩
      code := .inl rfl
      busyOp := by simp
      resetIdle := by simp [hreset]
      seqLegal := legal_startCommand i _
      latchAgrees := fun _ => rfl
      counts := fun _ => ⟨Nat.zero_le _, Nat.zero_le _⟩
      acquiring := by cases i <;> simp [State.acquiring, firstPhase, Phase.sampling]
      pastAcquire := by cases i <;> simp [State.pastAcquire, firstSub]
      accBound := ⟨h.accBound.1, by cases i <;> simp [State.acquiring, firstPhase, Phase.sampling]⟩
      errIndex := by simp }
  · exact h.ended _ (Status.legal_enterError _ .illegalCommand _) (Status.codeLegal_enterError _ .illegalCommand _) rfl
      (by simp)

theorem State.Inv.dropWrite (h : s.Inv) : (dropWrite s).Inv :=
  { h with status := h.status, code := h.code, busyOp := h.busyOp, latchAgrees := h.latchAgrees }

theorem State.Inv.w1c (h : s.Inv) (v : Word) : State.Inv { s with status := s.status.w1c v } :=
  { h with
    status := by
      obtain ⟨hbusy, herr⟩ := h.status
      refine ⟨fun hb => ?_, herr⟩
      obtain ⟨hdone, hrest⟩ := hbusy hb
      exact ⟨by simp [hdone], hrest⟩
    code := h.code }

/-- A host write: the parameters change only while no command holds them latched. -/
theorem State.Inv.writeTarget (h : s.Inv) (hreset : s.inReset = false) {off : HostOffset} (ha : off.toNat % 4 = 0)
    (v : Word) : (writeTarget off v s).Inv := by
  rcases writeTarget_cases off v s with hw | ⟨-, -, hw⟩ | ⟨-, -, hw⟩ | ⟨-, hw⟩ | ⟨-, hw⟩ | ⟨r, hidle, -, -, hw⟩ |
    ⟨-, hbuf, hw⟩ <;> rw [hw]
  · exact h
  · exact h.dropWrite
  · exact h.accept hreset v
  · exact h.w1c v
  · exact { h with }
  · exact { h with latchAgrees := by simp [hidle] }
  · refine { h with memWf := Memory.writeWord_wf _ _ h.memWf, memRange := fun c hc => ?_ }
    have hin := hostTarget_buf hbuf
    refine (Memory.mem_writeWord hc).elim (fun hw => .inl ?_) (h.memRange c)
    simp only at hin ⊢
    omega

/-- Right after reset every register is as 70_reset_and_hazards R240 says, and the memory draw is a new one. -/
theorem State.Inv.applyReset (h : s.Inv) : (applyReset s).Inv where
  capacity := h.capacity
  memWf := reset_mem_wf
  memRange := by simp [State.reset]
  status := by simp [State.reset, Status.reset, Status.legal]
  code := .inl rfl
  busyOp := by simp [State.reset, Status.reset, Seq.reset]
  resetIdle := fun _ => rfl
  seqLegal := trivial
  latchAgrees := by simp [State.reset, Status.reset]
  counts := by simp [State.reset, Status.reset]
  acquiring := by simp [State.acquiring, State.reset, Seq.reset]
  pastAcquire := by simp [State.pastAcquire, State.reset, Seq.reset]
  accBound := by simp [State.reset]
  sample := by simp [State.reset, extendSample]
  peakCount := Nat.zero_le _
  errIndex := by simp [State.reset]
  epochs := ⟨le_rfl, le_rfl⟩

theorem State.Inv.assertReset (h : s.Inv) (inFlight : Bool) : (assertReset inFlight s).Inv := by
  rcases assertReset_cases inFlight s with hr | ⟨reg, -, -, hr⟩ <;> rw [hr]
  · exact h.applyReset
  · exact (h.busRead reg).applyReset

theorem State.Inv.hostRead (h : s.Inv) (off : HostOffset) : (hostRead off s).Inv :=
  h.interfaces _ _ _ (by split <;> omega)

theorem State.Inv.hostWait (h : s.Inv) (turns : Nat) : (hostWait turns s).Inv := by
  unfold Machine.hostWait
  split
  · exact (h.hostRead _).interfaces _ _ _ le_rfl
  · exact h.hostRead _

theorem State.Inv.outsideMove (h : s.Inv) {m : Move} (ht : outsideMove m s = .next t) : t.Inv := by
  cases m with
  | coreTurn => cases ht; exact h
  | read off size =>
    obtain ⟨-, -, rfl⟩ := hostAccess_next ht
    exact h.hostRead off
  | write off size v =>
    obtain ⟨hreset, hwf, rfl⟩ := hostAccess_next ht
    have ha : off.toNat % 4 = 0 := by
      simp only [Move.wf, Move.alignOk, Bool.and_eq_true, beq_iff_eq] at hwf
      exact hwf.2
    exact (h.interfaces s.env s.adc (.hostWrite off v :: s.history) le_rfl).writeTarget hreset ha v
  | wait turns =>
    obtain ⟨-, -, rfl⟩ := hostAccess_next ht
    exact h.hostWait turns
  | assertReset inFlight => cases ht; exact h.assertReset inFlight
  | releaseReset => cases ht; exact { h with resetIdle := by simp }

theorem hostAccess_ne_fault (m : Move) (effect : State → State) (s : State) (e : Fault) :
    hostAccess m effect s ≠ .fault e := by
  unfold hostAccess
  split
  · simp
  · split <;> simp

theorem hostAccess_refused {m : Move} {effect : State → State} {e : Refusal}
    (h : hostAccess m effect s = .refused e) :
    (e = .hostAccessInReset ∧ s.inReset = true) ∨ (e = .hostAccessShape ∧ m.wf = false) := by
  unfold hostAccess at h
  split at h
  next hreset => cases h; exact .inl ⟨rfl, hreset⟩
  next =>
    split at h <;> cases h
    next hwf => exact .inr ⟨rfl, by simpa using hwf⟩

theorem outsideMove_ne_fault (m : Move) (s : State) (e : Fault) : Machine.outsideMove m s ≠ .fault e := by
  cases m with
  | read | write | wait => exact hostAccess_ne_fault _ _ s e
  | coreTurn | assertReset | releaseReset => simp [Machine.outsideMove]

theorem outsideMove_refused {m : Move} {e : Refusal} (h : Machine.outsideMove m s = .refused e) :
    (e = .hostAccessInReset ∧ s.inReset = true) ∨ (e = .hostAccessShape ∧ m.wf = false) := by
  cases m with
  | read | write | wait => exact hostAccess_refused h
  | coreTurn | assertReset | releaseReset => cases h

theorem State.Inv.withEnv (h : s.Inv) (env : List Move) : State.Inv { s with env := env } := h.interfaces _ _ _ le_rfl

/-- The state from which the core moves in a step (`step_cases`). -/
theorem State.Inv.coreTurn (h : s.Inv)
    (ht : s.env = [] ∧ t = s ∨ ∃ rest, s.env = .coreTurn :: rest ∧ t = { s with env := rest }) : t.Inv := by
  rcases ht with ⟨-, rfl⟩ | ⟨rest, -, rfl⟩
  · exact h
  · exact h.withEnv rest

end

/-- Settles O8: a step is the core's or the outside's, and each update that one of them makes keeps the invariant. -/
theorem stepKeepsInvariant : Obligations.StepKeepsInvariant := by
  intro s t h ht
  rcases step_cases s with ⟨r, hr, hstep⟩ | ⟨m, rest, -, -, hstep⟩ <;> rw [hstep] at ht
  · exact (h.coreTurn hr).coreStep ht
  · exact (h.withEnv rest).outsideMove ht

/-- Settles O9: a command in a legal position answers a next state, and only host accesses are refused. -/
theorem invariantRulesOutFaults : Obligations.InvariantRulesOutFaults := by
  intro s h
  rcases step_cases s with ⟨r, hr, hstep⟩ | ⟨m, rest, henv, -, hstep⟩ <;> rw [hstep]
  · obtain ⟨t, ht⟩ := (h.coreTurn hr).coreStep_next
    simp [ht]
  · refine ⟨fun e => outsideMove_ne_fault m _ e, fun e he => ⟨m, rest, henv, ?_⟩⟩
    exact outsideMove_refused (s := { s with env := rest }) he

end Sys2Proof.Machine

namespace Sys2Proof.Machine

/-! ## Commands read only the latch

`exec` commutes with a change of the fields that no command reads (10_state R52). Every update is made of field
updates and of reads of other fields, so nearly all of these hold by definition. -/

/-- The state with other parameter registers, another INT_EN and other moves to come. -/
def State.rewire (p : Params) (d : Bool) (e : List Move) (s : State) : State :=
  { s with par := p, doneIe := d, env := e }

/-- The outcome with its next state changed. -/
def mapNext (f : State → State) : Host.Outcome State Fault Refusal → Host.Outcome State Fault Refusal
  | .next t => .next (f t)
  | .fault e => .fault e
  | .refused e => .refused e

@[simp] theorem mapNext_next (f : State → State) (t : State) : mapNext f (.next t) = .next (f t) := rfl

@[simp] theorem mapNext_fault (f : State → State) (e : Fault) : mapNext f (.fault e) = .fault e := rfl

section
variable (p : Params) (d : Bool) (e : List Move) (s : State)

@[simp] theorem State.rewire_nMax : (s.rewire p d e).nMax = s.nMax := rfl
@[simp] theorem State.rewire_latched : (s.rewire p d e).latched = s.latched := rfl
@[simp] theorem State.rewire_seq : (s.rewire p d e).seq = s.seq := rfl

/-! ### The updates -/

@[simp] theorem complete_rewire : complete (s.rewire p d e) = (complete s).rewire p d e := rfl

@[simp] theorem raiseErr_rewire (k : ErrKind) (info : Nat) (op : Byte) :
    raiseErr k info op (s.rewire p d e) = (raiseErr k info op s).rewire p d e := rfl

@[simp] theorem goto_rewire (ph : Phase) : goto ph (s.rewire p d e) = (goto ph s).rewire p d e := rfl

@[simp] theorem enterSub_rewire (sub : SubOp) (ph : Phase) :
    enterSub sub ph (s.rewire p d e) = (enterSub sub ph s).rewire p d e := rfl

@[simp] theorem startSample_rewire (k : Nat) :
    startSample k (s.rewire p d e) = (startSample k s).rewire p d e := rfl

@[simp] theorem pollOnce_rewire : pollOnce (s.rewire p d e) = (pollOnce s).rewire p d e := by
  simp only [pollOnce, busRead_eq]
  rfl

@[simp] theorem pollStep_rewire (k : Nat) (op : Byte) :
    pollStep k op (s.rewire p d e) = (pollStep k op s).rewire p d e := by
  rcases pollStep_cases k op s with ⟨hspent, h⟩ | ⟨hmore, h⟩ <;> rw [h]
  · exact pollStep_spent (s := s.rewire p d e) hspent
  · rw [pollStep_more (s := s.rewire p d e) hmore, pollOnce_rewire]

@[simp] theorem readB2Step_rewire : readB2Step (s.rewire p d e) = (readB2Step s).rewire p d e := by
  simp only [readB2Step, busRead_eq]
  rfl

@[simp] theorem readB1Step_rewire : readB1Step (s.rewire p d e) = (readB1Step s).rewire p d e := by
  simp only [readB1Step, busRead_eq]
  rfl

@[simp] theorem readB0Step_rewire : readB0Step (s.rewire p d e) = (readB0Step s).rewire p d e := by
  simp only [readB0Step, busRead_eq]
  rfl

theorem State.setBufs_rewire (zs : List Cplx) (k : Nat) :
    (s.rewire p d e).setBufs k zs = (s.setBufs k zs).rewire p d e := by
  induction zs generalizing k s with
  | nil => rfl
  | cons z zs ih => exact ih (s.setBuf k z) (k + 1)

theorem State.setPeaks_rewire (es : List PeakEntry) (k : Nat) :
    (s.rewire p d e).setPeaks k es = (s.setPeaks k es).rewire p d e := by
  induction es generalizing k s with
  | nil => rfl
  | cons x es ih => exact ih (s.setPeak k x) (k + 1)

@[simp] theorem acquireClear_rewire : acquireClear (s.rewire p d e) = (acquireClear s).rewire p d e := by
  simp only [acquireClear, State.setBufs_rewire]
  rfl

@[simp] theorem useSample_rewire : useSample (s.rewire p d e) = (useSample s).rewire p d e := by
  rcases useSample_cases s with ⟨hi, hu⟩ | ⟨hi, hu⟩ <;> rw [hu]
  · exact if_pos hi
  · exact if_neg (Nat.not_lt.mpr hi)

@[simp] theorem transformBuf_rewire (n : Nat) :
    transformBuf n (s.rewire p d e) = (transformBuf n s).rewire p d e := by
  simp only [transformBuf, State.setBufs_rewire]
  rfl

@[simp] theorem scanWindow_rewire : scanWindow (s.rewire p d e) = (scanWindow s).rewire p d e := by
  simp only [scanWindow, State.setPeaks_rewire]
  rfl

/-! ### The bodies -/

section
variable {leave : State → State}

theorem acquireInit_rewire (hleave : ∀ t : State, leave (t.rewire p d e) = (leave t).rewire p d e) (op : Byte) :
    acquireInit leave op (s.rewire p d e) = (acquireInit leave op s).rewire p d e := by
  by_cases hn : legalN s.nMax s.latched.n = true
  · by_cases hlt : s.latched.n.toNat < s.latched.s.toNat
    · simp [acquireInit, hn, hlt]
    · by_cases h0 : s.latched.s.toNat = 0 <;> simp [acquireInit, hn, hlt, h0, hleave]
  · simp [acquireInit, hn]

theorem acquireStore_rewire (hleave : ∀ t : State, leave (t.rewire p d e) = (leave t).rewire p d e) :
    acquireStore leave (s.rewire p d e) = (acquireStore leave s).rewire p d e := by
  by_cases hlast : s.seq.i + 1 = s.latched.s.toNat
  · simp only [acquireStore, State.rewire_seq, State.rewire_latched, useSample_rewire, hlast, if_true]
    exact hleave { useSample s with seq := { s.seq with i := s.latched.s.toNat } }
  · simp [acquireStore, hlast]

theorem acquireBody_rewire (hleave : ∀ t : State, leave (t.rewire p d e) = (leave t).rewire p d e) (op : Byte) :
    acquireBody leave op (s.rewire p d e) = mapNext (State.rewire p d e) (acquireBody leave op s) := by
  have hinit := acquireInit_rewire p d e s hleave op
  have hstore := acquireStore_rewire p d e s hleave
  cases hp : s.seq.phase <;> simp [acquireBody, hp, hinit, hstore]

theorem transformBody_rewire (hleave : ∀ t : State, leave (t.rewire p d e) = (leave t).rewire p d e) (op : Byte) :
    transformBody leave op (s.rewire p d e) = (transformBody leave op s).rewire p d e := by
  by_cases hn : legalN s.nMax s.latched.n = true <;> simp [transformBody, hn, hleave]

end

@[simp] theorem scanBody_rewire (op : Byte) : scanBody op (s.rewire p d e) = (scanBody op s).rewire p d e := by
  simp only [scanBody, scanWindow_rewire, apply_ite (State.rewire p d e)]
  rfl

theorem runBody_rewire : runBody (s.rewire p d e) = mapNext (State.rewire p d e) (runBody s) := by
  rcases hsub : s.seq.sub with _ | _ | _ | _ <;> simp only [runBody, State.rewire_seq, hsub]
  case none => rfl
  case some.acquire => exact acquireBody_rewire p d e s (leave := enterSub .transform .fft) (fun _ => rfl) _
  case some.transform =>
    have hbody := transformBody_rewire p d e s (leave := enterSub .scan .scan) (fun _ => rfl)
    by_cases hp : s.seq.phase = .fft <;> simp [hp, hbody]
  case some.scan => by_cases hp : s.seq.phase = .scan <;> simp [hp]

theorem execAcquire_rewire : execAcquire (s.rewire p d e) = mapNext (State.rewire p d e) (execAcquire s) := by
  have hbody := acquireBody_rewire p d e s (leave := goto .fin) (fun _ => rfl)
  by_cases hp : s.seq.phase = .fin <;> simp [execAcquire, hp, hbody]

theorem execRun_rewire : execRun (s.rewire p d e) = mapNext (State.rewire p d e) (execRun s) := by
  by_cases hp : s.seq.phase = .fin <;> simp [execRun, hp, runBody_rewire]

theorem exec_rewire (i : Instr) : exec i (s.rewire p d e) = mapNext (State.rewire p d e) (exec i s) := by
  cases i with
  | nop => rfl
  | readSample => cases hp : s.seq.phase <;> simp [exec, execReadSample, hp]
  | acquire => exact execAcquire_rewire p d e s
  | transform =>
    have hbody := transformBody_rewire p d e s (leave := goto .fin) (fun _ => rfl)
    cases hp : s.seq.phase <;> simp [exec, execTransform, hp, hbody]
  | scan => cases hp : s.seq.phase <;> simp [exec, execScan, hp]
  | run => exact execRun_rewire p d e s

end

/-! ### What no core step writes -/

section
variable {i : Instr} {s t : State}

theorem afterAcquire_eq (i : Instr) (s : State) : ∃ q, afterAcquire i s = { s with seq := q } := by
  cases i <;> exact ⟨_, rfl⟩

theorem afterTransform_eq (i : Instr) (s : State) : ∃ q, afterTransform i s = { s with seq := q } := by
  cases i <;> exact ⟨_, rfl⟩

theorem CoreStepTo.frame (h : CoreStepTo i s t) : SameSetup s t ∧ t.status.dropped = s.status.dropped := by
  cases h with
  | acquiresNothing =>
    obtain ⟨q, hq⟩ := afterAcquire_eq i (acquireClear s)
    rw [hq]
    simp [SameSetup]
  | storesLast =>
    obtain ⟨q, hq⟩ := afterAcquire_eq i { useSample s with seq := { s.seq with i := s.seq.i + 1 } }
    rw [hq]
    simp [SameSetup]
  | transforms =>
    obtain ⟨q, hq⟩ := afterTransform_eq i (transformBuf s.latched.n.toNat s)
    rw [hq]
    simp [SameSetup]
  | _ => simp [SameSetup]

end

/-- Settles O51: a core step writes none of these fields, and commutes with changing the ones it does not read. -/
theorem commandsReadOnlyTheLatch : Obligations.CommandsReadOnlyTheLatch := by
  intro i s t h
  obtain ⟨hsetup, hdropped⟩ := (coreStepTo_of_exec h).frame
  refine ⟨hsetup, hdropped, fun p d e => ?_⟩
  have hrewire := exec_rewire p d e s i
  rw [h] at hrewire
  exact hrewire

end Sys2Proof.Machine

namespace Sys2Proof.Machine

/-! ## Commands write only their entries of BUF and PEAK -/

section
variable {i : Instr} {s t : State} {a : Nat}

theorem afterAcquire_byteAt (i : Instr) (s : State) (a : Nat) : (afterAcquire i s).byteAt a = s.byteAt a := by
  obtain ⟨q, hq⟩ := afterAcquire_eq i s
  rw [hq]
  rfl

theorem afterTransform_byteAt (i : Instr) (s : State) (a : Nat) : (afterTransform i s).byteAt a = s.byteAt a := by
  obtain ⟨q, hq⟩ := afterTransform_eq i s
  rw [hq]
  rfl

theorem State.setBufs_changes {zs : List Cplx} (h : (s.setBufs 0 zs).byteAt a ≠ s.byteAt a) :
    0x100000 ≤ a ∧ a < 0x100000 + 16 * zs.length := by
  by_contra hout
  exact h (State.byteAt_setBufs_other zs s (by simpa [bufAddr] using hout))

theorem State.setPeaks_changes {es : List PeakEntry} (h : (s.setPeaks 0 es).byteAt a ≠ s.byteAt a) :
    0x200000 ≤ a ∧ a < 0x200000 + 32 * es.length := by
  by_contra hout
  exact h (State.byteAt_setPeaks_other es s (by simpa [peakAddr] using hout))

theorem acquireClear_changes (h : (acquireClear s).byteAt a ≠ s.byteAt a) :
    0x100000 ≤ a ∧ a < 0x100000 + 16 * s.latched.n.toNat := by
  simpa using State.setBufs_changes (zs := List.replicate s.latched.n.toNat _) h

theorem transformBuf_changes {n : Nat} (h : (transformBuf n s).byteAt a ≠ s.byteAt a) :
    0x100000 ≤ a ∧ a < 0x100000 + 16 * n := by
  simpa using State.setBufs_changes (zs := fftOfBuf s n) h

theorem scanWindow_changes (h : (scanWindow s).byteAt a ≠ s.byteAt a) :
    0x200000 ≤ a ∧ a < 0x200000 + 32 * s.latched.n.toNat := by
  obtain ⟨hlo, hhi⟩ := State.setPeaks_changes (es := scanEntries s) h
  have hlen := scanEntries_length_le s
  omega

theorem useSample_changes (hi : s.seq.i < s.latched.n.toNat) (h : (useSample s).byteAt a ≠ s.byteAt a) :
    0x100000 ≤ a ∧ a < 0x100000 + 16 * s.latched.n.toNat := by
  rcases useSample_cases s with ⟨-, hu⟩ | ⟨-, hu⟩ <;> rw [hu] at h
  · exact absurd rfl h
  · by_contra hout
    exact h (State.byteAt_setBuf_other s _ (by simp only [bufAddr]; omega))

theorem State.Inv.sample_lt (h : s.Inv) (hop : s.seq.op = some i) (ha : Acquires i s.seq.sub)
    (hp : s.seq.phase = .store) : s.seq.i < s.latched.n.toNat := by
  obtain ⟨hi, -, hle⟩ := h.acquiring (State.acquiring_of_acquires hop ha (by rw [hp]; rfl))
  exact hi.trans_le hle

theorem CoreStepTo.changes (ht : CoreStepTo i s t) (h : s.Inv) (hop : s.seq.op = some i)
    (hne : t.byteAt a ≠ s.byteAt a) :
    (0x100000 ≤ a ∧ a < 0x100000 + 16 * s.latched.n.toNat ∧ (Acquires i s.seq.sub ∨ Transforms i s.seq.sub)) ∨
    (0x200000 ≤ a ∧ a < 0x200000 + 32 * s.latched.n.toNat ∧ Scans i s.seq.sub) := by
  cases ht with
  | acquiresNothing ha =>
    rw [afterAcquire_byteAt] at hne
    obtain ⟨hlo, hhi⟩ := acquireClear_changes hne
    exact .inl ⟨hlo, hhi, .inl ha⟩
  | startsAcquiring ha =>
    obtain ⟨hlo, hhi⟩ := acquireClear_changes (s := s) hne
    exact .inl ⟨hlo, hhi, .inl ha⟩
  | storesLast ha hp =>
    rw [afterAcquire_byteAt] at hne
    obtain ⟨hlo, hhi⟩ := useSample_changes (h.sample_lt hop ha hp) hne
    exact .inl ⟨hlo, hhi, .inl ha⟩
  | stores ha hp =>
    obtain ⟨hlo, hhi⟩ := useSample_changes (h.sample_lt hop ha hp) hne
    exact .inl ⟨hlo, hhi, .inl ha⟩
  | transforms htr =>
    rw [afterTransform_byteAt] at hne
    obtain ⟨hlo, hhi⟩ := transformBuf_changes hne
    exact .inl ⟨hlo, hhi, .inr htr⟩
  | scans hs =>
    obtain ⟨hlo, hhi⟩ := scanWindow_changes (s := s) hne
    exact .inr ⟨hlo, hhi, hs⟩
  | _ => exact absurd (State.byteAt_congr (by simp) (by simp)) hne

end

/-- Settles O52: a core step stores only where it clears, stores a sample, transforms or scans. -/
theorem commandsStayInTheirEntries : Obligations.CommandsStayInTheirEntries := by
  intro i s t h hop hstep a hne
  exact (coreStepTo_of_exec hstep).changes h hop hne

end Sys2Proof.Machine

namespace Sys2Proof.Machine

/-! ## Host reads of registers -/

/-- Settles O13: the word is a concatenation, and each part of it that the rule names lies in one of its fields. -/
theorem statusWordLayout : Obligations.StatusWordLayout := by
  intro t
  refine ⟨?busy, ?done, ?err, ?dropped, ?low, ?errCode, ?middle, ?errOp, ?high⟩
  case busy | done | err | dropped =>
    simp only [Status.word, BitVec.getLsbD_append]
    simp
  case low | errCode | middle | errOp | high =>
    simp (disch := decide) only [Status.word, BitVec.extractLsb'_append_eq_of_le,
      BitVec.extractLsb'_append_eq_of_add_le, Nat.reduceSub, BitVec.extractLsb'_eq_self]

section
variable {s : State} {off : HostOffset} (rest : List Move)

/-- A read that returns the value the block holds. -/
theorem step_read_value (hreset : s.inReset = false) (ha : off.toNat % 4 = 0) (hfree : s.readIsDraw off = false) :
    step (s.facing (.read off 4 :: rest)) =
      .next { s with env := rest, history := .hostRead off (s.idleRead off) :: s.history } := by
  have hfree' : State.readIsDraw { s with env := rest } off = false := hfree
  rw [step_read rest hreset ha, hostRead, State.readValue, hfree']
  rfl

/-- A read that returns a free value (20_memory R72). -/
theorem step_read_free (hreset : s.inReset = false) (ha : off.toNat % 4 = 0) (hfree : s.readIsDraw off = true) :
    step (s.facing (.read off 4 :: rest)) =
      .next { s with
        env := rest, history := .hostRead off (Config.busyReadWord s.draws) :: s.history, draws := s.draws + 1 } := by
  have hfree' : State.readIsDraw { s with env := rest } off = true := hfree
  rw [step_read rest hreset ha, hostRead, State.readValue, hfree']
  rfl

theorem HostReg.offset_aligned (r : HostReg) : r.offset.toNat % 4 = 0 := by cases r <;> rfl

theorem State.readIsDraw_reg (s : State) (r : HostReg) :
    s.readIsDraw r.offset = (s.status.busy && r.isResult) := by
  rw [State.readIsDraw, hostTarget_offset]

theorem State.idleRead_reg (s : State) (r : HostReg) : s.idleRead r.offset = s.regWord r := by
  rw [State.idleRead, hostTarget_offset]

theorem step_read_reg (hreset : s.inReset = false) {r : HostReg} (h : s.status.busy = false ∨ r.isResult = false) :
    step (s.facing (.read r.offset 4 :: rest)) =
      .next { s with env := rest, history := .hostRead r.offset (s.regWord r) :: s.history } := by
  have hfree : s.readIsDraw r.offset = false := by
    rw [State.readIsDraw_reg]
    rcases h with h | h <;> simp [h]
  rw [step_read_value rest hreset r.offset_aligned hfree, State.idleRead_reg]

theorem step_read_result (hreset : s.inReset = false) (hbusy : s.status.busy = true) {r : HostReg}
    (hr : r.isResult = true) :
    step (s.facing (.read r.offset 4 :: rest)) =
      .next { s with
        env := rest, history := .hostRead r.offset (Config.busyReadWord s.draws) :: s.history
        draws := s.draws + 1 } :=
  step_read_free rest hreset r.offset_aligned (by rw [State.readIsDraw_reg, hbusy, hr]; rfl)

end

/-- The fields of a concatenation as the digits of its number. -/
theorem toNat_append_eq {n m : Nat} (x : BitVec n) (y : BitVec m) : (x ++ y).toNat = x.toNat * 2 ^ m + y.toNat := by
  rw [BitVec.toNat_append, ← Nat.shiftLeft_add_eq_or_of_lt y.isLt, Nat.shiftLeft_eq]

theorem regWord_intEn (s : State) : s.regWord .intEn = if s.doneIe then 1 else 0 := by
  cases h : s.doneIe <;> simp [State.regWord, h]

theorem regWord_adcMap0 (s : State) :
    s.regWord .adcMap0 = BitVec.ofNat 32 (s.par.drdyBit.toNat * 256 + s.par.drdyReg.toNat) := by
  apply BitVec.eq_of_toNat_eq
  have := s.par.drdyBit.isLt
  have := s.par.drdyReg.isLt
  simp only [State.regWord, toNat_append_eq, BitVec.ofNat_eq_ofNat, BitVec.toNat_ofNat]
  omega

theorem regWord_adcMap1 (s : State) :
    s.regWord .adcMap1 =
      BitVec.ofNat 32 (s.par.b0Reg.toNat * 65536 + s.par.b1Reg.toNat * 256 + s.par.b2Reg.toNat) := by
  apply BitVec.eq_of_toNat_eq
  have := s.par.b0Reg.isLt
  have := s.par.b1Reg.isLt
  have := s.par.b2Reg.isLt
  simp only [State.regWord, toNat_append_eq, BitVec.ofNat_eq_ofNat, BitVec.toNat_ofNat]
  omega

theorem regWord_sampleRaw (s : State) : s.regWord .sampleRaw = s.sampleRaw.setWidth 32 := by
  apply BitVec.eq_of_toNat_eq
  simp only [State.regWord, toNat_append_eq, BitVec.ofNat_eq_ofNat, BitVec.toNat_ofNat, BitVec.toNat_setWidth]
  omega

/-- The registers that read their value always. -/
def HostReg.plain : List HostReg :=
  [.id, .cmd, .status, .intEn, .fftSize, .sampleCount, .sampleRateHz, .biasWindowS, .windowSize, .centerFreqLo,
    .centerFreqHi, .thresholdLo, .thresholdHi, .pollLimit, .freqDivOffset, .adcMap0, .adcMap1]

/-- The registers that the rules let read their value while the block is idle only. -/
def HostReg.idleOnly : List HostReg :=
  [.errIndex, .sampleRaw, .sampleVal, .biasLo, .biasHi, .biasAccLo, .biasAccHi, .biasLenLo, .biasLenHi, .peakCount,
    .nMax]

theorem HostReg.isResult_of_mem_plain : ∀ r ∈ HostReg.plain, r.isResult = false := by decide

/-- The result registers but ERR_INDEX (log 12). -/
def HostReg.results : List HostReg :=
  [.sampleRaw, .sampleVal, .biasLo, .biasHi, .biasAccLo, .biasAccHi, .biasLenLo, .biasLenHi, .peakCount]

theorem HostReg.isResult_of_mem_results : ∀ r ∈ HostReg.results, r.isResult = true := by decide

/-- The rows of a table of registers, each with its offset and a word. -/
def regRows (word : HostReg → Word) (rs : List HostReg) : List (HostOffset × Word) :=
  rs.map fun r => (r.offset, word r)

/-- Settles O14: each table is the register map's, and a register reads its word or a free value. -/
theorem registerReads : Obligations.RegisterReads := by
  intro s rest hreset
  refine ⟨?_, fun hidle => ?_, fun hbusy off hoff => ?_, fun hbusy => ⟨?_, ?_⟩⟩
  · rw [← regWord_intEn, ← regWord_adcMap0, ← regWord_adcMap1]
    change ∀ e ∈ regRows s.regWord HostReg.plain, _
    intro e he
    obtain ⟨r, hr, rfl⟩ := List.mem_map.mp he
    exact step_read_reg rest hreset (.inr (HostReg.isResult_of_mem_plain r hr))
  · rw [← regWord_sampleRaw]
    change ∀ e ∈ regRows s.regWord HostReg.idleOnly, _
    intro e he
    obtain ⟨r, -, rfl⟩ := List.mem_map.mp he
    exact step_read_reg rest hreset (.inl hidle)
  · change off ∈ HostReg.results.map HostReg.offset at hoff
    obtain ⟨r, hr, rfl⟩ := List.mem_map.mp hoff
    exact step_read_result rest hreset hbusy (HostReg.isResult_of_mem_results r hr)
  · exact step_read_result rest hreset hbusy (r := .errIndex) rfl
  · exact step_read_reg rest hreset (r := .nMax) (.inr rfl)

end Sys2Proof.Machine

namespace Sys2Proof.Machine

/-! ## Host reads of BUF and PEAK -/

/-! ### The region map (20_memory R60) -/

section
variable {nMax : Word} {a : Nat}

theorem hostTarget_of_buf (h : 0x100000 ≤ a ∧ a < 0x100000 + 16 * nMax.toNat) : hostTarget nMax a = .buf := by
  rw [hostTarget, if_neg (by omega), if_pos h]

theorem hostTarget_of_peak (hcap : legalCapacity nMax = true)
    (h : 0x200000 ≤ a ∧ a < 0x200000 + 32 * nMax.toNat) : hostTarget nMax a = .peak := by
  have := (legalCapacity_bounds hcap).2
  rw [hostTarget, if_neg (by omega), if_neg (by omega), if_pos h]

theorem hostTarget_of_reserved (hcap : legalCapacity nMax = true)
    (h : (0x070 ≤ a ∧ a < 0x100000) ∨ (0x100000 + 16 * nMax.toNat ≤ a ∧ a < 0x200000) ∨
      0x200000 + 32 * nMax.toNat ≤ a) : hostTarget nMax a = .reserved := by
  have := (legalCapacity_bounds hcap).2
  rw [hostTarget, if_neg (by omega), if_neg (by omega), if_neg (by omega)]

end

/-! ### The words of an entry (20_memory R62, R63) -/

theorem loHalf_f64At (s : State) (a : Nat) : (s.f64At a).extractLsb' 0 32 = s.wordAt a :=
  BitVec.extractLsb'_append_eq_right

theorem hiHalf_f64At (s : State) (a : Nat) : (s.f64At a).extractLsb' 32 32 = s.wordAt (a + 4) :=
  BitVec.extractLsb'_append_eq_left

section
variable {s : State} (rest : List Move) {a : Nat} {v : Word}

/-- A host read of the word at the address `a`, which returns `v` and changes nothing else. -/
def ReadsWord (s : State) (rest : List Move) (a : Nat) (v : Word) : Prop :=
  step (s.facing (.read (BitVec.ofNat 22 a) 4 :: rest)) =
    .next { s with env := rest, history := .hostRead (BitVec.ofNat 22 a) v :: s.history }

/-- A host read of the word at the address `a` returns a free value (20_memory R72). -/
def ReadsFree (s : State) (rest : List Move) (a : Nat) : Prop :=
  step (s.facing (.read (BitVec.ofNat 22 a) 4 :: rest)) =
    .next { s with
      env := rest, draws := s.draws + 1
      history := .hostRead (BitVec.ofNat 22 a) (Config.busyReadWord s.draws) :: s.history }

theorem toNat_hostOffset (hcap : legalCapacity s.nMax = true) (h : storedOffset s.nMax a) :
    (BitVec.ofNat 22 a : HostOffset).toNat = a := by
  have := (legalCapacity_bounds hcap).2
  rw [BitVec.toNat_ofNat, Nat.mod_eq_of_lt (by rcases h with h | h <;> omega)]

theorem State.readIsDraw_stored (hcap : legalCapacity s.nMax = true) (h : storedOffset s.nMax a) :
    s.readIsDraw (BitVec.ofNat 22 a) = s.status.busy := by
  rw [State.readIsDraw, toNat_hostOffset hcap h]
  rcases h with h | h
  · rw [hostTarget_of_buf h, Bool.and_true]
  · rw [hostTarget_of_peak hcap h, Bool.and_true]

theorem State.idleRead_buf (hcap : legalCapacity s.nMax = true)
    (h : 0x100000 ≤ a ∧ a < 0x100000 + 16 * s.nMax.toNat) : s.idleRead (BitVec.ofNat 22 a) = s.wordAt a := by
  rw [State.idleRead, toNat_hostOffset hcap (.inl h), hostTarget_of_buf h]

theorem State.idleRead_peak (hcap : legalCapacity s.nMax = true)
    (h : 0x200000 ≤ a ∧ a < 0x200000 + 32 * s.nMax.toNat) : s.idleRead (BitVec.ofNat 22 a) = s.peakWord a := by
  rw [State.idleRead, toNat_hostOffset hcap (.inr h), hostTarget_of_peak hcap h]

theorem readsWord_stored (hreset : s.inReset = false) (hcap : legalCapacity s.nMax = true)
    (hidle : s.status.busy = false) (ha : a % 4 = 0) (h : storedOffset s.nMax a)
    (hv : s.idleRead (BitVec.ofNat 22 a) = v) : ReadsWord s rest a v := by
  rw [← hv]
  exact step_read_value rest hreset (by rwa [toNat_hostOffset hcap h]) ((State.readIsDraw_stored hcap h).trans hidle)

theorem readsFree_stored (hreset : s.inReset = false) (hcap : legalCapacity s.nMax = true)
    (hbusy : s.status.busy = true) (ha : a % 4 = 0) (h : storedOffset s.nMax a) : ReadsFree s rest a :=
  step_read_free rest hreset (by rwa [toNat_hostOffset hcap h]) ((State.readIsDraw_stored hcap h).trans hbusy)

theorem step_read_reserved (hreset : s.inReset = false) {off : HostOffset} (ha : off.toNat % 4 = 0)
    (h : hostTarget s.nMax off.toNat = .reserved) :
    step (s.facing (.read off 4 :: rest)) = .next { s with env := rest, history := .hostRead off 0 :: s.history } := by
  rw [step_read_value rest hreset ha (by simp [State.readIsDraw, h]), State.idleRead, h]

end

theorem State.peakWord_gap (s : State) {k c : Nat} (hc : c = 4 ∨ c = 24 ∨ c = 28) :
    s.peakWord (peakAddr k + c) = 0 :=
  if_pos (by simp only [peakAddr]; omega)

theorem State.peakWord_stored (s : State) {k c : Nat} (hc : c < 32 ∧ c ≠ 4 ∧ c ≠ 24 ∧ c ≠ 28) :
    s.peakWord (peakAddr k + c) = s.wordAt (peakAddr k + c) :=
  if_neg (by simp only [peakAddr]; omega)

/-- Settles O15: each word of an entry is a stored word or a gap, by its address. -/
theorem bufferReads : Obligations.BufferReads := by
  intro s rest hreset hcap
  refine ⟨fun hidle k hk => ?_, fun hbusy k hk => ?_, fun off ha hoff => ?_⟩
  · change ∀ e ∈ (_ : List (Nat × Word)), ReadsWord s rest e.1 e.2
    have hbuf {c : Nat} {v : Word} (hc : c % 4 = 0 ∧ c < 16) (hv : s.wordAt (bufAddr k + c) = v) :
        ReadsWord s rest (0x100000 + 16 * k + c) v := by
      have hin : 0x100000 ≤ 0x100000 + 16 * k + c ∧ 0x100000 + 16 * k + c < 0x100000 + 16 * s.nMax.toNat := by omega
      exact readsWord_stored rest hreset hcap hidle (by omega) (.inl hin) ((State.idleRead_buf hcap hin).trans hv)
    have hpeak {c : Nat} {v : Word} (hc : c % 4 = 0 ∧ c < 32) (hv : s.peakWord (peakAddr k + c) = v) :
        ReadsWord s rest (0x200000 + 32 * k + c) v := by
      have hin : 0x200000 ≤ 0x200000 + 32 * k + c ∧ 0x200000 + 32 * k + c < 0x200000 + 32 * s.nMax.toNat := by omega
      exact readsWord_stored rest hreset hcap hidle (by omega) (.inr hin) ((State.idleRead_peak hcap hin).trans hv)
    have hword {c : Nat} {v : Word} (hc : c % 4 = 0 ∧ c < 32) (hgap : c ≠ 4 ∧ c ≠ 24 ∧ c ≠ 28)
        (hv : v = s.wordAt (peakAddr k + c)) : ReadsWord s rest (0x200000 + 32 * k + c) v :=
      hpeak hc ((s.peakWord_stored ⟨hc.2, hgap⟩).trans hv.symm)
    simp only [List.forall_mem_cons]
    exact ⟨hbuf (c := 0) (by decide) (loHalf_f64At s _).symm, hbuf (by decide) (hiHalf_f64At s _).symm,
      hbuf (by decide) (loHalf_f64At s _).symm, hbuf (by decide) (hiHalf_f64At s _).symm,
      hword (c := 0) (by decide) (by decide) rfl, hpeak (by decide) (s.peakWord_gap (by decide)),
      hword (by decide) (by decide) (loHalf_f64At s _), hword (by decide) (by decide) (hiHalf_f64At s _),
      hword (by decide) (by decide) (loHalf_f64At s _), hword (by decide) (by decide) (hiHalf_f64At s _),
      hpeak (by decide) (s.peakWord_gap (by decide)), hpeak (by decide) (s.peakWord_gap (by decide)), by simp⟩
  · change ∀ a ∈ _, ReadsFree s rest a
    intro a hmem
    have hstored : a % 4 = 0 ∧ storedOffset s.nMax a := by
      simp only [List.mem_cons, List.not_mem_nil, or_false] at hmem
      simp only [storedOffset]
      omega
    exact readsFree_stored rest hreset hcap hbusy hstored.1 hstored.2
  · exact step_read_reserved rest hreset ha (hostTarget_of_reserved hcap hoff)

end Sys2Proof.Machine

namespace Sys2Proof.Machine

/-! ## Host writes of parameter registers -/

/-- The bits of a parameter register that are not reserved (10_state R27 to R37). -/
def HostReg.writeMask : HostReg → Word
  | .adcMap0 => 0x000007FF
  | .adcMap1 => 0x00FFFFFF
  | _ => 0xFFFFFFFF

/-- The parameter registers (10_state section 1). -/
def HostReg.params : List HostReg :=
  [.fftSize, .sampleCount, .sampleRateHz, .biasWindowS, .windowSize, .centerFreqLo, .centerFreqHi, .thresholdLo,
    .thresholdHi, .pollLimit, .freqDivOffset, .adcMap0, .adcMap1]

theorem HostReg.isParam_of_mem_params : ∀ r ∈ HostReg.params, r.isParam = true := by decide

theorem adcMap0_fields (v : Word) :
    v &&& 0x000007FF = (0 : BitVec 21) ++ v.extractLsb' 8 3 ++ v.extractLsb' 0 8 := by
  apply BitVec.eq_of_toNat_eq
  have hmask : (v &&& 0x000007FF).toNat = v.toNat % 2 ^ 11 := Nat.and_two_pow_sub_one_eq_mod v.toNat 11
  rw [hmask]
  simp only [toNat_append_eq, BitVec.ofNat_eq_ofNat, BitVec.toNat_ofNat, BitVec.extractLsb'_toNat,
    Nat.shiftRight_eq_div_pow, Nat.reducePow]
  omega

theorem adcMap1_fields (v : Word) :
    v &&& 0x00FFFFFF = (0 : BitVec 8) ++ v.extractLsb' 16 8 ++ v.extractLsb' 8 8 ++ v.extractLsb' 0 8 := by
  apply BitVec.eq_of_toNat_eq
  have hmask : (v &&& 0x00FFFFFF).toNat = v.toNat % 2 ^ 24 := Nat.and_two_pow_sub_one_eq_mod v.toNat 24
  rw [hmask]
  simp only [toNat_append_eq, BitVec.ofNat_eq_ofNat, BitVec.toNat_ofNat, BitVec.extractLsb'_toNat,
    Nat.shiftRight_eq_div_pow, Nat.reducePow]
  omega

/-- A parameter register holds the bits written to it that are not reserved. -/
theorem regWord_write_same (s : State) {r : HostReg} (hr : r.isParam = true) (v : Word) :
    State.regWord { s with par := s.par.write r v } r = v &&& r.writeMask := by
  have hall : v = v &&& 0xFFFFFFFF := BitVec.and_allOnes.symm
  cases r with
  | adcMap0 => exact (adcMap0_fields v).symm
  | adcMap1 => exact (adcMap1_fields v).symm
  | id | cmd | status | intEn | errIndex | sampleRaw | sampleVal | biasLo | biasHi | biasAccLo | biasAccHi | biasLenLo
    | biasLenHi | peakCount | nMax => cases hr
  | _ => exact hall

/-- Each register's word is made of fields of its own. -/
theorem regWord_write_other (s : State) {r r' : HostReg} (h : r' ≠ r) (v : Word) :
    State.regWord { s with par := s.par.write r v } r' = s.regWord r' := by
  cases r <;> cases r' <;> trivial

theorem writeReg_param {s : State} (hidle : s.status.busy = false) {r : HostReg} (hr : r.isParam = true) (v : Word) :
    writeReg r v s = { s with par := s.par.write r v } := by
  cases r <;> simp_all [writeReg, HostReg.isParam]

theorem step_write_param {s : State} (rest : List Move) (hreset : s.inReset = false) (hidle : s.status.busy = false)
    {r : HostReg} (hr : r.isParam = true) (v : Word) :
    step (s.facing (.write r.offset 4 v :: rest)) =
      .next { s with
        par := s.par.write r v, env := rest, history := .hostWrite r.offset v :: s.history } := by
  rw [step_write v rest hreset r.offset_aligned, hostWrite, writeTarget, hostTarget_offset]
  exact congrArg _
    (writeReg_param (s := { s with env := rest, history := .hostWrite r.offset v :: s.history }) hidle hr v)

theorem readValue_reg {s : State} (hidle : s.status.busy = false) (r : HostReg) :
    s.readValue r.offset = s.regWord r := by
  rw [State.readValue, State.readIsDraw_reg, hidle, Bool.false_and, if_neg Bool.false_ne_true, State.idleRead_reg]

/-- Settles O17: the register written reads back under its mask, and each other register keeps its word. -/
theorem parameterWriteReadsBack : Obligations.ParameterWriteReadsBack := by
  intro s rest v hreset hidle
  change ∀ e ∈ regRows HostReg.writeMask HostReg.params, _
  intro e he
  obtain ⟨r, hr, rfl⟩ := List.mem_map.mp he
  have hparam := HostReg.isParam_of_mem_params r hr
  refine ⟨_, step_write_param rest hreset hidle hparam v, ?_, ?_, rfl, fun _ => rfl⟩
  · rw [readValue_reg (by exact hidle)]
    exact regWord_write_same s hparam v
  · intro e' he' hne
    change e' ∈ regRows HostReg.writeMask HostReg.params at he'
    obtain ⟨r', -, rfl⟩ := List.mem_map.mp he'
    rw [readValue_reg (by exact hidle), readValue_reg hidle]
    exact regWord_write_other s (fun h => hne (congrArg HostReg.offset h)) v

end Sys2Proof.Machine

namespace Sys2Proof.Machine

/-! # The host port and the two interfaces: the statements of 20_memory -/

/-! ## A step makes at most one transaction -/

/-- The phase of the command in progress names the register `reg` (40_sample_reader R110 to R114). -/
def PhaseReads (s : State) (reg : Byte) : Prop :=
  (s.seq.phase = .poll ∧ s.seq.polls ≠ s.latched.p.toNat ∧ reg = s.latched.drdyReg) ∨
    (s.seq.phase = .readB2 ∧ reg = s.latched.b2Reg) ∨ (s.seq.phase = .readB1 ∧ reg = s.latched.b1Reg) ∨
    (s.seq.phase = .readB0 ∧ reg = s.latched.b0Reg)

/-- A BusRead of `reg` answered with `byte` is one that the rules name in the state `s`: a command that reads samples is
in progress, and its phase names the register. -/
def NamedBusRead (s : State) (reg byte : Byte) : Prop :=
  s.status.busy = true ∧ byte = s.adcAnswer ∧ (∃ i, s.seq.op = some i ∧ ReadsSamples i s.seq.sub) ∧ PhaseReads s reg

/-- From `s` to `t` the history grew by at most one transaction, and a BusRead is one that the rules name. -/
def OneTransaction (s t : State) : Prop :=
  t.history = s.history ∨ ∃ e, t.history = e :: s.history ∧ ∀ reg b, e = .busRead reg b → NamedBusRead s reg b

section
variable {i : Instr} {s t : State}

/-- Only a command that reads samples has the phases of the sample reader (10_state R50). -/
theorem Seq.legal.readsSamples {q : Seq} (hq : q.legal) (hop : q.op = some i) (hp : q.phase.sampling = true) :
    ReadsSamples i q.sub := by
  cases i with
  | readSample => exact .inl rfl
  | acquire => exact .inr (.inl rfl)
  | run =>
    rcases hsub : q.sub with _ | _ | _ | _
    case some.acquire => exact .inr (.inr ⟨rfl, rfl⟩)
    all_goals simp only [Seq.legal, hop, hsub] at hq
    case some.transform => simp [hq, Phase.sampling] at hp
    case some.scan => rcases hq with hq | hq <;> simp [hq, Phase.sampling] at hp
  | nop =>
    have hsub := hq.sub_eq_none hop (by decide)
    simp only [Seq.legal, hop, hsub] at hq
    simp [hq, Phase.sampling] at hp
  | transform | scan =>
    have hsub := hq.sub_eq_none hop (by decide)
    simp only [Seq.legal, hop, hsub] at hq
    rcases hq with hq | hq <;> simp [hq, Phase.sampling] at hp

theorem PhaseReads.sampling {reg : Byte} (h : PhaseReads s reg) : s.seq.phase.sampling = true := by
  rcases h with ⟨hp, -⟩ | ⟨hp, -⟩ | ⟨hp, -⟩ | ⟨hp, -⟩ <;> rw [hp] <;> rfl

/-- The core's next step is a BusRead exactly when a command is in progress in a phase that names a register. -/
theorem pendingBusRead_eq_some {reg : Byte} :
    pendingBusRead s = some reg ↔ (∃ i, s.seq.op = some i) ∧ PhaseReads s reg := by
  unfold pendingBusRead PhaseReads pollsSpent
  cases s.seq.op with
  | none => simp
  | some i => cases s.seq.phase <;> simp [eq_comm]

/-- Under the invariant a BusRead that the phase of a running command names is one that the rules name. -/
theorem State.Inv.namedBusRead (h : s.Inv) (hop : s.seq.op = some i) {reg : Byte} (hreads : PhaseReads s reg) :
    NamedBusRead s reg s.adcAnswer :=
  ⟨h.busy_of_op hop, rfl, ⟨i, hop, h.seqLegal.readsSamples hop hreads.sampling⟩, hreads⟩

@[simp] theorem afterAcquire_history (i : Instr) (s : State) : (afterAcquire i s).history = s.history := by
  obtain ⟨q, hq⟩ := afterAcquire_eq i s
  rw [hq]

@[simp] theorem afterTransform_history (i : Instr) (s : State) : (afterTransform i s).history = s.history := by
  obtain ⟨q, hq⟩ := afterTransform_eq i s
  rw [hq]

/-- A core step leaves the history alone or makes the BusRead that its phase names. -/
theorem CoreStepTo.history (ht : CoreStepTo i s t) :
    t.history = s.history ∨ ∃ reg, PhaseReads s reg ∧ t.history = .busRead reg s.adcAnswer :: s.history := by
  cases ht with
  | polls _ hp hmore => exact .inr ⟨_, .inl ⟨hp, hmore, rfl⟩, by simp⟩
  | readsB2 _ hp => exact .inr ⟨_, .inr (.inl ⟨hp, rfl⟩), by simp⟩
  | readsB1 _ hp => exact .inr ⟨_, .inr (.inr (.inl ⟨hp, rfl⟩)), by simp⟩
  | readsB0 _ hp | acquiresB0 _ hp => exact .inr ⟨_, .inr (.inr (.inr ⟨hp, rfl⟩)), by simp⟩
  | _ => exact .inl (by simp)

/-! ### One agent's move -/

theorem oneTransaction_of_busRead {reg : Byte} (hnamed : NamedBusRead s reg s.adcAnswer)
    (ht : t.history = .busRead reg s.adcAnswer :: s.history) : OneTransaction s t := by
  refine .inr ⟨_, ht, fun reg' b he => ?_⟩
  cases he
  exact hnamed

/-- A host access is a transaction, and no BusRead. -/
theorem oneTransaction_of_host {e : Event} (ht : t.history = e :: s.history) (he : ∀ reg b, e ≠ .busRead reg b) :
    OneTransaction s t :=
  .inr ⟨e, ht, fun reg b heq => absurd heq (he reg b)⟩

theorem State.Inv.coreStep_oneTransaction (h : s.Inv) (ht : Machine.coreStep s = .next t) : OneTransaction s t := by
  by_cases hrun : s.inReset = true ∨ s.seq.op = none
  · rw [coreStep_idle hrun] at ht
    cases ht
    exact .inl rfl
  · obtain ⟨hreset, hop⟩ := not_or.mp hrun
    obtain ⟨i, hop⟩ := Option.ne_none_iff_exists'.mp hop
    rw [coreStep_run (by simpa using hreset) hop] at ht
    rcases (coreStepTo_of_exec ht).history with hsame | ⟨reg, hreads, hhistory⟩
    · exact .inl hsame
    · exact oneTransaction_of_busRead (h.namedBusRead hop hreads) hhistory

/-- The effect of a host write makes no transaction besides the write itself. -/
@[simp] theorem writeTarget_history (off : HostOffset) (v : Word) (s : State) :
    (writeTarget off v s).history = s.history := by
  rcases writeTarget_cases off v s with hw | ⟨-, -, hw⟩ | ⟨-, -, hw⟩ | ⟨-, hw⟩ | ⟨-, hw⟩ | ⟨r, -, -, -, hw⟩ |
    ⟨-, -, hw⟩ <;> rw [hw]
  · exact dropWrite_history s
  · rcases accept_cases v s with ⟨i, -, ha⟩ | ⟨e, -, ha⟩ <;> simp [ha]

@[simp] theorem hostWrite_history (off : HostOffset) (v : Word) (s : State) :
    (hostWrite off v s).history = .hostWrite off v :: s.history :=
  writeTarget_history off v _

@[simp] theorem hostWait_history (turns : Nat) (s : State) :
    (hostWait turns s).history =
      .hostRead HostReg.status.offset (s.readValue HostReg.status.offset) :: s.history := by
  unfold hostWait
  split <;> rfl

theorem State.Inv.assertReset_oneTransaction (h : s.Inv) (inFlight : Bool) :
    OneTransaction s (Machine.assertReset inFlight s) := by
  rcases assertReset_cases inFlight s with hr | ⟨reg, -, hpending, hr⟩ <;> rw [hr]
  · exact .inl rfl
  · obtain ⟨⟨i, hop⟩, hreads⟩ := pendingBusRead_eq_some.mp hpending
    exact oneTransaction_of_busRead (h.namedBusRead hop hreads) (by simp)

theorem State.Inv.outsideMove_oneTransaction (h : s.Inv) {m : Move} (ht : Machine.outsideMove m s = .next t) :
    OneTransaction s t := by
  cases m with
  | coreTurn => cases ht; exact .inl rfl
  | read off size =>
    obtain ⟨-, -, rfl⟩ := hostAccess_next ht
    exact oneTransaction_of_host (hostRead_history off s) (by simp)
  | write off size v =>
    obtain ⟨-, -, rfl⟩ := hostAccess_next ht
    exact oneTransaction_of_host (hostWrite_history off v s) (by simp)
  | wait turns =>
    obtain ⟨-, -, rfl⟩ := hostAccess_next ht
    exact oneTransaction_of_host (hostWait_history turns s) (by simp)
  | assertReset inFlight => cases ht; exact h.assertReset_oneTransaction inFlight
  | releaseReset => cases ht; exact .inl rfl

end

/-- Settles O53: the core makes the BusRead that its phase names or none, a host access is one event, and reset adds at
most the BusRead in flight. -/
theorem oneTransactionPerStep : Obligations.OneTransactionPerStep := by
  intro s t h ht
  change OneTransaction s t
  rcases step_cases s with ⟨r, hr, hstep⟩ | ⟨m, rest, -, -, hstep⟩ <;> rw [hstep] at ht
  · have hone := (h.coreTurn hr).coreStep_oneTransaction ht
    rcases hr with ⟨-, rfl⟩ | ⟨rest, -, rfl⟩ <;> exact hone
  · exact (h.withEnv rest).outsideMove_oneTransaction ht

end Sys2Proof.Machine

namespace Sys2Proof.Machine

/-! ## Host reads have no side effect -/

section
variable {s : State} {off : HostOffset}

/-- A read that is no free value returns what the block holds and changes nothing but the record (20_memory R67). -/
theorem hostRead_of_not_draw (hfree : s.readIsDraw off = false) :
    hostRead off s = { s with history := .hostRead off (s.idleRead off) :: s.history } := by
  rw [hostRead, State.readValue, hfree]
  rfl

theorem readIsDraw_idle (hidle : s.status.busy = false) (off : HostOffset) : s.readIsDraw off = false := by
  rw [State.readIsDraw, hidle, Bool.false_and]

theorem hostRead_idle (hidle : s.status.busy = false) (off : HostOffset) :
    hostRead off s = { s with history := .hostRead off (s.idleRead off) :: s.history } :=
  hostRead_of_not_draw (readIsDraw_idle hidle off)

/-- STATUS reads its word, busy or idle (20_memory R72). -/
theorem hostRead_statusOffset (s : State) :
    hostRead HostReg.status.offset s = { s with history := .hostRead 0x008 s.status.word :: s.history } := by
  rw [hostRead_of_not_draw (by rw [State.readIsDraw_reg]; exact Bool.and_false _), State.idleRead_reg]
  rfl

theorem readValue_idle (hidle : s.status.busy = false) (off : HostOffset) : s.readValue off = s.idleRead off := by
  rw [State.readValue, readIsDraw_idle hidle, if_neg Bool.false_ne_true]

/-- A second read of an idle block returns what the first one returned (20_memory R67). -/
theorem readValue_hostRead_idle (hidle : s.status.busy = false) (off : HostOffset) :
    (hostRead off s).readValue off = s.readValue off := by
  rw [readValue_idle (s := hostRead off s) hidle, readValue_idle hidle]
  rfl

/-- The value read is appended to the script's trace (30_encoding R95). -/
theorem hostTrace_hostRead (off : HostOffset) (s : State) :
    hostTrace (hostRead off s) = hostTrace s ++ [s.readValue off] := by
  simp [hostTrace]

/-- One turn of `wait`: a read of STATUS, and the loop again behind its core turns while the word shows BUSY = 1
(30_encoding R96). -/
theorem hostWait_eq (turns : Nat) (s : State) :
    hostWait turns s = { s with
      history := .hostRead 0x008 s.status.word :: s.history
      env := if s.status.word.getLsbD 0 = false then s.env
        else List.replicate turns .coreTurn ++ .wait turns :: s.env } := by
  have hbusy : s.status.word.getLsbD 0 = s.status.busy := (statusWordLayout s.status).1
  rw [hostWait, hostRead_statusOffset, hbusy]
  cases s.status.busy <;> rfl

end

/-- Settles O16: a read is `hostRead`, which writes the history and the draw counter alone. -/
theorem hostReadHasNoSideEffect : Obligations.HostReadHasNoSideEffect := by
  intro s off rest hreset ha
  refine ⟨fun turns => ?_, ⟨_, step_read rest hreset ha, _, rfl, hostTrace_hostRead off { s with env := rest }⟩, ?_⟩
  · rw [step_wait turns rest hreset, hostWait_eq]
  · have hfirst := step_read (.read off 4 :: rest) hreset ha
    have hsecond := step_read (s := hostRead off { s with env := .read off 4 :: rest }) rest hreset ha
    refine ⟨_, _, _, hfirst, ⟨_, hsecond, rfl⟩, fun hidle => ⟨readValue_hostRead_idle hidle off, ?_⟩⟩
    exact congrArg State.draws (hostRead_idle (s := { s with env := .read off 4 :: rest }) hidle off)

end Sys2Proof.Machine

namespace Sys2Proof.Machine

/-! ## Host writes of BUF -/

/-! ### A word stored in a binary64 value (20_memory R64) -/

theorem State.f64At_eq (s : State) (a : Nat) : s.f64At a = s.wordAt (a + 4) ++ s.wordAt a := rfl

/-- The half of a binary64 value at the lower address. -/
theorem State.f64At_writeWord_lo (s : State) (a : Nat) (v : Word) :
    State.f64At { s with mem := Memory.writeWord s.mem a v } a = (s.f64At a).extractLsb' 32 32 ++ v := by
  rw [State.f64At_eq, State.wordAt_writeWord, State.wordAt_writeWord_other _ _ (.inr le_rfl), hiHalf_f64At]

/-- The half of a binary64 value at the higher address. -/
theorem State.f64At_writeWord_hi (s : State) (a : Nat) (v : Word) :
    State.f64At { s with mem := Memory.writeWord s.mem (a + 4) v } a = v ++ (s.f64At a).extractLsb' 0 32 := by
  rw [State.f64At_eq, State.wordAt_writeWord, State.wordAt_writeWord_other _ _ (.inl le_rfl), loHalf_f64At]

theorem State.f64At_writeWord_other (s : State) {a b : Nat} (v : Word) (h : b + 8 ≤ a ∨ a + 4 ≤ b) :
    State.f64At { s with mem := Memory.writeWord s.mem a v } b = s.f64At b := by
  rw [State.f64At_eq, State.wordAt_writeWord_other _ _ (by omega), State.wordAt_writeWord_other _ _ (by omega)]
  rfl

theorem State.byteAt_writeWord_other (s : State) {a b : Nat} (v : Word) (h : ¬ (a ≤ b ∧ b < a + 4)) :
    State.byteAt { s with mem := Memory.writeWord s.mem a v } b = s.byteAt b :=
  State.byteAt_congr rfl (by rw [Memory.find_writeWord, if_neg h])

/-! ### The write -/

section
variable {s : State}

/-- A host write of a word of the BUF window of an idle block stores the word (20_memory R62). -/
theorem step_write_buf (rest : List Move) (hreset : s.inReset = false) (hidle : s.status.busy = false)
    (hcap : legalCapacity s.nMax = true) {a : Nat} (ha : a % 4 = 0)
    (hin : 0x100000 ≤ a ∧ a < 0x100000 + 16 * s.nMax.toNat) (v : Word) :
    step (s.facing (.write (BitVec.ofNat 22 a) 4 v :: rest)) =
      .next { s with
        mem := Memory.writeWord s.mem a v, env := rest
        history := .hostWrite (BitVec.ofNat 22 a) v :: s.history } := by
  have hoff := toNat_hostOffset hcap (.inl hin)
  rw [step_write v rest hreset (by rwa [hoff]), hostWrite, writeTarget, hoff, hostTarget_of_buf (by exact hin)]
  simp only [hidle, Bool.false_eq_true, if_false]

end

/-- Settles O18: the write stores one word of an entry, which is one half of its real or imaginary part. -/
theorem bufWordWriteReadsBack : Obligations.BufWordWriteReadsBack := by
  intro s rest k j v hreset hidle hcap hk hj
  have hin : 0x100000 ≤ 0x100000 + 16 * k + 4 * j ∧ 0x100000 + 16 * k + 4 * j < 0x100000 + 16 * s.nMax.toNat := by
    omega
  have hre : 2 ≤ j → State.f64At { s with mem := Memory.writeWord s.mem (bufAddr k + 4 * j) v } (bufAddr k) =
      s.f64At (bufAddr k) := fun h => State.f64At_writeWord_other s v (.inl (by omega))
  have him : j < 2 → State.f64At { s with mem := Memory.writeWord s.mem (bufAddr k + 4 * j) v } (bufAddr k + 8) =
      s.f64At (bufAddr k + 8) := fun h => State.f64At_writeWord_other s v (.inr (by omega))
  refine ⟨_, step_write_buf rest hreset hidle hcap (by omega) hin v, ?readsBack, ?outside, ?reLo, ?reHi, ?imLo, ?imHi,
    rfl⟩
  case readsBack =>
    rw [readValue_idle (by exact hidle), State.idleRead_buf (by exact hcap) (by exact hin)]
    exact State.wordAt_writeWord s _ v
  case outside => exact fun b hb => State.byteAt_writeWord_other s v hb
  case reLo => rintro rfl; exact congrArg₂ Cplx.mk (State.f64At_writeWord_lo s (bufAddr k) v) (him (by decide))
  case reHi => rintro rfl; exact congrArg₂ Cplx.mk (State.f64At_writeWord_hi s (bufAddr k) v) (him (by decide))
  case imLo => rintro rfl; exact congrArg₂ Cplx.mk (hre le_rfl) (State.f64At_writeWord_lo s (bufAddr k + 8) v)
  case imHi => rintro rfl; exact congrArg₂ Cplx.mk (hre (by decide)) (State.f64At_writeWord_hi s (bufAddr k + 8) v)

end Sys2Proof.Machine

namespace Sys2Proof.Machine

/-! # Command words and host scripts: the statements of 30_encoding -/

/-! ## The fields of a command word (30_encoding R90) -/

theorem rsvField_append_opField (w : Word) : rsvField w ++ opField w = w :=
  (BitVec.extractLsb'_append_extractLsb'_eq_extractLsb' rfl).trans BitVec.extractLsb'_eq_self

theorem toNat_eq_fields (w : Word) : w.toNat = (rsvField w).toNat * 256 + (opField w).toNat := by
  conv_lhs => rw [← rsvField_append_opField w]
  exact toNat_append_eq _ _

theorem rsvField_eq_zero_iff {w : Word} : rsvField w = 0 ↔ w.toNat < 256 := by
  have hfields := toNat_eq_fields w
  have hop : (opField w).toNat < 256 := (opField w).isLt
  rw [BitVec.toNat_eq]
  change (rsvField w).toNat = 0 ↔ w.toNat < 256
  omega

theorem toNat_opField {w : Word} (h : w.toNat < 256) : (opField w).toNat = w.toNat := by
  have hfields := toNat_eq_fields w
  omega

/-! ## The words of the commands (30_encoding R92) -/

theorem encodesAsTable : ∀ i : Instr, Laws.EncodesAsTable.Statement i
  | .nop => Laws.EncodesAsTable.nop
  | .readSample => Laws.EncodesAsTable.readSample
  | .acquire => Laws.EncodesAsTable.acquire
  | .transform => Laws.EncodesAsTable.transform
  | .scan => Laws.EncodesAsTable.scan
  | .run => Laws.EncodesAsTable.run

theorem decode_encode (i : Instr) : decode (encode i) = .ok i :=
  have ⟨_, _, _, _, hdecode, _⟩ := encodesAsTable i
  hdecode

theorem toNat_encode_le (i : Instr) : (encode i).toNat ≤ 5 := by
  obtain ⟨_, hrsv, hop, hle, _, _⟩ := encodesAsTable i
  rwa [← toNat_opField (rsvField_eq_zero_iff.mp hrsv), hop]

/-- An opcode is one of the map of 30_encoding R92, or it lies above 0x05 and is reserved. -/
theorem decodeOp_cases (op : Byte) :
    (∃ i : Instr, op = i.opcode) ∨ (6 ≤ op.toNat ∧ decodeOp op = .error .reservedOpcode) := by
  unfold decodeOp
  split_ifs with hnop hread hacquire htransform hscan hrun
  · exact .inl ⟨.nop, hnop⟩
  · exact .inl ⟨.readSample, hread⟩
  · exact .inl ⟨.acquire, hacquire⟩
  · exact .inl ⟨.transform, htransform⟩
  · exact .inl ⟨.scan, hscan⟩
  · exact .inl ⟨.run, hrun⟩
  · exact .inr ⟨by bv_omega, rfl⟩

/-- Decoding is total (30_encoding R91): a word is a command's, or it is ILLEGAL for its opcode or its reserved bits. -/
theorem decode_cases (w : Word) :
    (∃ i, w = encode i ∧ decode w = .ok i) ∨
    ((6 ≤ w.toNat ∧ w.toNat ≤ 255) ∧ decode w = .error .reservedOpcode) ∨
    (256 ≤ w.toNat ∧ decode w = .error .reservedBits) := by
  by_cases hrsv : rsvField w = 0
  · have hlt := rsvField_eq_zero_iff.mp hrsv
    have hdecode : decode w = decodeOp (opField w) := if_neg (not_not.mpr hrsv)
    rcases decodeOp_cases (opField w) with ⟨i, hop⟩ | ⟨hop, herr⟩
    · have hw : w = encode i := by rw [← rsvField_append_opField w, hrsv, hop]; rfl
      exact .inl ⟨i, hw, hw ▸ decode_encode i⟩
    · rw [toNat_opField hlt] at hop
      exact .inr (.inl ⟨⟨hop, by omega⟩, hdecode.trans herr⟩)
  · exact .inr (.inr ⟨not_lt.mp (mt rsvField_eq_zero_iff.mpr hrsv), if_pos hrsv⟩)

theorem decode_eq_ok_iff {w : Word} {i : Instr} : decode w = .ok i ↔ w = encode i := by
  refine ⟨fun h => ?_, fun h => h ▸ decode_encode i⟩
  rcases decode_cases w with ⟨j, hw, hj⟩ | ⟨_, herr⟩ | ⟨_, herr⟩
  · cases hj.symm.trans h
    exact hw
  · cases herr.symm.trans h
  · cases herr.symm.trans h

theorem decode_eq_reservedOpcode_iff {w : Word} :
    decode w = .error .reservedOpcode ↔ 6 ≤ w.toNat ∧ w.toNat ≤ 255 := by
  rcases decode_cases w with ⟨i, rfl, hok⟩ | ⟨hrange, herr⟩ | ⟨hrange, herr⟩
  · have hle := toNat_encode_le i
    simp only [hok, reduceCtorEq, false_iff]
    omega
  · simp only [herr, hrange, and_self]
  · simp only [herr, Except.error.injEq, reduceCtorEq, false_iff]
    omega

theorem decode_eq_reservedBits_iff {w : Word} : decode w = .error .reservedBits ↔ 256 ≤ w.toNat := by
  rcases decode_cases w with ⟨i, rfl, hok⟩ | ⟨hrange, herr⟩ | ⟨hrange, herr⟩
  · have hle := toNat_encode_le i
    simp only [hok, reduceCtorEq, false_iff]
    omega
  · simp only [herr, Except.error.injEq, reduceCtorEq, false_iff]
    omega
  · simp only [herr, hrange]

/-- Settles O1: `decode_cases`, with the six words of the commands written out. -/
theorem decodeIsTheOpcodeMap : Obligations.DecodeIsTheOpcodeMap := by
  refine ⟨fun w i => ?_, fun _ => decode_eq_reservedOpcode_iff, fun _ => decode_eq_reservedBits_iff⟩
  rw [decode_eq_ok_iff]
  cases i <;> simp [encode, Instr.opcode]

/-- The table word of 32 bits is the command word (30_encoding R90). -/
theorem decodeTableWord_toNat (w : Word) : decodeTableWord 32 w.toNat = (decode w).toOption := by
  rw [decodeTableWord, if_neg (lt_irrefl 32), Nat.mod_eq_of_lt w.isLt, BitVec.ofNat_toNat, BitVec.setWidth_eq]

/-- Settles O2: a word decodes to a command exactly when it is the command's word. -/
theorem decodeEncodeRoundTrip : Obligations.DecodeEncodeRoundTrip := by
  refine ⟨fun i _ => decode_encode i, fun _ _ h => (decode_eq_ok_iff.mp h).symm, fun w i => ?_⟩
  rw [decodeTableWord_toNat, ← decode_eq_ok_iff]
  cases decode w <;> simp [Except.toOption]

/-! ## Host scripts (30_encoding R95 to R97) -/

theorem expandScript_cons (a : Stmt) (script : List Stmt) :
    expandScript (a :: script) = a.expand ++ expandScript script :=
  List.flatMap_cons

/-- `cmd` writes its word to CMD (30_encoding R96). -/
theorem Stmt.expand_cmd {i : Instr} {w : Word} (h : decode w = .ok i) : (Stmt.cmd i).expand = [.write 0x004 4 w] := by
  rw [decode_eq_ok_iff.mp h]
  rfl

/-- Settles O3: each statement expands as its row says, and `cmd` into the word that decodes to its command. -/
theorem knownWordsDecode : Obligations.KnownWordsDecode := by
  refine ⟨decode_encode .acquire, decode_encode .run, decode_eq_reservedBits_iff.mpr (by decide),
    decode_eq_reservedOpcode_iff.mpr (by decide), ?wrRd, ?wr64Rd64, ?cmd, ?wait, ?clrdone, ?clrdrop, expandScript_cons,
    rfl, ?regOffsets, ?entryOffsets⟩
  case wrRd => exact fun off v e => ⟨rfl, rfl⟩
  case wr64Rd64 => exact fun lo f => ⟨rfl, rfl⟩
  case cmd =>
    intro e he
    have hdecode : decode e.2 = .ok e.1 := by
      revert e
      decide
    exact Stmt.expand_cmd hdecode
  case wait => exact fun turns => rfl
  case clrdone | clrdrop => rfl
  case regOffsets => rfl
  case entryOffsets => exact fun k => ⟨rfl, rfl, rfl, rfl, rfl⟩

end Sys2Proof.Machine

namespace Sys2Proof.Machine

/-! # The sample reader: the statements of 40_sample_reader -/

/-! ## The value of a sample -/

/-- The three bytes are the digits of the raw sample (40_sample_reader R115). -/
theorem toNat_assembleRaw (b2 b1 b0 : Byte) :
    (assembleRaw b2 b1 b0).toNat = b2.toNat * 65536 + b1.toNat * 256 + b0.toNat := by
  simp only [assembleRaw, toNat_append_eq]
  omega

theorem SampleRead.raw_eq (r : SampleRead) : r.raw = assembleRaw r.b2 r.b1 r.b0 := by
  rw [SampleRead.raw, ← toNat_assembleRaw, BitVec.ofNat_toNat, BitVec.setWidth_eq]

/-- The sign extension keeps the value of the raw sample (40_sample_reader R116). -/
@[simp] theorem toInt_extendSample (raw : BitVec 24) : (extendSample raw).toInt = raw.toInt :=
  BitVec.toInt_signExtend_of_le (by decide)

/-- The value by the sign bit, bit 23. -/
theorem toInt_sample (raw : BitVec 24) :
    raw.toInt = if raw.getLsbD 23 = true then (raw.toNat : Int) - 16777216 else raw.toNat :=
  BitVec.toInt_eq_msb_cond raw

/-- A raw sample in the top 24 bits of a word has 256 times its value. -/
theorem toInt_sample_shiftLeft (raw : BitVec 24) : (raw.setWidth 32 <<< 8).toInt = raw.toInt * 256 := by
  have hlt := raw.isLt
  rw [BitVec.toInt_eq_toNat_cond, BitVec.toInt_eq_toNat_cond, BitVec.toNat_shiftLeft, BitVec.toNat_setWidth,
    Nat.shiftLeft_eq]
  split <;> split <;> omega

/-- The arithmetic shift divides by 256 again. -/
theorem extendSample_eq_shifts (raw : BitVec 24) : extendSample raw = (raw.setWidth 32 <<< 8).sshiftRight 8 := by
  apply BitVec.eq_of_toInt_eq
  rw [toInt_extendSample, BitVec.toInt_sshiftRight, toInt_sample_shiftLeft, Int.shiftRight_eq_div_pow]
  omega

/-- Settles O29: the value by the sign bit, and the shifts of the value. -/
theorem signExtensionMethodsAgree : Obligations.SignExtensionMethodsAgree := fun raw =>
  ⟨(toInt_extendSample raw).trans (toInt_sample raw), extendSample_eq_shifts raw⟩

/-- Settles O30: a sample is the signed value of 24 bits, so the raw sample of a value is its 24-bit word. -/
theorem sampleRangeIsBijective : Obligations.SampleRangeIsBijective := by
  simp only [Obligations.SampleRangeIsBijective, toInt_extendSample]
  refine ⟨fun raw => ⟨BitVec.le_toInt raw, Int.le_sub_one_of_lt BitVec.toInt_lt⟩, fun v hlo hhi => ?_, by decide⟩
  have hvalue : (BitVec.ofInt 24 v).toInt = v := by
    rw [BitVec.toInt_ofInt]
    exact Int.bmod_eq_of_le hlo (Int.lt_add_one_of_le hhi)
  exact ⟨BitVec.ofInt 24 v, hvalue, fun other hother => BitVec.eq_of_toInt_eq (hother.trans hvalue.symm)⟩

end Sys2Proof.Machine

namespace Sys2Proof.Machine

/-! ## One step of the sample reader

The step of each phase, the same in READ_SAMPLE, in ACQUIRE and in RUN. -/

section
variable {i : Instr} {s t : State}

/-- BUF and PEAK read alike while their stored bytes and the draw of the others are the same. -/
theorem sameBytes_of_mem (he : t.memEpoch = s.memEpoch) (hm : t.mem = s.mem) : SameBytes s t := fun _ =>
  State.byteAt_congr he (by rw [hm])

/-- Before its end an acquiring command makes the steps of the body of ACQUIRE. -/
theorem exec_of_acquires (ha : Acquires i s.seq.sub) (hp : s.seq.phase ≠ .fin) :
    exec i s = acquireBody (afterAcquire i) (errOpOf i s.seq.sub) s := by
  rcases ha with rfl | ⟨rfl, hsub⟩
  · exact if_neg hp
  · rw [hsub]
    simp only [exec, execRun, if_neg hp, runBody, hsub]
    rfl

theorem Acquires.ne_readSample {sub : Option SubOp} (ha : Acquires i sub) : i ≠ .readSample := by
  rcases ha with rfl | ⟨rfl, -⟩ <;> decide

theorem exec_poll (hr : ReadsSamples i s.seq.sub) (hp : s.seq.phase = .poll) :
    exec i s = .next (pollStep (if i = .readSample then 0 else s.seq.i) (errOpOf i s.seq.sub) s) := by
  rcases hr with rfl | ha
  · simp only [exec, execReadSample, hp, if_true]
    rfl
  · rw [exec_of_acquires ha (by simp [hp]), if_neg (Acquires.ne_readSample ha)]
    simp only [acquireBody, hp]

theorem exec_readB2 (hr : ReadsSamples i s.seq.sub) (hp : s.seq.phase = .readB2) :
    exec i s = .next (readB2Step s) := by
  rcases hr with rfl | ha
  · simp only [exec, execReadSample, hp]
  · simp only [exec_of_acquires ha (by simp [hp]), acquireBody, hp]

theorem exec_readB1 (hr : ReadsSamples i s.seq.sub) (hp : s.seq.phase = .readB1) :
    exec i s = .next (readB1Step s) := by
  rcases hr with rfl | ha
  · simp only [exec, execReadSample, hp]
  · simp only [exec_of_acquires ha (by simp [hp]), acquireBody, hp]

theorem exec_readB0 (hr : ReadsSamples i s.seq.sub) (hp : s.seq.phase = .readB0) :
    exec i s = .next (goto (if i = .readSample then .fin else .store) (readB0Step s)) := by
  rcases hr with rfl | ha
  · simp only [exec, execReadSample, hp, if_true]
  · rw [exec_of_acquires ha (by simp [hp]), if_neg (Acquires.ne_readSample ha)]
    simp only [acquireBody, hp]

/-- A poll while polls are left (40_sample_reader R110). -/
theorem exec_pollOnce (hr : ReadsSamples i s.seq.sub) (hp : s.seq.phase = .poll)
    (hmore : s.seq.polls ≠ s.latched.p.toNat) : exec i s = .next (pollOnce s) := by
  rw [exec_poll hr hp, pollStep_more hmore]

end

/-- Settles O26: the step is `pollOnce`. -/
theorem pollReadsDataReady : Obligations.PollReadsDataReady := by
  intro i s hr hp hmore
  refine ⟨pollOnce s, exec_pollOnce hr hp hmore, ?state, fun b rest hadc => ⟨State.adcAnswer_cons hadc, ?adc⟩,
    sameBytes_of_mem (pollOnce_memEpoch s) (pollOnce_mem s)⟩
  case state =>
    simp only [pollOnce, busRead_eq]
    rfl
  case adc => rw [pollOnce_adc, hadc, List.tail_cons]

/-- Settles O27: the step is the error entry of SampleTimeout. -/
theorem pollTimeout : Obligations.PollTimeout := by
  intro i s hr hp hspent
  refine ⟨_, (exec_poll hr hp).trans (congrArg _ (pollStep_spent hspent)), ?_⟩
  exact ⟨⟨rfl, rfl⟩, rfl, ⟨rfl, rfl, rfl, rfl, rfl, rfl⟩, ⟨rfl, rfl⟩, ⟨rfl, rfl, rfl⟩, rfl, fun _ => rfl, fun _ => rfl,
    rfl, rfl⟩

/-- Settles O28: the steps of the three phases, and the value that the last one assembles. -/
theorem dataBytesReadInOrder : Obligations.DataBytesReadInOrder := by
  intro i s hr
  refine ⟨fun hp => ⟨_, exec_readB2 hr hp, ?b2, sameBytes_of_mem (readB2Step_memEpoch s) (readB2Step_mem s)⟩,
    fun hp => ⟨_, exec_readB1 hr hp, ?b1, sameBytes_of_mem (readB1Step_memEpoch s) (readB1Step_mem s)⟩,
    fun hp => ⟨_, exec_readB0 hr hp, ?b0, ?raw, ?value,
      sameBytes_of_mem (readB0Step_memEpoch s) (readB0Step_mem s)⟩⟩
  case b2 => simp only [readB2Step, busRead_eq]
  case b1 => simp only [readB1Step, busRead_eq]
  case b0 => simp only [goto, readB0Step, busRead_eq]
  case raw => exact toNat_assembleRaw _ _ _
  case value => exact toInt_extendSample _

end Sys2Proof.Machine

namespace Sys2Proof.Machine

/-! ## A whole sample

From the first poll of a sample to its third data byte, with the ADC's answers listed. -/

/-- The command `i` is in progress and reads samples, and nothing outside the core will move. -/
def State.reading (i : Instr) (s : State) : Prop :=
  s.inReset = false ∧ s.env = [] ∧ s.seq.op = some i ∧ ReadsSamples i s.seq.sub

/-- The state after the polls `ds`, none of them ready; `rest` is what the ADC answers next. -/
def State.polled (ds rest : List Byte) (s : State) : State :=
  { s with
    adc := rest, history := (ds.map (Event.busRead s.latched.drdyReg)).reverse ++ s.history
    seq := { s.seq with polls := s.seq.polls + ds.length, phase := .poll } }

/-- The state after the whole sample `r`, which the command `i` has read. -/
def State.sampled (i : Instr) (r : SampleRead) (rest : List Byte) (s : State) : State :=
  { s with
    adc := rest, history := r.events s.latched ++ s.history, sampleRaw := r.raw, sampleVal := extendSample r.raw
    seq := { s.seq with
      polls := s.seq.polls + r.notReady.length + 1, b2 := r.b2, b1 := r.b1
      phase := if i = .readSample then .fin else .store } }

section
variable {i : Instr} {s : State} {b : Byte} {rest : List Byte}

theorem busRead_cons (hadc : s.adc = b :: rest) (reg : Byte) :
    busRead reg s = { s with adc := rest, history := .busRead reg b :: s.history } := by
  simp [busRead_eq, hadc, State.adcAnswer_cons hadc]

theorem step_of_op (hreset : s.inReset = false) (henv : s.env = []) (hop : s.seq.op = some i) :
    step s = exec i s := by
  rw [step_nil henv, coreStep_run hreset hop]

theorem State.reading.step_eq (h : s.reading i) : step s = exec i s := by
  obtain ⟨hreset, henv, hop, -⟩ := h
  exact step_of_op hreset henv hop

theorem State.reading.readsSamples (h : s.reading i) : ReadsSamples i s.seq.sub := by
  obtain ⟨-, -, -, hr⟩ := h
  exact hr

theorem step_pollOnce (h : s.reading i) (hp : s.seq.phase = .poll) (hmore : s.seq.polls ≠ s.latched.p.toNat)
    (hadc : s.adc = b :: rest) :
    step s = .next { s with
      adc := rest, history := .busRead s.latched.drdyReg b :: s.history
      seq := { s.seq with
        polls := s.seq.polls + 1, phase := if sampleReady s.latched b then .readB2 else .poll } } := by
  rw [h.step_eq, exec_pollOnce h.readsSamples hp hmore]
  simp only [pollOnce, busRead_cons hadc, State.adcAnswer_cons hadc]

theorem step_readB2 (h : s.reading i) (hp : s.seq.phase = .readB2) (hadc : s.adc = b :: rest) :
    step s = .next { s with
      adc := rest, history := .busRead s.latched.b2Reg b :: s.history
      seq := { s.seq with b2 := b, phase := .readB1 } } := by
  rw [h.step_eq, exec_readB2 h.readsSamples hp]
  simp only [readB2Step, busRead_cons hadc, State.adcAnswer_cons hadc]

theorem step_readB1 (h : s.reading i) (hp : s.seq.phase = .readB1) (hadc : s.adc = b :: rest) :
    step s = .next { s with
      adc := rest, history := .busRead s.latched.b1Reg b :: s.history
      seq := { s.seq with b1 := b, phase := .readB0 } } := by
  rw [h.step_eq, exec_readB1 h.readsSamples hp]
  simp only [readB1Step, busRead_cons hadc, State.adcAnswer_cons hadc]

theorem step_readB0 (h : s.reading i) (hp : s.seq.phase = .readB0) (hadc : s.adc = b :: rest) :
    step s = .next { s with
      adc := rest, history := .busRead s.latched.b0Reg b :: s.history
      sampleRaw := assembleRaw s.seq.b2 s.seq.b1 b, sampleVal := extendSample (assembleRaw s.seq.b2 s.seq.b1 b)
      seq := { s.seq with phase := if i = .readSample then .fin else .store } } := by
  rw [h.step_eq, exec_readB0 h.readsSamples hp]
  simp only [goto, readB0Step, busRead_cons hadc, State.adcAnswer_cons hadc]

theorem State.polled_nil (hp : s.seq.phase = .poll) : s.polled [] s.adc = s := by
  simp [State.polled, ← hp]

theorem State.polled_polled (ds es rest' : List Byte) :
    (s.polled ds rest').polled es rest = s.polled (ds ++ es) rest := by
  simp [State.polled, Nat.add_assoc]

theorem step_polled (h : s.reading i) (hp : s.seq.phase = .poll) (hb : sampleReady s.latched b = false)
    (hmore : s.seq.polls ≠ s.latched.p.toNat) (hadc : s.adc = b :: rest) : step s = .next (s.polled [b] rest) := by
  rw [step_pollOnce h hp hmore hadc, hb]
  rfl

/-- Polls that read not ready, no more of them than are left (40_sample_reader R110 to R112). -/
theorem runSteps_polled {ds : List Byte} (h : s.reading i) (hp : s.seq.phase = .poll)
    (hds : ∀ d ∈ ds, sampleReady s.latched d = false) (hpolls : s.seq.polls + ds.length ≤ s.latched.p.toNat)
    (hadc : s.adc = ds ++ rest) : runSteps ds.length s = .next (s.polled ds rest) := by
  induction ds generalizing s with
  | nil =>
    rw [List.nil_append] at hadc
    rw [← hadc, State.polled_nil hp]
    rfl
  | cons d ds ih =>
    obtain ⟨hd, hds⟩ := List.forall_mem_cons.mp hds
    rw [List.length_cons] at hpolls ⊢
    rw [runSteps_next (step_polled (rest := ds ++ rest) h hp hd (by omega) hadc)]
    have hleft : s.seq.polls + 1 + ds.length ≤ s.latched.p.toNat := by omega
    rw [ih (s := s.polled [d] (ds ++ rest)) h rfl hds hleft rfl, State.polled_polled, List.singleton_append]

/-- The ready poll and the three data bytes (40_sample_reader R110, R114, R115). -/
theorem runSteps_ready {d b2 b1 b0 : Byte} (h : s.reading i) (hp : s.seq.phase = .poll)
    (hready : sampleReady s.latched d = true) (hmore : s.seq.polls ≠ s.latched.p.toNat)
    (hadc : s.adc = d :: b2 :: b1 :: b0 :: rest) :
    runSteps 4 s = .next (s.sampled i ⟨[], d, b2, b1, b0⟩ rest) := by
  have hpoll := step_pollOnce h hp hmore hadc
  rw [if_pos hready] at hpoll
  refine (runSteps_next hpoll 3).trans ?_
  refine (runSteps_next (step_readB2 (by exact h) rfl rfl) 2).trans ?_
  refine (runSteps_next (step_readB1 (by exact h) rfl rfl) 1).trans ?_
  refine (runSteps_next (step_readB0 (by exact h) rfl rfl) 0).trans ?_
  simp only [State.sampled, SampleRead.raw_eq]
  rfl

theorem State.sampled_polled (r : SampleRead) (rest' : List Byte) :
    (s.polled r.notReady rest').sampled i { r with notReady := [] } rest = s.sampled i r rest := by
  simp [State.sampled, State.polled, SampleRead.events, SampleRead.raw]

/-- A whole sample read: the polls that read not ready, the ready poll and the three data bytes
(40_sample_reader R110). -/
theorem runSteps_sampled {r : SampleRead} (h : s.reading i) (hp : s.seq.phase = .poll) (hpolls : s.seq.polls = 0)
    (hok : r.ok s.latched) (hadc : s.adc = r.bytes ++ rest) :
    runSteps (r.notReady.length + 4) s = .next (s.sampled i r rest) := by
  obtain ⟨hlt, hnotReady, hready⟩ := hok
  rw [SampleRead.bytes, List.append_assoc] at hadc
  rw [runSteps_add (runSteps_polled h hp hnotReady (by omega) hadc)]
  refine (runSteps_ready (s := s.polled r.notReady _) h rfl hready ?_ rfl).trans (congrArg _ (State.sampled_polled r _))
  simp only [State.polled]
  omega

end

theorem exec_readSample_fin {s : State} (hp : s.seq.phase = .fin) : exec .readSample s = .next (complete s) := by
  simp only [exec, execReadSample, hp]

/-- Settles O31: a whole sample, and then the completion. -/
theorem readSampleSucceeds : Obligations.ReadSampleSucceeds := by
  intro s r rest hacc hok hadc
  obtain ⟨hreset, henv, hop, -, -, hpolls, hp⟩ := hacc
  have hsampled := runSteps_sampled (i := .readSample) ⟨hreset, henv, hop, .inl rfl⟩ hp hpolls hok hadc
  have hend : step (s.sampled .readSample r rest) = .next (complete (s.sampled .readSample r rest)) :=
    (step_of_op (s := s.sampled .readSample r rest) hreset henv hop).trans (exec_readSample_fin rfl)
  refine ⟨_, (runSteps_add hsampled 1).trans (runSteps_next hend 0), ?_⟩
  exact ⟨rfl, toInt_extendSample r.raw, rfl, rfl, rfl, rfl, rfl, rfl, ⟨rfl, rfl, rfl, rfl, rfl, rfl⟩, ⟨rfl, rfl, rfl⟩,
    rfl, fun _ => rfl, fun _ => rfl⟩

end Sys2Proof.Machine

namespace Sys2Proof.Machine

/-! # The bias estimator, the subtractor and ACQUIRE: the statements of 41_bias_acquire -/

/-! ## The first writes and the use of a sample

The two steps of the body of ACQUIRE that write BUF or the estimator, alone and in RUN. Where the sequencer goes on is
said apart from what the step writes. -/

section
variable {i : Instr} {s t : State}

theorem exec_init (ha : Acquires i s.seq.sub) (hp : s.seq.phase = .init) :
    exec i s = .next (acquireInit (afterAcquire i) (errOpOf i s.seq.sub) s) := by
  simp only [exec_of_acquires ha (by simp [hp]), acquireBody, hp]

theorem exec_store (ha : Acquires i s.seq.sub) (hp : s.seq.phase = .store) :
    exec i s = .next (acquireStore (afterAcquire i) s) := by
  simp only [exec_of_acquires ha (by simp [hp]), acquireBody, hp]

/-- Once the checks have passed phase INIT makes the first writes, and the sequencer goes to sample 0 or past the body
(41_bias_acquire R137). -/
theorem acquireInit_eq (hn : legalN s.nMax s.latched.n = true) (hle : s.latched.s.toNat ≤ s.latched.n.toNat)
    (op : Byte) :
    ∃ q, acquireInit (afterAcquire i) op s = { acquireClear s with seq := q } ∧
      (1 ≤ s.latched.s.toNat → q = { s.seq with i := 0, polls := 0, phase := .poll }) ∧
      (s.latched.s.toNat = 0 → i = .acquire → q = { s.seq with phase := .fin }) ∧
      (s.latched.s.toNat = 0 → i = .run → q = { s.seq with sub := some .transform, phase := .fft }) := by
  rcases acquireInit_cases (afterAcquire i) op s with ⟨hbad, -⟩ | ⟨-, hlt, -⟩ | ⟨-, -, h0, h⟩ | ⟨-, -, h0, h⟩
  · exact absurd hn (by simp [hbad])
  · omega
  · obtain ⟨q, hq⟩ := afterAcquire_eq i (acquireClear s)
    refine ⟨q, h.trans hq, fun _ => by omega, fun _ hi => ?_, fun _ hi => ?_⟩ <;> subst hi
    · simpa [afterAcquire, goto] using (congrArg State.seq hq).symm
    · simpa [afterAcquire, enterSub] using (congrArg State.seq hq).symm
  · exact ⟨_, h, fun _ => by simp, fun _ => by omega, fun _ => by omega⟩

/-- Phase STORE uses the sample, and the sequencer goes to the next one or past the body (41_bias_acquire R137). -/
theorem acquireStore_eq (i : Instr) (s : State) :
    ∃ q, acquireStore (afterAcquire i) s = { useSample s with seq := q } ∧
      (s.seq.i + 1 ≠ s.latched.s.toNat → q = { s.seq with i := s.seq.i + 1, polls := 0, phase := .poll }) ∧
      (s.seq.i + 1 = s.latched.s.toNat → i = .acquire → q = { s.seq with i := s.seq.i + 1, phase := .fin }) ∧
      (s.seq.i + 1 = s.latched.s.toNat → i = .run →
        q = { s.seq with i := s.seq.i + 1, sub := some .transform, phase := .fft }) := by
  rcases acquireStore_cases (afterAcquire i) s with ⟨hlast, h⟩ | ⟨hmore, h⟩
  · obtain ⟨q, hq⟩ := afterAcquire_eq i { useSample s with seq := { s.seq with i := s.seq.i + 1 } }
    refine ⟨q, h.trans hq, fun hne => absurd hlast hne, fun _ hi => ?_, fun _ hi => ?_⟩ <;> subst hi
    · exact (congrArg State.seq hq).symm
    · exact (congrArg State.seq hq).symm
  · exact ⟨_, h, fun _ => by simp, fun hlast => absurd hlast hmore, fun hlast => absurd hlast hmore⟩

/-! ### What they write -/

theorem acquireClear_buf {k : Nat} (hk : k < s.latched.n.toNat) : (acquireClear s).buf k = ⟨0, 0⟩ := by
  have hzeros := State.buf_setBufs (List.replicate s.latched.n.toNat ⟨F64.posZero, F64.posZero⟩) s 0 k
  rw [List.length_replicate, if_pos (by omega), List.getD_replicate _ (by omega)] at hzeros
  exact hzeros

theorem acquireClear_bytes (s : State) : SameBytesOutside 0x100000 (16 * s.latched.n.toNat) s (acquireClear s) :=
  fun _ hout => of_not_not fun hne => hout (acquireClear_changes hne)

theorem useSample_inside (h : s.seq.i < s.latched.w.toNat) : useSample s = accumulate s := if_pos h

theorem useSample_past (h : s.latched.w.toNat ≤ s.seq.i) : useSample s = storeCentered s := if_neg h.not_gt

theorem storeCentered_bytes (s : State) : SameBytesOutside (0x100000 + 16 * s.seq.i) 16 s (storeCentered s) :=
  fun _ hout => State.byteAt_setBuf_other s _ hout

theorem sameScr_of_scrDraw (h : t.scrDraw = s.scrDraw) : SameScr s t := fun k => by simp only [State.scr, h]

end

/-- Settles O34: the step makes the first writes. -/
theorem acquireStart : Obligations.AcquireStart := by
  intro i s ha hp hn hle
  obtain ⟨q, heq, hsamples, hacquire, hrun⟩ := acquireInit_eq (i := i) hn hle (errOpOf i s.seq.sub)
  refine ⟨_, (exec_init ha hp).trans (congrArg _ heq), fun k hk => acquireClear_buf hk, acquireClear_bytes s,
    acquireClear_acc s, acquireClear_bias s, acquireClear_biasLen s, hsamples, hacquire, hrun, acquireClear_status s,
    acquireClear_errIndex s, ?setup, ?sample, acquireClear_peakCount s, sameScr_of_scrDraw (acquireClear_scrDraw s),
    ?bus⟩
  case setup => simp [SameSetup]
  case sample => simp [SameSample]
  case bus => simp [SameBus]

/-- Settles O35: the step uses the sample, inside the window for the estimator and past it for BUF. -/
theorem acquireUsesSample : Obligations.AcquireUsesSample := by
  intro i s ha hp
  obtain ⟨q, heq, hmore, hacquire, hrun⟩ := acquireStore_eq i s
  refine ⟨_, (exec_store ha hp).trans (congrArg _ heq), fun hin => ?inside, fun hpast => ?past, hmore, hacquire, hrun,
    useSample_biasLen s, useSample_status s, useSample_errIndex s, ?setup, ?sample, useSample_peakCount s,
    sameScr_of_scrDraw (useSample_scrDraw s), ?bus⟩
  case inside =>
    rw [useSample_inside hin]
    exact ⟨rfl, rfl, fun _ => rfl⟩
  case past =>
    rw [useSample_past hpast]
    exact ⟨State.buf_setBuf_same s _ _, storeCentered_bytes s, rfl, rfl⟩
  case setup => simp [SameSetup]
  case sample => simp [SameSample]
  case bus => simp [SameBus]

end Sys2Proof.Machine

namespace Sys2Proof.Machine

/-! ## The arithmetic of the estimator and the subtractor

A quotient that is itself a binary64 value is not changed by rounding, and one of a moderate denominator never rounds to
-0.0 (41_bias_acquire R134, R136). -/

/-! ### Exact values -/

/-- An integer of at most 53 bits, times a power of two, is the scaled magnitude of a finite pattern. -/
theorem exists_patternValue_eq {a e : Nat} (ha : a < 2 ^ 53) (hlo : 52 ≤ e) (hhi : e ≤ 2045) :
    ∃ p, p < 2047 * 2 ^ 52 ∧ patternValue p = a * 2 ^ e := by
  rcases eq_or_ne a 0 with rfl | ha0
  · exact ⟨0, by decide, by simp⟩
  have hlog : a.log2 < 53 := (Nat.log2_lt ha0).mpr ha
  have hnorm : 2 ^ 52 ≤ a * 2 ^ (52 - a.log2) ∧ a * 2 ^ (52 - a.log2) < 2 ^ 53 := by
    obtain ⟨hge, hlt⟩ := (Nat.log2_eq_iff ha0).mp rfl
    constructor
    · calc 2 ^ 52 = 2 ^ a.log2 * 2 ^ (52 - a.log2) := by rw [← pow_add]; congr 1; omega
        _ ≤ a * 2 ^ (52 - a.log2) := Nat.mul_le_mul_right _ hge
    · calc a * 2 ^ (52 - a.log2) < 2 ^ (a.log2 + 1) * 2 ^ (52 - a.log2) :=
            Nat.mul_lt_mul_of_pos_right hlt (Nat.two_pow_pos _)
        _ = 2 ^ 53 := by rw [← pow_add]; congr 1; omega
  refine ⟨(e - (52 - a.log2)) * 2 ^ 52 + a * 2 ^ (52 - a.log2), by omega, ?_⟩
  rw [patternValue_significand hnorm.2.le (.inr hnorm.1), mul_assoc, ← pow_add]
  congr 2
  omega

theorem exists_scaled_eq {m : Int} {e : Nat} (hm : m.natAbs < 2 ^ 53) (hlo : 52 ≤ e) (hhi : e ≤ 2045) :
    ∃ y, F64.isFinite y = true ∧ F64.scaled y = m * 2 ^ e := by
  obtain ⟨p, hp, hval⟩ := exists_patternValue_eq hm hlo hhi
  have hp63 : p < 2 ^ 63 := hp.trans (by decide)
  refine ⟨F64.ofSignMag (decide (m < 0)) p, by rwa [F64.isFinite_iff, F64.pattern_ofSignMag _ hp63], ?_⟩
  have hsign := eq_ofSign_natAbs m
  rw [F64.scaled_eq, F64.neg_ofSignMag _ hp63, F64.pattern_ofSignMag _ hp63, hval]
  conv => rhs; rw [hsign]
  split <;> push_cast <;> ring

/-- A value other than zero has one pattern. -/
theorem F64.eq_of_scaled_eq {x y : F64} (h : F64.scaled x = F64.scaled y) (h0 : F64.scaled y ≠ 0) : x = y := by
  have hmag : F64.magScaled x = F64.magScaled y := by rw [← F64.natAbs_scaled, h, F64.natAbs_scaled]
  refine F64.eq_of_neg_of_pattern ?_ (patternValue_strictMono.injective ?_)
  · simp only [F64.scaled, hmag] at h h0
    cases hx : F64.neg x <;> cases hy : F64.neg y <;> simp only [hx, hy] at h h0 ⊢ <;> simp at h h0 <;> omega
  · rwa [F64.magScaled_eq, F64.magScaled_eq] at hmag

/-- A value nearest to a quotient that is a binary64 value has that value. -/
theorem IsNearest.scaled_eq {num : Int} {den : Nat} {x y : F64} (h : IsNearest num den x) (hden : den ≠ 0)
    (hy : F64.isFinite y = true) (hval : F64.scaled y * den = num * f64Unit) : F64.scaled x = F64.scaled y := by
  obtain ⟨-, hnear⟩ := h
  obtain ⟨hle, -⟩ := hnear y hy
  rw [← hval, sub_self, Int.natAbs_zero, Nat.le_zero, Int.natAbs_eq_zero, sub_eq_zero] at hle
  exact (mul_right_cancel₀ (by exact_mod_cast hden) hle).symm

theorem not_overflows_of_le {num : Int} {den : Nat} (hden : den ≠ 0) (h : num.natAbs ≤ 2 ^ 25 * den) :
    ¬ Overflows num den := fun hover =>
  absurd (Nat.le_of_mul_le_mul_right (hover.trans h) (Nat.pos_of_ne_zero hden)) (by decide +kernel)

/-- Rounding a quotient that is a binary64 value is exact. -/
theorem rneFrac_exact {num : Int} {den : Nat} {y : F64} (hden : den ≠ 0) (hno : num.natAbs ≤ 2 ^ 25 * den)
    (hy : F64.isFinite y = true) (hval : F64.scaled y * den = num * f64Unit) :
    F64.isFinite (rneFrac num den) = true ∧ F64.scaled (rneFrac num den) = F64.scaled y := by
  have hnear := isNearest_rneFrac hden (not_overflows_of_le hden hno)
  exact ⟨hnear.left, hnear.scaled_eq hden hy hval⟩

/-! ### No negative zero -/

theorem F64.neg_rneFrac (num : Int) {den : Nat} (hden : den ≠ 0) : F64.neg (rneFrac num den) = decide (num < 0) :=
  F64.neg_ofSignMag _ (roundsTo_rneMag num.natAbs hden).lt_two_pow

/-- A negative quotient of a moderate denominator is nearer to the negative value closest to zero than to zero. -/
theorem rneFrac_ne_negZero {num : Int} {den : Nat} (hden : den ≠ 0) (hsmall : den < f64Unit)
    (hno : num.natAbs ≤ 2 ^ 25 * den) : rneFrac num den ≠ 0x8000000000000000 := by
  intro h
  have hneg : num < 0 := by
    have hsign := F64.neg_rneFrac num hden
    rw [h] at hsign
    exact of_decide_eq_true (hsign.symm.trans (by decide))
  obtain ⟨-, hnear⟩ := isNearest_rneFrac hden (not_overflows_of_le hden hno)
  obtain ⟨hle, -⟩ := hnear 0x8000000000000001 (by decide)
  rw [h, show F64.scaled 0x8000000000000000 = 0 by decide, show F64.scaled 0x8000000000000001 = -1 by decide] at hle
  have hfar : num * f64Unit ≤ -1 * f64Unit := Int.mul_le_mul_of_nonneg_right (by omega) (Int.natCast_nonneg _)
  omega

/-! ### The laws -/

theorem f64Unit_natCast : (f64Unit : Int) = 2 ^ 1074 := by
  rw [f64Unit, Nat.cast_pow, Nat.cast_ofNat]

theorem two_pow_lt_f64Unit {k : Nat} (h : k < 1074) : 2 ^ k < f64Unit := by
  rw [f64Unit]
  exact pow_lt_pow_right₀ one_lt_two h

theorem centerSample_eq {w : Nat} (hw : 1 ≤ w) (v a : Int) :
    centerSample v a w = rneFrac (2 * v * w - 2 * a + w) (2 * w) := if_neg (by omega)

/-- A sample and a mean of samples are less than 2^24 apart (41_bias_acquire R136). -/
theorem natAbs_centered_le {v a : Int} {w : Nat} (hv : v.natAbs ≤ 2 ^ 23) (ha : a.natAbs ≤ w * 2 ^ 23) :
    (2 * v * w - 2 * a + w).natAbs ≤ 2 ^ 25 * (2 * w) := by
  have hvw : (v * w).natAbs ≤ 2 ^ 23 * w := by
    rw [Int.natAbs_mul, Int.natAbs_natCast]
    exact Nat.mul_le_mul_right w hv
  rw [mul_assoc]
  omega

/-- The mean of a constant stream is the constant (41_bias_acquire R136). -/
theorem rneFrac_constant {c : Int} {w : Nat} (hc : c.natAbs ≤ 2 ^ 23) (hw : 1 ≤ w) :
    F64.isFinite (rneFrac (c * w) w) = true ∧ F64.scaled (rneFrac (c * w) w) = c * f64Unit := by
  obtain ⟨y, hy, hval⟩ := exists_scaled_eq (m := c) (e := 1074) (by omega) (by decide) (by decide)
  have hunit : F64.scaled y = c * f64Unit := by rw [hval, f64Unit_natCast]
  rw [← hunit]
  refine rneFrac_exact (by omega) ?_ hy (by rw [hunit, mul_right_comm])
  rw [Int.natAbs_mul, Int.natAbs_natCast]
  exact Nat.mul_le_mul_right w (by omega)

theorem scaled_half : F64.isFinite 0x3FE0000000000000 = true ∧ F64.scaled 0x3FE0000000000000 * 2 = f64Unit := by
  decide +kernel

/-- A sample of a constant stream is stored as 1/2 (41_bias_acquire R136). -/
theorem centerSample_constant (c : Int) {w : Nat} (hw : 1 ≤ w) :
    centerSample c (c * w) w = 0x3FE0000000000000 := by
  obtain ⟨hfin, hhalf⟩ := scaled_half
  have hnum : 2 * c * w - 2 * (c * w) + w = (w : Int) := by ring
  rw [centerSample_eq hw, hnum]
  refine F64.eq_of_scaled_eq (rneFrac_exact (by omega) (by omega) hfin ?_).2 fun h0 => ?_
  · rw [← hhalf]
    push_cast
    ring
  · rw [h0, zero_mul] at hhalf
    exact f64Unit_ne_zero (by exact_mod_cast hhalf.symm)

/-- Without a window a sample is stored with 1/2 added (41_bias_acquire R136). -/
theorem centerSample_noWindow {v : Int} (a : Int) (hv : v.natAbs ≤ 2 ^ 23) :
    F64.isFinite (centerSample v a 0) = true ∧ 2 * F64.scaled (centerSample v a 0) = (2 * v + 1) * f64Unit := by
  obtain ⟨y, hy, hval⟩ := exists_scaled_eq (m := 2 * v + 1) (e := 1073) (by omega) (by decide) (by decide)
  have hunit : F64.scaled y * 2 = (2 * v + 1) * f64Unit := by rw [hval, f64Unit_natCast, mul_assoc, ← pow_succ]
  obtain ⟨hfin, hexact⟩ := rneFrac_exact (num := 2 * v + 1) (den := 2) (by decide) (by omega) hy hunit
  exact ⟨hfin, by rw [mul_comm, ← hunit, ← hexact]; rfl⟩

/-- Settles O36: the rounded quotients are moderate, and exact in the last two laws. -/
theorem centeringLaws : Obligations.CenteringLaws := by
  refine ⟨fun v a w hv ha hw hlt => ?_, fun c w hc hw _ => ?_, fun v a => centerSample_noWindow a⟩
  · have hle := natAbs_centered_le hv ha
    have hden : 2 * w ≠ 0 := by omega
    rw [centerSample_eq hw]
    exact ⟨isNearest_rneFrac hden (not_overflows_of_le hden hle),
      rneFrac_ne_negZero hden ((show 2 * w < 2 ^ 65 by omega).trans (two_pow_lt_f64Unit (by decide))) hle⟩
  · obtain ⟨hfin, hexact⟩ := rneFrac_constant hc hw
    exact ⟨hfin, hexact, centerSample_constant c hw⟩

end Sys2Proof.Machine

namespace Sys2Proof.Machine

/-! ## A whole acquisition

What the samples read so far have left, as an invariant over the list of samples: the first writes establish it for no
sample, and each sample read and used extends it by one. -/

/-! ### The state after a sample read -/

section
variable (i : Instr) (r : SampleRead) (rest : List Byte) (s : State)

@[simp] theorem State.sampled_par : (s.sampled i r rest).par = s.par := by rw [State.sampled]
@[simp] theorem State.sampled_doneIe : (s.sampled i r rest).doneIe = s.doneIe := by rw [State.sampled]
@[simp] theorem State.sampled_status : (s.sampled i r rest).status = s.status := by rw [State.sampled]
@[simp] theorem State.sampled_errIndex : (s.sampled i r rest).errIndex = s.errIndex := by rw [State.sampled]
@[simp] theorem State.sampled_bias : (s.sampled i r rest).bias = s.bias := by rw [State.sampled]
@[simp] theorem State.sampled_acc : (s.sampled i r rest).acc = s.acc := by rw [State.sampled]
@[simp] theorem State.sampled_biasLen : (s.sampled i r rest).biasLen = s.biasLen := by rw [State.sampled]
@[simp] theorem State.sampled_peakCount : (s.sampled i r rest).peakCount = s.peakCount := by rw [State.sampled]
@[simp] theorem State.sampled_nMax : (s.sampled i r rest).nMax = s.nMax := by rw [State.sampled]
@[simp] theorem State.sampled_mem : (s.sampled i r rest).mem = s.mem := by rw [State.sampled]
@[simp] theorem State.sampled_memEpoch : (s.sampled i r rest).memEpoch = s.memEpoch := by rw [State.sampled]
@[simp] theorem State.sampled_scrDraw : (s.sampled i r rest).scrDraw = s.scrDraw := by rw [State.sampled]
@[simp] theorem State.sampled_latched : (s.sampled i r rest).latched = s.latched := by rw [State.sampled]
@[simp] theorem State.sampled_inReset : (s.sampled i r rest).inReset = s.inReset := by rw [State.sampled]
@[simp] theorem State.sampled_env : (s.sampled i r rest).env = s.env := by rw [State.sampled]
@[simp] theorem State.sampled_adc : (s.sampled i r rest).adc = rest := by rw [State.sampled]
@[simp] theorem State.sampled_sampleRaw : (s.sampled i r rest).sampleRaw = r.raw := by rw [State.sampled]
@[simp] theorem State.sampled_sampleVal : (s.sampled i r rest).sampleVal = extendSample r.raw := by rw [State.sampled]
@[simp] theorem State.sampled_history :
    (s.sampled i r rest).history = r.events s.latched ++ s.history := by rw [State.sampled]
@[simp] theorem State.sampled_seq : (s.sampled i r rest).seq = { s.seq with
    polls := s.seq.polls + r.notReady.length + 1, b2 := r.b2, b1 := r.b1
    phase := if i = .readSample then .fin else .store } := by rw [State.sampled]

variable {i s}

theorem State.reading.sampled (h : s.reading i) : (s.sampled i r rest).reading i := by
  simpa [State.reading] using h

end

theorem State.reading.polled {i : Instr} {s : State} {ds rest : List Byte} (h : s.reading i) :
    (s.polled ds rest).reading i := by
  obtain ⟨hreset, henv, hop, hreads⟩ := h
  exact ⟨hreset, henv, hop, hreads⟩

/-! ### The invariant -/

/-- What the use of the samples `rs` has written since ACQUIRE started in `s`: the estimator's registers and BUF
(41_bias_acquire R131 to R135). -/
structure SamplesUsed (s : State) (rs : List SampleRead) (t : State) : Prop where
  acc : t.acc.toInt = ((rs.take s.latched.w.toNat).map SampleRead.value).sum
  bias : t.bias = if s.latched.w = 0 ∨ rs = [] then 0 else rneFrac t.acc.toInt s.latched.w.toNat
  centered : ∀ k r, rs[k]? = some r → s.latched.w.toNat ≤ k →
    t.buf k = ⟨centerSample r.value t.acc.toInt s.latched.w.toNat, 0⟩
  zeros : ∀ k, k < s.latched.n.toNat → k < s.latched.w.toNat ∨ rs.length ≤ k → t.buf k = ⟨0, 0⟩
  bytes : SameBytesOutside 0x100000 (16 * s.latched.n.toNat) s t

/-- What ACQUIRE, started in `s`, has left in `t` after the samples `rs` (41_bias_acquire R137). Nothing is said of the
sequencer and of the ADC's answers to come. -/
structure Acquired (s : State) (rs : List SampleRead) (t : State) : Prop where
  used : SamplesUsed s rs t
  biasLen : t.biasLen = s.latched.w
  sample : ∀ r, rs.getLast? = some r → t.sampleRaw = r.raw ∧ t.sampleVal.toInt = r.value
  noSample : rs = [] → SameSample s t
  history : t.history = rs.reverse.flatMap (SampleRead.events s.latched) ++ s.history
  status : t.status = s.status
  errIndex : t.errIndex = s.errIndex
  setup : SameSetup s t
  peakCount : t.peakCount = s.peakCount
  scr : SameScr s t

section
variable {s t : State} {r : SampleRead} {rs : List SampleRead} {rest : List Byte}

theorem SamplesUsed.congr {u : State} (h : SamplesUsed s rs t) (hacc : u.acc = t.acc) (hbias : u.bias = t.bias)
    (hmem : u.mem = t.mem) (hepoch : u.memEpoch = t.memEpoch) : SamplesUsed s rs u := by
  have hbytes : SameBytes t u := sameBytes_of_mem hepoch hmem
  have hbuf (k : Nat) : u.buf k = t.buf k := State.buf_congr fun a _ _ => hbytes a
  refine ⟨hacc ▸ h.acc, ?_, fun k r hr hk => ?_, fun k hk hout => (hbuf k).trans (h.zeros k hk hout),
    fun a ha => (hbytes a).trans (h.bytes a ha)⟩
  · rw [hbias, hacc, h.bias]
  · rw [hbuf, hacc, h.centered k r hr hk]

/-- The sequencer is free. -/
theorem Acquired.reposition (h : Acquired s rs t) (q : Seq) : Acquired s rs { t with seq := q } :=
  { h with used := h.used.congr rfl rfl rfl rfl }

theorem Acquired.latched (h : Acquired s rs t) : t.latched = s.latched := by
  obtain ⟨-, -, -, hlatched, -⟩ := h.setup
  exact hlatched

/-! ### The accumulator (41_bias_acquire R131) -/

theorem SampleRead.natAbs_value_le (r : SampleRead) : r.value.natAbs ≤ 2 ^ 23 := by
  rw [SampleRead.value, ← toInt_extendSample]
  exact natAbs_extendSample_le r.raw

theorem SampleRead.natAbs_sum_le (rs : List SampleRead) :
    (rs.map SampleRead.value).sum.natAbs ≤ rs.length * 2 ^ 23 := by
  induction rs with
  | nil => simp
  | cons r rs ih =>
    have hr := r.natAbs_value_le
    rw [List.map_cons, List.sum_cons, List.length_cons]
    omega

/-- Below the bound one more sample is added exactly. -/
theorem toInt_acc_add {acc : DWord} {v : Word} (hacc : acc.toInt.natAbs ≤ 2 ^ 39) (hv : v.toInt.natAbs ≤ 2 ^ 23) :
    (acc + v.signExtend 64).toInt = acc.toInt + v.toInt := by
  rw [BitVec.toInt_add, BitVec.toInt_signExtend_of_le (by decide), Int.bmod_eq_of_le (by omega) (by omega)]

/-! ### One sample more -/

theorem getElem?_concat_cases {k : Nat} {r' : SampleRead} (h : (rs ++ [r])[k]? = some r') :
    (k < rs.length ∧ rs[k]? = some r') ∨ (k = rs.length ∧ r' = r) := by
  rcases Nat.lt_or_ge k rs.length with hlt | hge
  · exact .inl ⟨hlt, by rwa [List.getElem?_append_left hlt] at h⟩
  · rw [List.getElem?_append_right hge, List.getElem?_singleton, Option.ite_none_right_eq_some, Option.some_inj] at h
    obtain ⟨hzero, heq⟩ := h
    exact .inr ⟨by omega, heq.symm⟩

/-- A sample inside the bias window extends the sum, and no sample is stored yet. -/
theorem SamplesUsed.accumulate (h : SamplesUsed s rs t) (hlatched : t.latched = s.latched)
    (hin : rs.length < s.latched.w.toNat) (hmax : rs.length ≤ 2 ^ 16) (hv : t.sampleVal.toInt = r.value) :
    SamplesUsed s (rs ++ [r]) (accumulate t) := by
  have hsum : (Machine.accumulate t).acc.toInt = ((rs ++ [r]).map SampleRead.value).sum := by
    have hacc := h.acc
    rw [List.take_of_length_le hin.le] at hacc
    have hbound : t.acc.toInt.natAbs ≤ 2 ^ 39 :=
      hacc ▸ (SampleRead.natAbs_sum_le rs).trans (Nat.mul_le_mul_right (2 ^ 23) hmax)
    rw [accumulate_acc, toInt_acc_add hbound (hv ▸ r.natAbs_value_le), hacc, hv, List.map_append,
      List.sum_append, List.map_singleton, List.sum_singleton]
  have hw : s.latched.w ≠ 0 := fun h0 => by simp [h0] at hin
  refine ⟨?acc, ?bias, fun k r' hr' hk => ?centered, fun k hk hout => h.zeros k hk ?zeros, h.bytes⟩
  case acc => rw [List.take_of_length_le (by simpa using hin), hsum]
  case bias =>
    rw [if_neg (by simpa using hw), ← hlatched]
    rfl
  case centered => rcases getElem?_concat_cases hr' with ⟨hlt, -⟩ | ⟨heq, -⟩ <;> omega
  case zeros =>
    simp only [List.length_append, List.length_singleton] at hout
    omega

/-- A sample past the bias window is stored in its own entry of BUF, and the estimator's registers are final. -/
theorem SamplesUsed.storeCentered (h : SamplesUsed s rs t) (hlatched : t.latched = s.latched)
    (hpast : s.latched.w.toNat ≤ rs.length) (hi : t.seq.i = rs.length) (hn : rs.length < s.latched.n.toNat)
    (hv : t.sampleVal.toInt = r.value) : SamplesUsed s (rs ++ [r]) (storeCentered t) := by
  have hother {k : Nat} (hk : k ≠ rs.length) : (Machine.storeCentered t).buf k = t.buf k :=
    State.buf_setBuf_other t _ (by rwa [hi])
  refine ⟨?acc, ?bias, fun k r' hr' hk => ?centered, fun k hk hout => ?zeros, fun a ha => ?bytes⟩
  case acc => rw [List.take_append_of_le_length hpast, storeCentered_acc, h.acc]
  case bias =>
    have hempty : s.latched.w = 0 ∨ rs = [] ↔ s.latched.w = 0 :=
      or_iff_left_of_imp fun h0 => BitVec.eq_of_toNat_eq (by simpa [h0] using hpast)
    simp only [storeCentered_bias, storeCentered_acc, h.bias, hempty]
    simp
  case centered =>
    rcases getElem?_concat_cases hr' with ⟨hlt, hold⟩ | ⟨rfl, rfl⟩
    · rw [hother hlt.ne, h.centered k r' hold hk, storeCentered_acc]
    · rw [← hi, ← hv, ← hlatched]
      exact State.buf_setBuf_same t _ _
  case zeros =>
    simp only [List.length_append, List.length_singleton] at hout
    rw [hother (by omega), h.zeros k hk (by omega)]
  case bytes =>
    rw [storeCentered_bytes t a (by omega), h.bytes a ha]

/-- A sample that is read and used extends the invariant (41_bias_acquire R137). -/
theorem Acquired.useSample (h : Acquired s rs t) (hi : t.seq.i = rs.length) (hn : rs.length < s.latched.n.toNat)
    (hmax : s.latched.n.toNat ≤ 2 ^ 16) :
    Acquired s (rs ++ [r]) (useSample (t.sampled .acquire r rest)) where
  used := by
    have hread : SamplesUsed s rs (t.sampled .acquire r rest) := h.used.congr (by simp) (by simp) (by simp) (by simp)
    have hlatched : (t.sampled .acquire r rest).latched = s.latched := by simp [h.latched]
    have hindex : (t.sampled .acquire r rest).seq.i = rs.length := by simp [hi]
    have hv : (t.sampled .acquire r rest).sampleVal.toInt = r.value := by simp [SampleRead.value]
    rcases useSample_cases (t.sampled .acquire r rest) with ⟨hin, hu⟩ | ⟨hpast, hu⟩ <;> rw [hu]
    · rw [hindex, hlatched] at hin
      exact hread.accumulate hlatched hin (by omega) hv
    · rw [hindex, hlatched] at hpast
      exact hread.storeCentered hlatched hpast hindex hn hv
  biasLen := by simp [h.biasLen]
  sample := by simp [SampleRead.value]
  noSample hnil := absurd hnil (by simp)
  history := by simp [h.history, h.latched]
  status := by simp [h.status]
  errIndex := by simp [h.errIndex]
  setup := by simpa [SameSetup] using h.setup
  peakCount := by simp [h.peakCount]
  scr k := by simpa [State.scr] using h.scr k

/-- The first writes leave what no sample does. -/
theorem acquired_acquireClear (s : State) : Acquired s [] (acquireClear s) where
  used :=
    { acc := by simp
      bias := by simp [F64.posZero]
      centered := by simp
      zeros := fun _ hk _ => acquireClear_buf hk
      bytes := acquireClear_bytes s }
  biasLen := acquireClear_biasLen s
  sample := by simp
  noSample _ := by simp [SameSample]
  history := acquireClear_history s
  status := acquireClear_status s
  errIndex := acquireClear_errIndex s
  setup := by simp [SameSetup]
  peakCount := acquireClear_peakCount s
  scr := sameScr_of_scrDraw (acquireClear_scrDraw s)

/-! ### The run -/

/-- ACQUIRE has just been accepted with parameters that pass its checks. -/
structure AcquireAccepted (s : State) : Prop where
  accepted : JustAccepted .acquire s
  capacity : legalCapacity s.nMax = true
  size : legalN s.nMax s.latched.n = true
  count : s.latched.s.toNat ≤ s.latched.n.toNat

theorem AcquireAccepted.latched_n_le (h : AcquireAccepted s) : s.latched.n.toNat ≤ 2 ^ 16 :=
  (legalN_bounds h.size).2.trans (legalCapacity_bounds h.capacity).2

/-- How many core steps the samples take: each its polls, its three data bytes and its use (log 20). -/
def sampleSteps (rs : List SampleRead) : Nat := (rs.map fun r => r.notReady.length + 5).sum

theorem sampleSteps_concat (rs : List SampleRead) (r : SampleRead) :
    sampleSteps (rs ++ [r]) = sampleSteps rs + (r.notReady.length + 5) := by
  simp [sampleSteps]

/-- The sequencer after `k` of the `n` samples of ACQUIRE: about to poll for the next one, or past the body. -/
def AcquirePosition (k n : Nat) (q : Seq) : Prop :=
  q.op = some .acquire ∧ q.i = k ∧ q.phase = (if k = n then .fin else .poll) ∧ (k ≠ n → q.polls = 0)

theorem acquirePosition_of_next {k n : Nat} {p q : Seq} (hop : p.op = some .acquire)
    (hmore : k ≠ n → q = { p with i := k, polls := 0, phase := .poll })
    (hlast : k = n → q = { p with i := k, phase := .fin }) : AcquirePosition k n q := by
  rcases eq_or_ne k n with heq | hne
  · rw [hlast heq]
    exact ⟨hop, rfl, (if_pos heq).symm, fun hne => absurd heq hne⟩
  · rw [hmore hne]
    exact ⟨hop, rfl, (if_neg hne).symm, fun _ => rfl⟩

/-- ACQUIRE, started in `s`, has come to `t` after the samples `rs`; `rest` is what the ADC answers next. -/
structure AcquireReaches (s : State) (rs : List SampleRead) (rest : List Byte) (t : State) : Prop where
  left : Acquired s rs t
  adc : t.adc = rest
  position : AcquirePosition rs.length s.latched.s.toNat t.seq

theorem AcquireReaches.reading (h : AcquireReaches s rs rest t) (ha : AcquireAccepted s) : t.reading .acquire := by
  obtain ⟨hreset, henv, -⟩ := ha.accepted
  obtain ⟨-, -, -, -, hreset', henv'⟩ := h.left.setup
  obtain ⟨hop, -⟩ := h.position
  exact ⟨hreset'.trans hreset, henv'.trans henv, hop, .inr (.inl rfl)⟩

/-- The step of the checks and the first writes. -/
theorem AcquireAccepted.start (ha : AcquireAccepted s) :
    ∃ t, step s = .next t ∧ AcquireReaches s [] s.adc t := by
  obtain ⟨hreset, henv, hop, -, hi, -, hp⟩ := ha.accepted
  obtain ⟨q, heq, hmore, hnone, -⟩ := acquireInit_eq (i := .acquire) ha.size ha.count (errOpOf .acquire s.seq.sub)
  refine ⟨_, (step_of_op hreset henv hop).trans ((exec_init (.inl rfl) hp).trans (congrArg _ heq)),
    (acquired_acquireClear s).reposition q, acquireClear_adc s, acquirePosition_of_next (p := s.seq) hop ?_ ?_⟩
  · exact fun hne => hmore (Nat.pos_of_ne_zero hne.symm)
  · exact fun h0 => (hnone h0.symm rfl).trans (by simp [hi])

/-- The reads of one more sample, and the step that uses it. -/
theorem AcquireReaches.sample (h : AcquireReaches s rs (r.bytes ++ rest) t) (ha : AcquireAccepted s)
    (hmore : rs.length < s.latched.s.toNat) (hok : r.ok s.latched) :
    ∃ u, runSteps (r.notReady.length + 5) t = .next u ∧ AcquireReaches s (rs ++ [r]) rest u := by
  obtain ⟨hop, hi, hp, hpolls⟩ := h.position
  have hread := h.reading ha
  have hlatched := h.left.latched
  rw [if_neg hmore.ne] at hp
  have hsampled := runSteps_sampled hread hp (hpolls hmore.ne) (hlatched ▸ hok) h.adc
  obtain ⟨q, heq, hnext, hlast, -⟩ := acquireStore_eq .acquire (t.sampled .acquire r rest)
  have hstore : step (t.sampled .acquire r rest) = .next { useSample (t.sampled .acquire r rest) with seq := q } :=
    (hread.sampled r rest).step_eq.trans ((exec_store (.inl rfl) rfl).trans (congrArg _ heq))
  have hleft := h.left.useSample (r := r) (rest := rest) hi (hmore.trans_le ha.count) ha.latched_n_le
  refine ⟨_, (runSteps_add hsampled 1).trans (runSteps_next hstore 0), hleft.reposition q, by simp, ?_⟩
  rw [List.length_append, List.length_singleton, ← hi, ← hlatched]
  exact acquirePosition_of_next (p := (t.sampled .acquire r rest).seq) hop hnext fun heq => hlast heq rfl

/-- ACQUIRE from its acceptance over the samples `rs` (41_bias_acquire R137). -/
theorem AcquireAccepted.runSteps_samples (ha : AcquireAccepted s) (hle : rs.length ≤ s.latched.s.toNat)
    (hok : ∀ r ∈ rs, r.ok s.latched) (hadc : s.adc = rs.flatMap SampleRead.bytes ++ rest) :
    ∃ t, runSteps (1 + sampleSteps rs) s = .next t ∧ AcquireReaches s rs rest t := by
  induction rs using List.reverseRecOn generalizing rest with
  | nil =>
    obtain ⟨t, hstep, ht⟩ := ha.start
    rw [List.flatMap_nil, List.nil_append] at hadc
    exact ⟨t, runSteps_next hstep 0, hadc ▸ ht⟩
  | append_singleton rs r ih =>
    rw [List.length_append, List.length_singleton] at hle
    simp only [List.flatMap_append, List.flatMap_singleton, List.append_assoc] at hadc
    obtain ⟨t, hrun, ht⟩ := ih (by omega) (fun r' hr' => hok r' (List.mem_append_left _ hr')) hadc
    obtain ⟨u, hsample, hu⟩ := ht.sample ha hle (hok r (by simp))
    exact ⟨u, by rw [sampleSteps_concat, ← Nat.add_assoc, runSteps_add hrun, hsample], hu⟩

end

/-- Settles O37: all the samples, and then the completion. -/
theorem acquireWhole : Obligations.AcquireWhole := by
  intro s rs rest hacc hcap hn hlen hle hok hadc
  have ha : AcquireAccepted s := ⟨hacc, hcap, hn, hlen.trans_le hle⟩
  obtain ⟨t, hrun, ht⟩ := ha.runSteps_samples hlen.ge hok hadc
  obtain ⟨-, -, hp, -⟩ := ht.position
  rw [if_pos hlen.symm] at hp
  have hend : step t = .next (complete t) := (ht.reading ha).step_eq.trans (if_pos hp)
  have hleft := ht.left
  have hused := hleft.used
  refine ⟨complete t, (runSteps_add hrun 1).trans (runSteps_next hend 0), ?_⟩
  exact ⟨hused.acc, hused.bias, hleft.biasLen, hused.centered, hused.zeros, hused.bytes, hleft.sample, hleft.noSample,
    hleft.history, ht.adc, congrArg Status.complete hleft.status, rfl, rfl, hleft.errIndex, hleft.setup,
    hleft.peakCount, hleft.scr⟩

/-- Settles O38: the samples read so far, the polls that read not ready, and then the error entry. -/
theorem acquireTimesOut : Obligations.AcquireTimesOut := by
  intro s rs polls rest hacc hcap hn hlt hle hok hlen hnotReady hadc
  have ha : AcquireAccepted s := ⟨hacc, hcap, hn, hle⟩
  obtain ⟨t, hrun, ht⟩ := ha.runSteps_samples hlt.le hok (by rwa [List.append_assoc] at hadc)
  obtain ⟨-, hi, hp, hpolls⟩ := ht.position
  rw [if_neg hlt.ne] at hp
  have hread := ht.reading ha
  have hleft := ht.left
  have hused := hleft.used
  have hlatched := hleft.latched
  have hpolled := runSteps_polled hread hp (by rwa [hlatched]) (by rw [hpolls hlt.ne, hlatched]; omega) ht.adc
  have hspent : (t.polled polls rest).seq.polls = (t.polled polls rest).latched.p.toNat := by
    simp [State.polled, hpolls hlt.ne, hlatched, hlen]
  have hend : step (t.polled polls rest) = .next (raiseErr .sampleTimeout t.seq.i 0x02 (t.polled polls rest)) :=
    hread.polled.step_eq.trans ((exec_poll (.inr (.inl rfl)) rfl).trans (congrArg _ (pollStep_spent hspent)))
  refine ⟨_, ((runSteps_add ((runSteps_add hrun _).trans hpolled)) 1).trans (runSteps_next hend 0), ?_⟩
  refine ⟨?status, ?index, rfl, hused.acc, hused.bias, hleft.biasLen, hused.centered, hused.zeros, hused.bytes,
    hleft.sample, hleft.noSample, ?history, rfl, hleft.setup, hleft.peakCount, hleft.scr⟩
  case status =>
    rw [← hleft.status]
    rfl
  case index =>
    have hmax := ha.latched_n_le
    rw [raiseErr_errIndex, if_pos rfl, BitVec.toNat_ofNat, hi, Nat.mod_eq_of_lt (by omega)]
  case history =>
    rw [List.append_assoc, ← hleft.history, ← hlatched]
    rfl

end Sys2Proof.Machine

namespace Sys2Proof.Machine

/-! # TRANSFORM and its recursion: the statements of 42_fft -/

/-! ## The step of TRANSFORM -/

section
variable {i : Instr} {s : State}

theorem exec_transform (ht : Transforms i s.seq.sub) (hp : s.seq.phase = .fft) :
    exec i s = .next (transformBody (afterTransform i) (errOpOf i s.seq.sub) s) := by
  rcases ht with rfl | ⟨rfl, hsub⟩
  · simp only [exec, execTransform, hp]
    rfl
  · simp only [exec, execRun, runBody, hsub, hp, reduceCtorEq, if_false, if_true]
    rfl

theorem transformBody_of_legalN (hn : legalN s.nMax s.latched.n = true) (leave : State → State) (op : Byte) :
    transformBody leave op s = leave (transformBuf s.latched.n.toNat s) := by
  rcases transformBody_cases leave op s with ⟨hbad, -⟩ | ⟨-, h⟩
  · exact absurd hn (by simp [hbad])
  · exact h

theorem transformBuf_buf {n k : Nat} (hk : k < n) (d : Cplx) :
    (transformBuf n s).buf k = (fftOfBuf s n).getD k d := by
  have hlen : k < (fftOfBuf s n).length := by rwa [fftOfBuf_length]
  have hread := State.buf_setBufs (fftOfBuf s n) s 0 k
  rw [if_pos (by omega), Nat.sub_zero, List.getD_eq_getElem _ _ hlen] at hread
  rw [List.getD_eq_getElem _ _ hlen]
  exact hread

theorem transformBuf_bytes (n : Nat) (s : State) : SameBytesOutside 0x100000 (16 * n) s (transformBuf n s) :=
  fun _ hout => of_not_not fun hne => hout (transformBuf_changes hne)

end

/-- Settles O39: the step stores the recursion's result, and the sequencer goes past the body. -/
theorem transformWritesSpectrum : Obligations.TransformWritesSpectrum := by
  intro i s ht hp hn
  obtain ⟨q, hq⟩ := afterTransform_eq i (transformBuf s.latched.n.toNat s)
  have hexec := (exec_transform ht hp).trans (congrArg _ ((transformBody_of_legalN hn _ _).trans hq))
  refine ⟨_, hexec, fun k hk => transformBuf_buf hk _, transformBuf_bytes _ s, fun hi => ?transform, fun hi => ?run,
    transformBuf_status _ s, transformBuf_errIndex _ s, ?setup, ?sample, ?bias, transformBuf_peakCount _ s, ?bus⟩
  case transform =>
    subst hi
    simpa [afterTransform, goto] using (congrArg State.seq hq).symm
  case run =>
    subst hi
    simpa [afterTransform, enterSub] using (congrArg State.seq hq).symm
  case setup => simp [SameSetup]
  case sample => simp [SameSample]
  case bias => simp [SameBias]
  case bus => simp [SameBus]

/-- Settles O40: the recursion of size 1 makes no butterfly, that of size 2 makes one. -/
theorem transformSmallSizes : Obligations.TransformSmallSizes :=
  ⟨fun _ _ _ => ⟨rfl, 2, rfl⟩,
    fun _ _ _ _ => ⟨⟨_, _, _, _, _, _, rfl⟩, ⟨_, _, rfl⟩, ⟨_, _, rfl⟩, rfl, rfl⟩⟩

end Sys2Proof.Machine

namespace Sys2Proof.Machine

/-! ## The recursion as a function of its sub-sequence

A call `Rec(dst, src, off, s)` touches only the entries `off + s*m` of its buffers. There it computes a function of the
sub-sequence it is called on (42_fft R153), over any arithmetic: `spectrum`. -/

section
variable {α : Type} (num : FftNum α)

/-- The sub-sequence of a buffer that a call with this offset and stride reads and writes (42_fft R153). -/
def strided (l : List α) (off s m : Nat) : α := l.getD (off + s * m) num.zero

/-- The two values a butterfly makes of an even and an odd value at loop index `i` (42_fft R152). -/
def butterflyOut (n off s i : Nat) (e o : α) : α × α :=
  let t := num.mul (s * n + off + i) (num.twiddle i n) o
  (num.add (s * n + off + i) e t, num.sub (s * n + off + i) e t)

/-- Entry `k` of what a call with this offset and stride makes of the sub-sequence `x` of length `2^j`: the even and the
odd half are transformed, and entries `k` and `k + 2^(j-1)` are one butterfly. -/
def spectrum (n : Nat) : Nat → Nat → Nat → (Nat → α) → Nat → α
  | 0, _, _, x, _ => x 0
  | j + 1, off, s, x, k =>
    let out := butterflyOut num n off s (2 * s * (k % 2 ^ j))
      (spectrum n j off (2 * s) (fun m => x (2 * m)) (k % 2 ^ j))
      (spectrum n j (off + s) (2 * s) (fun m => x (2 * m + 1)) (k % 2 ^ j))
    if k < 2 ^ j then out.1 else out.2

/-! ### The combine loop -/

variable {n h off s c q : Nat} {dst src : List α}

theorem getD_set (l : List α) (i j : Nat) (a d : α) :
    (l.set i a).getD j d = if i = j ∧ j < l.length then a else l.getD j d := by
  grind

theorem strided_pos_inj (hs : 0 < s) {a b : Nat} : off + s * a = off + s * b ↔ a = b := by
  rw [Nat.add_left_cancel_iff, Nat.mul_right_inj hs.ne']

/-- What turn `c` of the combine loop makes of the two halves that it reads (42_fft R152). -/
def combineOut (n : Nat) (src : List α) (off s c : Nat) : α × α :=
  butterflyOut num n off s (2 * s * c) (strided num src off (2 * s) c) (strided num src (off + s) (2 * s) c)

/-- A butterfly writes the two entries at its place in either half of the result (42_fft R152). -/
theorem butterfly_eq (hn : n = 2 * s * h) (src : List α) (off c : Nat) (dst : List α) :
    butterfly num n src off s (2 * s * c) dst =
      (dst.set (off + s * c) (combineOut num n src off s c).1).set (off + s * (c + h))
        (combineOut num n src off s c).2 := by
  have hlower : 2 * s * c / 2 = s * c := by
    rw [mul_assoc, Nat.mul_div_cancel_left _ two_pos]
  have hupper : (2 * s * c + n) / 2 = s * (c + h) := by
    rw [hn, ← mul_add, mul_assoc, Nat.mul_div_cancel_left _ two_pos]
  rw [combineOut, strided, strided, Nat.add_right_comm off s, ← hlower, ← hupper]
  rfl

theorem butterfly_getD_other (hn : n = 2 * s * h) (hq : ∀ m, q ≠ off + s * m) :
    (butterfly num n src off s (2 * s * c) dst).getD q num.zero = dst.getD q num.zero := by
  rw [butterfly_eq num hn, getD_set, if_neg (fun hpos => hq _ hpos.1.symm), getD_set,
    if_neg (fun hpos => hq _ hpos.1.symm)]

theorem combine_getD_other (hn : n = 2 * s * h) (hq : ∀ m, q ≠ off + s * m) :
    (combine num n src off s dst).getD q num.zero = dst.getD q num.zero := by
  unfold combine
  induction List.range (n / (2 * s)) generalizing dst with
  | nil => rfl
  | cons c cs ih => rw [List.foldl_cons, ih, butterfly_getD_other num hn hq]

/-- The first `c` turns of the combine loop. -/
def combineTurns (n : Nat) (src : List α) (off s c : Nat) (dst : List α) : List α :=
  (List.range c).foldl (fun d j => butterfly num n src off s (2 * s * j) d) dst

theorem combine_eq_turns (hn : n = 2 * s * h) (hs : 0 < s) (src : List α) (off : Nat) (dst : List α) :
    combine num n src off s dst = combineTurns num n src off s h dst := by
  rw [combine, hn, Nat.mul_div_cancel_left _ (Nat.mul_pos two_pos hs), combineTurns]

theorem combineTurns_succ (c : Nat) :
    combineTurns num n src off s (c + 1) dst =
      butterfly num n src off s (2 * s * c) (combineTurns num n src off s c dst) := by
  rw [combineTurns, List.range_succ, List.foldl_append]
  rfl

theorem combineTurns_length (c : Nat) : (combineTurns num n src off s c dst).length = dst.length := by
  induction c with
  | zero => rfl
  | succ c ih => rw [combineTurns_succ, butterfly_length, ih]

/-- After `c` turns the first `c` entries of either half are the butterflies'. -/
theorem combineTurns_strided (hn : n = 2 * s * h) (hoff : off < s) (hdst : dst.length = n) (hc : c ≤ h) {k : Nat}
    (hk : k < c) :
    strided num (combineTurns num n src off s c dst) off s k = (combineOut num n src off s k).1 ∧
      strided num (combineTurns num n src off s c dst) off s (k + h) = (combineOut num n src off s k).2 := by
  have hs : 0 < s := by omega
  induction c with
  | zero => omega
  | succ c ih =>
    have hroom : off + s * (c + h) < n := by
      calc off + s * (c + h) < s * (c + h + 1) := by rw [Nat.mul_succ]; omega
        _ ≤ s * (2 * h) := Nat.mul_le_mul_left s (by omega)
        _ = n := by rw [hn]; ring
    have hroom' : off + s * c < n := lt_of_le_of_lt (by gcongr; omega) hroom
    rw [strided, strided] at ih ⊢
    simp only [combineTurns_succ, butterfly_eq num hn, getD_set, List.length_set, combineTurns_length, hdst,
      strided_pos_inj hs]
    rcases Nat.lt_succ_iff_lt_or_eq.mp hk with hlt | rfl
    · obtain ⟨hlower, hupper⟩ := ih (by omega) hlt
      rw [if_neg (by omega), if_neg (by omega), if_neg (by omega), if_neg (by omega)]
      exact ⟨hlower, hupper⟩
    · rw [if_neg (by omega), if_pos ⟨rfl, hroom'⟩, if_pos ⟨rfl, hroom⟩]
      exact ⟨rfl, rfl⟩

/-- The combine loop makes its entries of the halves' spectra (42_fft R152). -/
theorem combine_strided (hn : n = 2 * s * h) (hoff : off < s) (hdst : dst.length = n) {k : Nat} (hk : k < 2 * h) :
    strided num (combine num n src off s dst) off s k =
      if k < h then (combineOut num n src off s (k % h)).1 else (combineOut num n src off s (k % h)).2 := by
  have hh : 0 < h := by omega
  obtain ⟨hlower, hupper⟩ :=
    combineTurns_strided num (src := src) hn hoff hdst le_rfl (Nat.mod_lt k hh)
  rw [combine_eq_turns num hn (by omega)]
  by_cases hkh : k < h
  · rw [if_pos hkh]
    rw [Nat.mod_eq_of_lt hkh] at hlower ⊢
    exact hlower
  · have hmod : k % h + h = k := by rw [Nat.mod_eq_sub_mod (by omega), Nat.mod_eq_of_lt (by omega)]; omega
    rw [if_neg hkh]
    rwa [hmod] at hupper

/-! ### The recursion -/

theorem strided_even (l : List α) (off s m : Nat) : strided num l off (2 * s) m = strided num l off s (2 * m) := by
  rw [strided, strided, mul_comm 2 s, mul_assoc]

theorem strided_odd (l : List α) (off s m : Nat) :
    strided num l (off + s) (2 * s) m = strided num l off s (2 * m + 1) := by
  rw [strided, strided]
  congr 1
  ring

/-- A call of size 1 leaves both buffers alone (42_fft R152: a stride of n ends the recursion). -/
theorem fftRec_base (n depth : Nat) (dst src : List α) (off : Nat) :
    fftRec num n depth dst src off n = (dst, src) := by
  cases depth with
  | zero => rfl
  | succ d => exact if_pos le_rfl

/-- A call of a larger size (42_fft R152). -/
theorem fftRec_step {depth : Nat} (hlt : s < n) (dst src : List α) (off : Nat) :
    fftRec num n (depth + 1) dst src off s =
      let even := fftRec num n depth src dst off (2 * s)
      let odd := fftRec num n depth even.1 even.2 (off + s) (2 * s)
      (combine num n odd.1 off s odd.2, odd.1) := if_neg hlt.not_ge

theorem stride_lt_size {j : Nat} (hs : 0 < s) : s < s * 2 ^ (j + 1) :=
  lt_mul_of_one_lt_right hs (Nat.one_lt_two_pow (Nat.succ_ne_zero j))

/-- A call leaves every entry outside its sub-sequence alone, in both buffers (42_fft R153). -/
theorem fftRec_getD_other {j : Nat} (depth : Nat) (hn : n = s * 2 ^ j) (hs : 0 < s) (hq : ∀ m, q ≠ off + s * m)
    (dst src : List α) :
    (fftRec num n depth dst src off s).1.getD q num.zero = dst.getD q num.zero ∧
      (fftRec num n depth dst src off s).2.getD q num.zero = src.getD q num.zero := by
  induction depth generalizing j off s dst src with
  | zero => exact ⟨rfl, rfl⟩
  | succ d ih =>
    cases j with
    | zero =>
      obtain rfl : n = s := by simpa using hn
      rw [fftRec_base]
      exact ⟨rfl, rfl⟩
    | succ j =>
      have hn' : n = 2 * s * 2 ^ j := by rw [hn]; ring
      have heven (m : Nat) : q ≠ off + 2 * s * m := by rw [mul_right_comm, mul_comm]; exact hq (2 * m)
      have hodd (m : Nat) : q ≠ off + s + 2 * s * m := by
        have hpos : off + s + 2 * s * m = off + s * (2 * m + 1) := by ring
        rw [hpos]
        exact hq (2 * m + 1)
      obtain ⟨heven1, heven2⟩ := ih hn' (by omega) heven src dst
      obtain ⟨hodd1, hodd2⟩ := ih hn' (by omega) hodd
        (fftRec num n d src dst off (2 * s)).1 (fftRec num n d src dst off (2 * s)).2
      rw [fftRec_step num (hn ▸ stride_lt_size hs)]
      exact ⟨((combine_getD_other num hn' hq).trans hodd2).trans heven2, hodd1.trans heven1⟩

/-- The two halves of a sub-sequence are disjoint (42_fft R153). -/
theorem even_ne_odd (hs : 0 < s) (m m' : Nat) : off + 2 * s * m ≠ off + s + 2 * s * m' := by
  intro heq
  have hpos : off + s * (2 * m) = off + s * (2 * m' + 1) := by linarith
  have := (strided_pos_inj hs).mp hpos
  omega

/-- A call on buffers that both hold the sub-sequence `x` leaves its spectrum in the first one (42_fft R153). -/
theorem fftRec_strided {j depth : Nat} (hn : n = s * 2 ^ j) (hoff : off < s) (hdepth : j ≤ depth) {x : Nat → α}
    (hdstLen : dst.length = n) (hsrcLen : src.length = n)
    (hdst : ∀ m < 2 ^ j, strided num dst off s m = x m) (hsrc : ∀ m < 2 ^ j, strided num src off s m = x m) {k : Nat}
    (hk : k < 2 ^ j) :
    strided num (fftRec num n depth dst src off s).1 off s k = spectrum num n j off s x k := by
  induction j generalizing depth off s x dst src k with
  | zero =>
    obtain rfl : n = s := by simpa using hn
    obtain rfl : k = 0 := by omega
    rw [fftRec_base]
    exact hdst 0 hk
  | succ j ih =>
    obtain ⟨d, rfl⟩ : ∃ d, depth = d + 1 := ⟨depth - 1, by omega⟩
    have hs : 0 < s := by omega
    have hn' : n = 2 * s * 2 ^ j := by rw [hn]; ring
    have hpow : 2 ^ (j + 1) = 2 * 2 ^ j := pow_succ' 2 j
    have hmod : k % 2 ^ j < 2 ^ j := Nat.mod_lt k (Nat.two_pow_pos j)
    obtain ⟨even, heven⟩ : ∃ even, fftRec num n d src dst off (2 * s) = even := ⟨_, rfl⟩
    obtain ⟨odd, hodd⟩ : ∃ odd, fftRec num n d even.1 even.2 (off + s) (2 * s) = odd := ⟨_, rfl⟩
    obtain ⟨hevenLen1, hevenLen2⟩ := heven ▸ fftRec_length num n d src dst off (2 * s)
    obtain ⟨hoddLen1, hoddLen2⟩ := hodd ▸ fftRec_length num n d even.1 even.2 (off + s) (2 * s)
    have hevenFrame (m : Nat) : strided num even.1 (off + s) (2 * s) m = strided num src (off + s) (2 * s) m ∧
        strided num even.2 (off + s) (2 * s) m = strided num dst (off + s) (2 * s) m :=
      heven ▸ fftRec_getD_other num d hn' (by omega) (fun m' => (even_ne_odd hs m' m).symm) src dst
    have hoddFrame (m : Nat) : strided num odd.1 off (2 * s) m = strided num even.1 off (2 * s) m :=
      hodd ▸ (fftRec_getD_other num d hn' (by omega) (even_ne_odd hs m) even.1 even.2).1
    have hevenOut : strided num even.1 off (2 * s) (k % 2 ^ j) =
        spectrum num n j off (2 * s) (fun m => x (2 * m)) (k % 2 ^ j) :=
      heven ▸ ih hn' (by omega) (by omega) hsrcLen hdstLen
        (fun m hm => by rw [strided_even, hsrc _ (by omega)]) (fun m hm => by rw [strided_even, hdst _ (by omega)]) hmod
    have hoddOut : strided num odd.1 (off + s) (2 * s) (k % 2 ^ j) =
        spectrum num n j (off + s) (2 * s) (fun m => x (2 * m + 1)) (k % 2 ^ j) :=
      hodd ▸ ih hn' (by omega) (by omega) (hevenLen1.trans hsrcLen) (hevenLen2.trans hdstLen)
        (fun m hm => by rw [(hevenFrame m).1, strided_odd, hsrc _ (by omega)])
        (fun m hm => by rw [(hevenFrame m).2, strided_odd, hdst _ (by omega)]) hmod
    rw [fftRec_step num (hn ▸ stride_lt_size hs)]
    simp only [heven, hodd]
    rw [combine_strided num hn' hoff ((hoddLen2.trans hevenLen2).trans hdstLen) (hpow ▸ hk), combineOut, hoddFrame,
      hevenOut, hoddOut, spectrum]

/-- The transform of size `2^k` is the spectrum of the whole buffer, in natural order. -/
theorem fft_eq_spectrum (k : Nat) {xs : List α} (hlen : xs.length = 2 ^ k) :
    fft num (2 ^ k) xs =
      (List.range (2 ^ k)).map (spectrum num (2 ^ k) k 0 1 fun m => xs.getD m num.zero) := by
  have hstrided (l : List α) (m : Nat) : strided num l 0 1 m = l.getD m num.zero := by
    rw [strided, one_mul, zero_add]
  have houtLen := (fft_length num (2 ^ k) xs).trans hlen
  refine List.ext_getElem (by simp [houtLen]) fun j hj _ => ?_
  have hjk : j < 2 ^ k := houtLen ▸ hj
  have hout := fftRec_strided num (n := 2 ^ k) (off := 0) (depth := Nat.log2 (2 ^ k) + 1) (one_mul _).symm one_pos
    (by rw [Nat.log2_two_pow]; omega) hlen hlen (fun m _ => hstrided xs m) (fun m _ => hstrided xs m) hjk
  rw [hstrided] at hout
  rw [List.getElem_map, List.getElem_range]
  exact (List.getD_eq_getElem _ _ hj).symm.trans hout

end

end Sys2Proof.Machine

namespace Sys2Proof.Machine

/-! ## Exact arithmetic gives the DFT -/

/-- The complex numbers with exact twiddles (42_fft R153, R154). -/
noncomputable def exactNum : FftNum ℂ :=
  { zero := 0, add := fun _ x y => x + y, sub := fun _ x y => x - y, mul := fun _ w z => w * z
    twiddle := fun i n => Complex.exp (-(Complex.I * Real.pi * i / n)) }

/-- The root of unity `exp(-2πj / 2^j)`. -/
noncomputable def unitRoot (j : Nat) : ℂ := Complex.exp (-(2 * Real.pi * Complex.I / 2 ^ j))

/-- The DFT of size `2^j` (42_fft R150). -/
noncomputable def dft (j : Nat) (x : Nat → ℂ) (k : Nat) : ℂ := ∑ m ∈ Finset.range (2 ^ j), x m * unitRoot j ^ (m * k)

theorem unitRoot_pow (j e : Nat) : unitRoot j ^ e = Complex.exp (-(2 * Real.pi * Complex.I * e / 2 ^ j)) := by
  rw [unitRoot, ← Complex.exp_nat_mul]
  congr 1
  ring

theorem unitRoot_sq (j : Nat) : unitRoot (j + 1) ^ 2 = unitRoot j := by
  rw [unitRoot_pow, unitRoot]
  congr 1
  field_simp
  push_cast
  ring

theorem unitRoot_half_turn (j : Nat) : unitRoot (j + 1) ^ 2 ^ j = -1 := by
  have hangle : -(2 * Real.pi * Complex.I * ((2 ^ j : Nat) : ℂ) / 2 ^ (j + 1)) = -(Real.pi * Complex.I) := by
    push_cast
    field_simp
    ring
  rw [unitRoot_pow, hangle, Complex.exp_neg, Complex.exp_pi_mul_I, inv_neg_one]

theorem unitRoot_full_turn (j : Nat) : unitRoot j ^ 2 ^ j = 1 := by
  rw [← unitRoot_sq, pow_right_comm, unitRoot_half_turn, neg_one_sq]

/-- The twiddle of a call of stride `s` in a transform of size `n` is a power of its own root of unity. -/
theorem exactNum_twiddle {n s j : Nat} (hs : 0 < s) (hn : n = s * 2 ^ (j + 1)) (c : Nat) :
    exactNum.twiddle (2 * s * c) n = unitRoot (j + 1) ^ c := by
  have hs0 : (s : ℂ) ≠ 0 := Nat.cast_ne_zero.mpr hs.ne'
  rw [unitRoot_pow, hn]
  simp only [exactNum]
  congr 1
  push_cast
  field_simp

theorem sum_range_two_mul (f : Nat → ℂ) (h : Nat) :
    ∑ m ∈ Finset.range (2 * h), f m = ∑ m ∈ Finset.range h, f (2 * m) + ∑ m ∈ Finset.range h, f (2 * m + 1) := by
  induction h with
  | zero => simp
  | succ h ih =>
    rw [Nat.mul_succ, Finset.sum_range_succ, Finset.sum_range_succ, ih, Finset.sum_range_succ, Finset.sum_range_succ]
    ring

/-- The DFT by the DFTs of the even and the odd half. -/
theorem dft_succ (j : Nat) (x : Nat → ℂ) (k : Nat) :
    dft (j + 1) x k =
      dft j (fun m => x (2 * m)) k + unitRoot (j + 1) ^ k * dft j (fun m => x (2 * m + 1)) k := by
  have hterm (m : Nat) : unitRoot (j + 1) ^ (2 * m * k) = unitRoot j ^ (m * k) := by
    rw [mul_assoc, pow_mul, unitRoot_sq]
  simp only [dft]
  rw [pow_succ' 2 j, sum_range_two_mul, Finset.mul_sum]
  congr 1 <;> refine Finset.sum_congr rfl fun m _ => ?_
  · rw [hterm]
  · rw [add_mul, one_mul, pow_add, hterm]
    ring

/-- A DFT of size `2^j` has period `2^j`. -/
theorem dft_mod (j : Nat) (x : Nat → ℂ) (k : Nat) : dft j x (k % 2 ^ j) = dft j x k := by
  refine Finset.sum_congr rfl fun m _ => ?_
  have hperiod : unitRoot j ^ (k % 2 ^ j) = unitRoot j ^ k := (pow_eq_pow_mod k (unitRoot_full_turn j)).symm
  rw [mul_comm m, mul_comm m, pow_mul, pow_mul, hperiod]

/-- The second half of the powers of a root of unity is the first one negated. -/
theorem unitRoot_pow_mod {j k : Nat} (hk : k < 2 ^ (j + 1)) :
    unitRoot (j + 1) ^ k = if k < 2 ^ j then unitRoot (j + 1) ^ (k % 2 ^ j) else -unitRoot (j + 1) ^ (k % 2 ^ j) := by
  by_cases hlt : k < 2 ^ j
  · rw [if_pos hlt, Nat.mod_eq_of_lt hlt]
  · have hmod : k = 2 ^ j + k % 2 ^ j := by
      rw [pow_succ] at hk
      rw [Nat.mod_eq_sub_mod (by omega), Nat.mod_eq_of_lt (by omega)]
      omega
    rw [if_neg hlt]
    conv_lhs => rw [hmod, pow_add, unitRoot_half_turn, neg_one_mul]

/-- With exact arithmetic every call of the recursion computes the DFT of its sub-sequence (42_fft R153). -/
theorem spectrum_exactNum {n j s : Nat} (hs : 0 < s) (hn : n = s * 2 ^ j) (off : Nat) (x : Nat → ℂ) {k : Nat}
    (hk : k < 2 ^ j) : spectrum exactNum n j off s x k = dft j x k := by
  induction j generalizing s off x k with
  | zero =>
    obtain rfl : k = 0 := by omega
    simp [spectrum, dft]
  | succ j ih =>
    have hmod : k % 2 ^ j < 2 ^ j := Nat.mod_lt k (Nat.two_pow_pos j)
    have hn' : n = 2 * s * 2 ^ j := by rw [hn]; ring
    rw [spectrum, ih (by omega) hn' _ _ hmod, ih (by omega) hn' _ _ hmod, dft_mod, dft_mod, butterflyOut,
      exactNum_twiddle hs hn, dft_succ, unitRoot_pow_mod hk]
    split
    · rfl
    · rw [neg_mul, ← sub_eq_add_neg]
      rfl

/-- Settles O41: the recursion is the spectrum of the whole buffer, and with exact arithmetic that is the DFT. -/
theorem fftIsTheDft : Obligations.FftIsTheDft := by
  intro k xs hlen
  refine (fft_eq_spectrum exactNum k hlen).trans (List.map_congr_left fun j hj => ?_)
  rw [spectrum_exactNum one_pos (one_mul _).symm 0 _ (List.mem_range.mp hj)]
  refine Finset.sum_congr rfl fun m _ => ?_
  rw [unitRoot_pow, Nat.cast_mul, ← mul_assoc]
  rfl

end Sys2Proof.Machine

namespace Sys2Proof.Machine

/-! ## Impulses and zeros under this hardware's arithmetic -/

/-! ### Zeros of either sign -/

/-- A zero of either sign. -/
def F64.IsZero (x : F64) : Prop := x = 0 ∨ x = 0x8000000000000000

theorem F64.isZero_ofSignMag (s : Bool) : F64.IsZero (F64.ofSignMag s 0) := by
  cases s <;> simp [F64.IsZero, ofSignMag_zero]

section
variable {a b w : F64}

theorem F64.IsZero.isFinite (h : F64.IsZero a) : F64.isFinite a = true := by
  rcases h with rfl | rfl <;> decide

theorem F64.IsZero.magScaled (h : F64.IsZero a) : F64.magScaled a = 0 := by
  rcases h with rfl | rfl <;> decide

theorem F64.IsZero.scaled (h : F64.IsZero a) : F64.scaled a = 0 := by
  rcases h with rfl | rfl <;> decide

theorem F64.IsZero.fneg (h : F64.IsZero a) : F64.IsZero (fneg a) := by
  rcases h with rfl | rfl
  · exact .inr (by decide)
  · exact .inl (by decide)

theorem fadd_zeros (ha : F64.IsZero a) (hb : F64.IsZero b) (id : Nat) : F64.IsZero (fadd id a b) := by
  rw [fadd_of_isFinite ha.isFinite hb.isFinite, if_pos (by rw [ha.scaled, hb.scaled, add_zero])]
  exact F64.isZero_ofSignMag _

theorem fsub_zeros (ha : F64.IsZero a) (hb : F64.IsZero b) (id : Nat) : F64.IsZero (fsub id a b) :=
  fadd_zeros ha hb.fneg id

/-- A finite value times a zero is a zero (42_fft R157). -/
theorem fmul_zero (hw : F64.isFinite w = true) (hb : F64.IsZero b) (id : Nat) : F64.IsZero (fmul id w b) := by
  rw [fmul_of_isFinite hw hb.isFinite, hb.magScaled, mul_zero, rneMag_zero]
  exact F64.isZero_ofSignMag _

/-- 1.0, exactly, and no zero. -/
theorem scaled_one : F64.isFinite 0x3FF0000000000000 = true ∧ F64.scaled 0x3FF0000000000000 = f64Unit ∧
    rneFrac f64Unit f64Unit = 0x3FF0000000000000 := by decide +kernel

/-- One plus a zero is one (42_fft R157). -/
theorem fadd_one_zero (hb : F64.IsZero b) (id : Nat) : fadd id 0x3FF0000000000000 b = 0x3FF0000000000000 := by
  obtain ⟨hfin, hone, hround⟩ := scaled_one
  rw [fadd_of_isFinite hfin hb.isFinite, hone, hb.scaled, add_zero,
    if_neg (Int.natCast_ne_zero.mpr f64Unit_ne_zero), hround]

theorem fsub_one_zero (hb : F64.IsZero b) (id : Nat) : fsub id 0x3FF0000000000000 b = 0x3FF0000000000000 :=
  fadd_one_zero hb.fneg id

end

/-! ### The butterfly and the recursion -/

/-- A complex value whose parts are zeros of either sign. -/
def Cplx.IsZero (z : Cplx) : Prop := F64.IsZero z.re ∧ F64.IsZero z.im

/-- A complex value with real part exactly 1.0 and a zero imaginary part. -/
def Cplx.IsOne (z : Cplx) : Prop := z.re = 0x3FF0000000000000 ∧ F64.IsZero z.im

section
variable {tw : Nat → Nat → Cplx} {e o w : Cplx}

theorem cmul_zero (hre : F64.isFinite w.re = true) (him : F64.isFinite w.im = true) (ho : o.IsZero) (id : Nat) :
    (cmul id w o).IsZero :=
  ⟨fsub_zeros (fmul_zero hre ho.1 _) (fmul_zero him ho.2 _) _,
    fadd_zeros (fmul_zero hre ho.2 _) (fmul_zero him ho.1 _) _⟩

variable (base n off s : Nat)
  (htw : ∀ i n, F64.isFinite (tw i n).re = true ∧ F64.isFinite (tw i n).im = true)
include htw

theorem butterflyOut_zeros (he : e.IsZero) (ho : o.IsZero) (i : Nat) :
    (butterflyOut { hwNum base with twiddle := tw } n off s i e o).1.IsZero ∧
      (butterflyOut { hwNum base with twiddle := tw } n off s i e o).2.IsZero := by
  have ht (id : Nat) : (cmul id (tw i n) o).IsZero := cmul_zero (htw i n).1 (htw i n).2 ho id
  exact ⟨⟨fadd_zeros he.1 (ht _).1 _, fadd_zeros he.2 (ht _).2 _⟩,
    ⟨fsub_zeros he.1 (ht _).1 _, fsub_zeros he.2 (ht _).2 _⟩⟩

theorem butterflyOut_one (he : e.IsOne) (ho : o.IsZero) (i : Nat) :
    (butterflyOut { hwNum base with twiddle := tw } n off s i e o).1.IsOne ∧
      (butterflyOut { hwNum base with twiddle := tw } n off s i e o).2.IsOne := by
  have ht (id : Nat) : (cmul id (tw i n) o).IsZero := cmul_zero (htw i n).1 (htw i n).2 ho id
  obtain ⟨hre, him⟩ := he
  simp only [Cplx.IsOne, butterflyOut, hwNum, cadd, csub, hre]
  exact ⟨⟨fadd_one_zero (ht _).1 _, fadd_zeros him (ht _).2 _⟩, ⟨fsub_one_zero (ht _).1 _, fsub_zeros him (ht _).2 _⟩⟩

/-- A sub-sequence of zeros transforms to zeros (42_fft R157). -/
theorem spectrum_zeros (j : Nat) {x : Nat → Cplx} (hx : ∀ m, (x m).IsZero) (k : Nat) :
    (spectrum { hwNum base with twiddle := tw } n j off s x k).IsZero := by
  induction j generalizing off s x k with
  | zero => exact hx 0
  | succ j ih =>
    obtain ⟨hlower, hupper⟩ := butterflyOut_zeros base n off s htw
      (ih off (2 * s) (fun m => hx (2 * m)) (k % 2 ^ j)) (ih (off + s) (2 * s) (fun m => hx (2 * m + 1)) (k % 2 ^ j))
      (2 * s * (k % 2 ^ j))
    rw [spectrum]
    split
    · exact hlower
    · exact hupper

/-- An impulse transforms to ones: its even half is an impulse and its odd half is zero (42_fft R157). -/
theorem spectrum_impulse (j : Nat) {x : Nat → Cplx} (hx0 : (x 0).IsOne) (hx : ∀ m, m ≠ 0 → (x m).IsZero) (k : Nat) :
    (spectrum { hwNum base with twiddle := tw } n j off s x k).IsOne := by
  induction j generalizing off s x k with
  | zero => exact hx0
  | succ j ih =>
    obtain ⟨hlower, hupper⟩ := butterflyOut_one base n off s htw
      (ih off (2 * s) (x := fun m => x (2 * m)) hx0 (fun m hm => hx _ (by omega)) (k % 2 ^ j))
      (spectrum_zeros base n (off + s) (2 * s) htw j (fun m => hx (2 * m + 1) (by omega)) (k % 2 ^ j))
      (2 * s * (k % 2 ^ j))
    rw [spectrum]
    split
    · exact hlower
    · exact hupper

end

theorem getD_zeros (j m : Nat) : ((List.replicate j (⟨0, 0⟩ : Cplx)).getD m ⟨0, 0⟩).IsZero := by
  have hzero : (List.replicate j (⟨0, 0⟩ : Cplx)).getD m ⟨0, 0⟩ = ⟨0, 0⟩ := by
    simp
  rw [hzero]
  exact ⟨.inl rfl, .inl rfl⟩

/-- Settles O42: the transform is the spectrum of the whole buffer, and its parts are ones and zeros. -/
theorem impulseGivesOnes : Obligations.ImpulseGivesOnes := by
  intro base k tw htw
  refine ⟨fun z hz => ?impulse, fun z hz => ?zeros⟩
  case impulse =>
    have hlen : (⟨0x3FF0000000000000, 0⟩ :: List.replicate (2 ^ k - 1) (⟨0, 0⟩ : Cplx)).length = 2 ^ k := by
      rw [List.length_cons, List.length_replicate, Nat.sub_add_cancel Nat.one_le_two_pow]
    rw [fft_eq_spectrum _ k hlen] at hz
    obtain ⟨j, -, rfl⟩ := List.mem_map.mp hz
    refine spectrum_impulse base _ 0 1 htw k ⟨rfl, .inl rfl⟩ (fun m hm => ?_) j
    obtain ⟨m, rfl⟩ := Nat.exists_eq_succ_of_ne_zero hm
    exact getD_zeros (2 ^ k - 1) m
  case zeros =>
    rw [fft_eq_spectrum _ k List.length_replicate] at hz
    obtain ⟨j, -, rfl⟩ := List.mem_map.mp hz
    exact spectrum_zeros base _ 0 1 htw k (getD_zeros (2 ^ k)) j

end Sys2Proof.Machine

namespace Sys2Proof.Machine

/-! # The magnitude peak extractor and SCAN: the statements of 43_peak_scan -/

/-! ## The ordered comparison

`fgt` (43_peak_scan R175) compares the order keys of two operands that are no NaN. -/

section
variable {a b : F64}

theorem fgt_iff : fgt a b = true ↔ F64.isNaN a = false ∧ F64.isNaN b = false ∧ F64.orderKey b < F64.orderKey a := by
  simp only [fgt, Bool.and_eq_true, Bool.not_eq_true', decide_eq_true_eq, and_assoc]

theorem fgt_of_isNaN (h : F64.isNaN a = true ∨ F64.isNaN b = true) : fgt a b = false := by
  rw [← Bool.not_eq_true, fgt_iff]
  rintro ⟨ha, hb, -⟩
  simp [ha, hb] at h

theorem fgt_asymm (h : fgt a b = true) : fgt b a = false := by
  obtain ⟨-, -, hlt⟩ := fgt_iff.mp h
  rw [← Bool.not_eq_true, fgt_iff]
  exact fun ⟨_, _, hgt⟩ => lt_asymm hlt hgt

theorem F64.orderKey_of_isFinite (h : F64.isFinite a = true) : F64.orderKey a = F64.scaled a :=
  if_neg (by simp [F64.isInf_of_isFinite h])

/-- Every finite value lies strictly between the keys of the infinities. -/
theorem F64.natAbs_scaled_lt (h : F64.isFinite a = true) : (F64.scaled a).natAbs < 2 ^ 2098 := by
  have hinf : patternValue (2047 * 2 ^ 52) = 2 ^ 2098 := by
    rw [show 2047 * 2 ^ 52 = 2046 * 2 ^ 52 + 2 ^ 52 by rfl, patternValue_significand (by decide) (.inr le_rfl),
      ← pow_add]
  rw [F64.natAbs_scaled, F64.magScaled_eq, ← hinf]
  exact patternValue_strictMono (F64.isFinite_iff.mp h)

theorem F64.orderKey_bounds_of_isFinite (h : F64.isFinite a = true) :
    -(2 ^ 2098) < F64.orderKey a ∧ F64.orderKey a < 2 ^ 2098 := by
  rw [F64.orderKey_of_isFinite h, ← abs_lt, Int.abs_eq_natAbs]
  exact_mod_cast F64.natAbs_scaled_lt h

theorem F64.orderKey_posInf : F64.orderKey 0x7FF0000000000000 = 2 ^ 2098 := rfl

theorem F64.orderKey_negInf : F64.orderKey 0xFFF0000000000000 = -(2 ^ 2098) := rfl

/-- The infinities lie outside the finite values (43_peak_scan R175). -/
theorem fgt_infinities (h : F64.isFinite b = true) :
    fgt 0x7FF0000000000000 b = true ∧ fgt b 0xFFF0000000000000 = true := by
  obtain ⟨hlo, hhi⟩ := F64.orderKey_bounds_of_isFinite h
  have hb := F64.isNaN_of_isFinite h
  exact ⟨fgt_iff.mpr ⟨rfl, hb, hhi⟩, fgt_iff.mpr ⟨hb, rfl, hlo⟩⟩

end

/-- Settles O59: a comparison of keys, which are the values on finite operands and exceed them at the infinities. -/
theorem greaterThanIsOrdered : Obligations.GreaterThanIsOrdered := by
  intro a b
  refine ⟨fgt_of_isNaN, fun ha hb => ?finite, fun hb => ?infinities, fgt_asymm⟩
  case finite =>
    rw [fgt_iff, F64.orderKey_of_isFinite ha, F64.orderKey_of_isFinite hb]
    simp [F64.isNaN_of_isFinite ha, F64.isNaN_of_isFinite hb]
  case infinities =>
    obtain ⟨hpos, hneg⟩ := fgt_infinities hb
    exact ⟨hpos, hneg, fgt_asymm hpos, fgt_asymm hneg⟩

/-! ## The window (43_peak_scan R172) -/

theorem mem_windowBins_iff {l : Latched} {b : Nat} :
    b ∈ windowBins l ↔ clampedLo l ≤ b ∧ (b : Int) ≤ clampedHi l := by
  have h0 : 0 ≤ clampedLo l := le_max_right _ _
  rw [windowBins, List.mem_range'_1]
  omega

/-- Settles O45: both ends lie half the requested size from the center bin, and clamping meets the buffer. -/
theorem scanWindowBounds : Obligations.ScanWindowBounds := by
  intro l
  have hlo : windowLo l = centerBin l - ((l.ws.toNat / 2 : Nat) : Int) + 1 := rfl
  have hhi : windowHi l = centerBin l + ((l.ws.toNat / 2 : Nat) : Int) := rfl
  refine ⟨by omega, by omega, by omega, hhi, fun b => ?_⟩
  rw [mem_windowBins_iff, clampedLo, clampedHi, max_le_iff, le_min_iff]
  omega

/-! ## The step of SCAN

What the step answers once the checks of R171 and R215 have passed, and what the loop over the window stores. -/

section
variable {i : Instr} {s : State}

theorem exec_scan (hs : Scans i s.seq.sub) (hp : s.seq.phase = .scan) :
    exec i s = .next (scanBody (errOpOf i s.seq.sub) s) := by
  rcases hs with rfl | ⟨rfl, hsub⟩
  · simp only [exec, execScan, hp]
    rfl
  · simp only [exec, execRun, runBody, hsub, hp, reduceCtorEq, if_false, if_true]
    rfl

theorem scanParamsLegal_iff {l : Latched} : scanParamsLegal l = true ↔
    1 ≤ l.r.toNat ∧ 1 ≤ (l.n.toNat : Int) - l.k.toInt ∧ 1 ≤ l.s.toNat ∧ F64.isFinite l.cf = true := by
  simp only [scanParamsLegal, Bool.and_eq_true, decide_eq_true_eq, and_assoc]
  rfl

/-- An empty request ends SCAN with no entries. -/
theorem exec_scan_empty (hs : Scans i s.seq.sub) (hp : s.seq.phase = .scan)
    (hn : legalN s.nMax s.latched.n = true) (hl : scanParamsLegal s.latched = true)
    (hempty : windowHi s.latched < windowLo s.latched) : exec i s = .next (goto .fin { s with peakCount := 0 }) := by
  rw [exec_scan hs hp]
  rcases scanBody_cases (errOpOf i s.seq.sub) s with ⟨h, -⟩ | ⟨-, h, -⟩ | ⟨-, -, -, h⟩ | ⟨-, -, h, -⟩ | ⟨-, -, h, -⟩
  · simp [hn] at h
  · simp [hl] at h
  · rw [h]
  · omega
  · omega

/-- A request that reaches the buffer makes SCAN loop over the clamped window. -/
theorem exec_scan_window (hs : Scans i s.seq.sub) (hp : s.seq.phase = .scan)
    (hn : legalN s.nMax s.latched.n = true) (hl : scanParamsLegal s.latched = true)
    (hwindow : windowLo s.latched ≤ windowHi s.latched) (hclamped : clampedLo s.latched ≤ clampedHi s.latched) :
    exec i s = .next (goto .fin (scanWindow s)) := by
  rw [exec_scan hs hp]
  rcases scanBody_cases (errOpOf i s.seq.sub) s with
    ⟨h, -⟩ | ⟨-, h, -⟩ | ⟨-, -, h, -⟩ | ⟨-, -, -, h, -⟩ | ⟨-, -, -, -, h⟩
  · simp [hn] at h
  · simp [hl] at h
  · omega
  · omega
  · rw [h]

/-! ### The bins that are emitted -/

/-- The bins that SCAN emits, ascending (43_peak_scan R173, R175). -/
def scanBins (s : State) : List Nat := (windowBins s.latched).filter (binEmitted s)

theorem scanEntries_eq (s : State) : scanEntries s = (scanBins s).map (binEntry s) := rfl

theorem mem_scanBins {b : Nat} : b ∈ scanBins s ↔ b ∈ windowBins s.latched ∧ binEmitted s b = true := List.mem_filter

theorem windowBins_ascending (l : Latched) : (windowBins l).Pairwise (· < ·) := List.pairwise_lt_range'

theorem scanBins_ascending (s : State) : (scanBins s).Pairwise (· < ·) := (windowBins_ascending _).filter _

theorem scanBins_length_le (s : State) : (scanBins s).length ≤ (windowBins s.latched).length :=
  List.length_filter_le _ _

/-! ### What the loop stores

The state after the loop, past its body: PEAK_COUNT, the entries, and the bytes left alone. -/

theorem scanned_peakCount (s : State) : (goto .fin (scanWindow s)).peakCount.toNat = (scanBins s).length := by
  have hlen := (scanBins_length_le s).trans (windowBins_length_le _)
  rw [goto_peakCount, scanWindow_peakCount, scanEntries_eq, List.length_map, BitVec.toNat_ofNat]
  exact Nat.mod_eq_of_lt (hlen.trans_lt s.latched.n.isLt)

theorem scanned_reads (s : State) : SameBytes (s.setPeaks 0 (scanEntries s)) (goto .fin (scanWindow s)) :=
  sameBytes_of_mem (by simp) (by simp)

theorem scanned_peak {j b : Nat} (h : (scanBins s)[j]? = some b) :
    (goto .fin (scanWindow s)).peak j = binEntry s b := by
  obtain ⟨hj, -⟩ := List.getElem?_eq_some_iff.mp h
  rw [State.peak_congr fun a _ _ => scanned_reads s a, State.peak_setPeaks, scanEntries_eq, List.length_map,
    if_pos (by omega), Nat.sub_zero, List.getD_eq_getElem?_getD, List.getElem?_map, h, Option.map_some,
    Option.getD_some]

theorem scanned_bytes (s : State) :
    SameBytesOutside 0x200000 (32 * (scanBins s).length) s (goto .fin (scanWindow s)) := by
  intro a hout
  rw [scanned_reads s a, State.byteAt_setPeaks_other]
  rwa [scanEntries_eq, List.length_map, Nat.zero_add]

/-! ### What SCAN leaves alone -/

/-- A step of SCAN that ends without an error changes only the phase, PEAK, PEAK_COUNT and the draws used. -/
def ScanFrame (s t : State) : Prop :=
  t.seq = { s.seq with phase := .fin } ∧ t.status = s.status ∧ t.errIndex = s.errIndex ∧ SameSetup s t ∧
  SameSample s t ∧ SameBias s t ∧ SameScr s t ∧ SameBus s t

theorem scanFrame_empty (s : State) : ScanFrame s (goto .fin { s with peakCount := 0 }) :=
  ⟨rfl, rfl, rfl, ⟨rfl, rfl, rfl, rfl, rfl, rfl⟩, ⟨rfl, rfl⟩, ⟨rfl, rfl, rfl⟩, fun _ => rfl, ⟨rfl, rfl⟩⟩

theorem scanFrame_scanned (s : State) : ScanFrame s (goto .fin (scanWindow s)) := by
  refine ⟨by simp, by simp, by simp, ?setup, ?sample, ?bias, sameScr_of_scrDraw (by simp), ?bus⟩
  case setup => simp [SameSetup]
  case sample => simp [SameSample]
  case bias => simp [SameBias]
  case bus => simp [SameBus]

end

/-- Settles O44: the loop stores the entries of `scanBins`. -/
theorem scanWritesPeaks : Obligations.ScanWritesPeaks := by
  intro i s hs hp hn hr hd hsamples hcf frame
  have hl := scanParamsLegal_iff.mpr ⟨hr, hd, hsamples, hcf⟩
  refine ⟨fun hempty => ?empty, fun hwindow hclamped => ?window⟩
  case empty =>
    exact ⟨_, exec_scan_empty hs hp hn hl hempty, rfl, sameBytes_of_mem rfl rfl, scanFrame_empty s⟩
  case window =>
    refine ⟨_, exec_scan_window hs hp hn hl hwindow hclamped, scanBins s, scanBins_ascending s, fun b => ?_,
      scanned_peakCount s, fun j b => scanned_peak, scanned_bytes s, scanFrame_scanned s⟩
    rw [mem_scanBins, mem_windowBins_iff, and_assoc]
    rfl

/-! ## The laws of SCAN (43_peak_scan R178) -/

/-! ### The sign of a magnitude -/

theorem F64.isFinite_of_not {x : F64} (hinf : F64.isInf x = false) (hnan : F64.isNaN x = false) :
    F64.isFinite x = true := by
  rw [← Bool.not_eq_true, F64.isInf_iff] at hinf
  rw [← Bool.not_eq_true, F64.isNaN_iff] at hnan
  rw [F64.isFinite_iff]
  omega

theorem F64.orderKey_nonneg {x : F64} (h : F64.neg x = false) : 0 ≤ F64.orderKey x := by
  rw [F64.orderKey, F64.scaled, h]
  split
  · exact pow_nonneg two_pos.le _
  · exact Int.natCast_nonneg _

/-- A magnitude that is no NaN has no sign (00_scope R17). -/
theorem neg_magnitude {id n : Nat} {z : Cplx} (hn : 1 ≤ n) (h : F64.isNaN (magnitude id z n) = false) :
    F64.neg (magnitude id z n) = false := by
  obtain ⟨hinf, hnan, hfinite⟩ := magnitudeIsNearest id z n hn
  by_cases hi : F64.isInf z.re = true ∨ F64.isInf z.im = true
  · rw [hinf hi]
    rfl
  · obtain ⟨hire, hiim⟩ : F64.isInf z.re = false ∧ F64.isInf z.im = false := by simpa using hi
    by_cases hm : F64.isNaN z.re = true ∨ F64.isNaN z.im = true
    · simp [hnan hire hiim hm] at h
    · obtain ⟨hmre, hmim⟩ : F64.isNaN z.re = false ∧ F64.isNaN z.im = false := by simpa using hm
      exact (hfinite (F64.isFinite_of_not hire hmre) (F64.isFinite_of_not hiim hmim)).1

/-- Every magnitude that is no NaN is above a threshold below zero. -/
theorem fgt_magnitude_of_negative {id n : Nat} {z : Cplx} {th : F64} (hn : 1 ≤ n) (hth : F64.isNaN th = false)
    (hneg : F64.orderKey th < 0) :
    fgt (magnitude id z n) th = true ↔ F64.isNaN (magnitude id z n) = false := by
  rw [fgt_iff]
  exact ⟨fun h => h.1, fun h => ⟨h, hth, hneg.trans_le (F64.orderKey_nonneg (neg_magnitude hn h))⟩⟩

theorem F64.magScaled_of_zeroBits {x : F64} (h : x.extractLsb' 0 63 = 0) : F64.magScaled x = 0 := by
  rw [F64.magScaled_eq_zero_iff, ← F64.toNat_extractLsb', h]
  rfl

theorem magnitude_of_zeroBits {z : Cplx} (hre : z.re.extractLsb' 0 63 = 0) (him : z.im.extractLsb' 0 63 = 0)
    (id n : Nat) : magnitude id z n = F64.posZero := by
  have hmre := F64.magScaled_of_zeroBits hre
  have hmim := F64.magScaled_of_zeroBits him
  rw [magnitude_of_isFinite (F64.isFinite_of_magScaled_eq_zero hmre) (F64.isFinite_of_magScaled_eq_zero hmim), hmre,
    hmim, rneSqrtMag_zero]
  rfl

/-- A zero bin is not above a threshold from zero on. -/
theorem fgt_posZero {th : F64} (h : 0 ≤ F64.orderKey th) : fgt F64.posZero th = false := by
  rw [← Bool.not_eq_true, fgt_iff]
  exact fun ⟨_, _, hlt⟩ => absurd hlt (not_lt.mpr h)

/-! ### The emitted bins -/

section
variable {s : State}

/-- One nonzero bin above a threshold from zero on is the only bin emitted. -/
theorem scanBins_of_single {k : Nat} (hk : k ∈ windowBins s.latched) (hemit : binEmitted s k = true)
    (hth : 0 ≤ F64.orderKey s.latched.th)
    (hzero : ∀ b ∈ windowBins s.latched, b ≠ k →
      (s.buf b).re.extractLsb' 0 63 = 0 ∧ (s.buf b).im.extractLsb' 0 63 = 0) : scanBins s = [k] := by
  have honly : ∀ b ∈ windowBins s.latched, binEmitted s b = (b == k) := by
    intro b hb
    by_cases hbk : b = k
    · rw [hbk, hemit, beq_self_eq_true]
    · obtain ⟨hre, him⟩ := hzero b hb hbk
      rw [binEmitted, binMagnitude, magnitude_of_zeroBits hre him, fgt_posZero hth, beq_false_of_ne hbk]
  have hnodup : (windowBins s.latched).Nodup := List.nodup_range'
  rw [scanBins, List.filter_congr honly, List.filter_beq, List.count_eq_one_of_mem hnodup hk, List.replicate_one]

theorem windowBins_length (h : clampedLo s.latched ≤ clampedHi s.latched) :
    ((windowBins s.latched).length : Int) = clampedHi s.latched - clampedLo s.latched + 1 := by
  rw [windowBins, List.length_range']
  omega

/-- A threshold below zero emits every bin whose magnitude is no NaN. -/
theorem mem_scanBins_of_negative (hs : 1 ≤ s.latched.s.toNat) (hth : F64.isNaN s.latched.th = false)
    (hneg : F64.orderKey s.latched.th < 0) {b : Nat} :
    b ∈ scanBins s ↔ b ∈ windowBins s.latched ∧ F64.isNaN (binMagnitude s b) = false := by
  rw [mem_scanBins, binEmitted, binMagnitude, fgt_magnitude_of_negative hs hth hneg]

end

/-- Settles O47: the step emits `scanBins`, and the three laws are about these bins. -/
theorem scanLaws : Obligations.ScanLaws := by
  intro i s hs hp hn hr hd hsamples hcf hclamped hwindow entry
  have hl := scanParamsLegal_iff.mpr ⟨hr, hd, hsamples, hcf⟩
  have hexec := exec_scan_window hs hp hn hl hwindow hclamped
  refine ⟨fun k hk hemit _ hth hzero => ?single, ?bounds, fun hth hneg => ?negative⟩
  case single =>
    have hbins := scanBins_of_single hk hemit hth hzero
    have hfirst : (scanBins s)[0]? = some k := by
      rw [hbins]
      rfl
    refine ⟨_, hexec, BitVec.eq_of_toNat_eq ?_, scanned_peak hfirst⟩
    exact (scanned_peakCount s).trans (congrArg List.length hbins)
  case bounds =>
    have hlen := windowBins_length hclamped
    have hcount := (scanned_peakCount s).trans_le (scanBins_length_le s)
    have hfits := windowBins_length_le s.latched
    exact ⟨_, hexec, by omega, by omega, (legalN_bounds hn).2⟩
  case negative =>
    exact ⟨_, hexec, scanBins s, scanBins_ascending s, fun b => mem_scanBins_of_negative hsamples hth hneg,
      scanned_peakCount s, fun j b => scanned_peak⟩

end Sys2Proof.Machine

namespace Sys2Proof.Machine

/-! # Commands and their control: the statements of 44_command_control -/

/-! ## The core's turn (44_command_control R195) -/

/-- Settles O4: with no move listed, and in its turn, the core makes its step. -/
theorem stepRunsAcceptedCommand : Obligations.StepRunsAcceptedCommand := fun s _ rest hreset hop _ =>
  ⟨(step_nil rfl).trans (coreStep_run (s := s.facing []) hreset hop),
    (step_coreTurn rfl).trans (coreStep_run (s := s.facing rest) hreset hop)⟩

/-- A schedule that begins with the core's turn gives the core the next step, and is then as it was. -/
theorem step_withCoreTurn (s : State) : step s.withCoreTurn = coreStep s := by
  rcases henv : s.env with _ | ⟨m, rest⟩
  · rw [State.withCoreTurn, henv]
    exact step_nil henv
  · have hturn : s.withCoreTurn = { s with env := .coreTurn :: m :: rest } := by rw [State.withCoreTurn, henv]
    rw [hturn, step_coreTurn rfl, ← henv]

theorem decode_of_decodeTableWord {nbits w : Nat} {i : Instr} (h : decodeTableWord nbits w = some i) :
    decode (BitVec.ofNat 32 (w % 2 ^ nbits)) = .ok i := by
  rw [decodeTableWord] at h
  split at h
  · cases h
  · cases hd : decode (BitVec.ofNat 32 (w % 2 ^ nbits)) with
    | ok j =>
      rw [hd] at h
      cases h
      rfl
    | error e =>
      rw [hd] at h
      cases h

/-- Settles O5: the acceptance starts the command, and the core moves next. -/
theorem acceptedWordRunsNext : Obligations.AcceptedWordRunsNext := by
  intro s nbits w i h
  have haccept := accept_ok (decode_of_decodeTableWord h) s
  refine ⟨{ startCommand i (acceptFlags s) with inReset := false }, rfl, rfl, rfl, rfl, rfl, ?_⟩
  rw [State.withFetchWord, State.withAccepted, haccept, step_withCoreTurn]
  exact coreStep_run rfl rfl

/-! ## The end of a command (44_command_control R192) -/

theorem exec_fin {s : State} (hp : s.seq.phase = .fin) (i : Instr) : exec i s = .next (complete s) := by
  cases i with
  | nop => rfl
  | readSample => exact exec_readSample_fin hp
  | acquire => exact if_pos hp
  | transform => simp only [exec, execTransform, hp]
  | scan => simp only [exec, execScan, hp]
  | run => exact if_pos hp

/-- Settles O24: in phase END every command makes the step `complete`. -/
theorem completionStep : Obligations.CompletionStep := fun i _ hp => ⟨_, exec_fin hp i, rfl, fun _ => rfl⟩

end Sys2Proof.Machine

namespace Sys2Proof.Machine

/-! ## Host writes that are dropped, and host writes that are ignored (44_command_control R194) -/

/-- The state in which a host write is carried out: the transaction is in the history, and no longer to come. -/
def State.writing (off : HostOffset) (v : Word) (rest : List Move) (s : State) : State :=
  { s with env := rest, history := .hostWrite off v :: s.history }

/-- A register that no host write changes: the constants ID and N_MAX, and the results (10_state section 1). -/
def HostReg.readOnly (r : HostReg) : Prop := r = .id ∨ r = .nMax ∨ r.isResult = true

/-- Host writes to the target are dropped while the block is busy. -/
def HostTarget.guarded : HostTarget → Prop
  | .reg r => r = .cmd ∨ r.isParam = true
  | .buf => True
  | .peak => False
  | .reserved => False

/-- Host writes to the target never have an effect. -/
def HostTarget.ignoresWrites : HostTarget → Prop
  | .reg r => r.readOnly
  | .buf => False
  | .peak => True
  | .reserved => True

section
variable {s : State} {off : HostOffset} {v : Word}

theorem writeReg_guarded (hbusy : s.status.busy = true) {r : HostReg} (hr : r = .cmd ∨ r.isParam = true) :
    writeReg r v s = dropWrite s := by
  cases r <;> simp_all [writeReg, HostReg.isParam]

theorem writeReg_readOnly {r : HostReg} (hr : r.readOnly) : writeReg r v s = s := by
  cases r <;> simp_all [writeReg, HostReg.readOnly, HostReg.isResult, HostReg.isParam]

theorem writeTarget_reg {r : HostReg} (h : hostTarget s.nMax off.toNat = .reg r) :
    writeTarget off v s = writeReg r v s := by
  simp only [writeTarget, h]

theorem writeTarget_guarded (hbusy : s.status.busy = true) (h : (hostTarget s.nMax off.toNat).guarded) :
    writeTarget off v s = dropWrite s := by
  cases ht : hostTarget s.nMax off.toNat with
  | reg r => exact (writeTarget_reg ht).trans (writeReg_guarded hbusy (by rwa [ht] at h))
  | buf => simp only [writeTarget, ht, hbusy, if_true]
  | peak | reserved =>
    rw [ht] at h
    exact h.elim

theorem writeTarget_ignored (h : (hostTarget s.nMax off.toNat).ignoresWrites) : writeTarget off v s = s := by
  cases ht : hostTarget s.nMax off.toNat with
  | reg r => exact (writeTarget_reg ht).trans (writeReg_readOnly (by rwa [ht] at h))
  | buf =>
    rw [ht] at h
    exact h.elim
  | peak | reserved => simp only [writeTarget, ht]

end

/-! ### Which offsets they are -/

section
variable {nMax : Word} {a : Nat}

theorem hostTarget_guarded (h : a = 0x004 ∨ (0x014 ≤ a ∧ a ≤ 0x044) ∨
    (0x100000 ≤ a ∧ a < 0x100000 + 16 * nMax.toNat)) : (hostTarget nMax a).guarded := by
  rcases h with rfl | h | h
  · exact .inl rfl
  · obtain ⟨k, hk⟩ : ∃ k, a / 4 = k := ⟨_, rfl⟩
    rw [hostTarget, if_pos (by omega), hk]
    have hlo : 5 ≤ k := by omega
    have hhi : k ≤ 17 := by omega
    interval_cases k <;> exact .inr rfl
  · rw [hostTarget_of_buf h]
    trivial

theorem hostTarget_results (h : 0x048 ≤ a ∧ a < 0x070) : (hostTarget nMax a).ignoresWrites := by
  obtain ⟨k, hk⟩ : ∃ k, a / 4 = k := ⟨_, rfl⟩
  rw [hostTarget, if_pos h.2, hk]
  by_cases hlast : k = 27
  · rw [hlast]
    exact .inr (.inl rfl)
  · have hlo : 18 ≤ k := by omega
    have hhi : k ≤ 26 := by omega
    interval_cases k <;> exact .inr (.inr rfl)

theorem hostTarget_ignored (hcap : legalCapacity nMax = true) (h : a = 0x000 ∨ a = 0x010 ∨
    (0x048 ≤ a ∧ a < 0x100000) ∨ 0x100000 + 16 * nMax.toNat ≤ a) : (hostTarget nMax a).ignoresWrites := by
  rcases h with rfl | rfl | h | h
  · exact .inl rfl
  · exact .inr (.inr rfl)
  · by_cases hreg : a < 0x070
    · exact hostTarget_results ⟨h.1, hreg⟩
    · rw [hostTarget_of_reserved hcap (by omega)]
      trivial
  · by_cases hpeak : 0x200000 ≤ a ∧ a < 0x200000 + 32 * nMax.toNat
    · rw [hostTarget_of_peak hcap hpeak]
      trivial
    · rw [hostTarget_of_reserved hcap (by omega)]
      trivial

end

/-! ### The steps -/

section
variable {s : State} {off : HostOffset} (v : Word) (rest : List Move)

theorem step_write_dropped (hreset : s.inReset = false) (ha : off.toNat % 4 = 0) (hbusy : s.status.busy = true)
    (h : (hostTarget s.nMax off.toNat).guarded) :
    step (s.facing (.write off 4 v :: rest)) = .next (dropWrite (s.writing off v rest)) :=
  (step_write v rest hreset ha).trans (congrArg _ (writeTarget_guarded (s := s.writing off v rest) hbusy h))

theorem step_write_ignored (hreset : s.inReset = false) (ha : off.toNat % 4 = 0)
    (h : (hostTarget s.nMax off.toNat).ignoresWrites) :
    step (s.facing (.write off 4 v :: rest)) = .next (s.writing off v rest) :=
  (step_write v rest hreset ha).trans (congrArg _ (writeTarget_ignored (s := s.writing off v rest) h))

theorem step_write_reg (hreset : s.inReset = false) (r : HostReg) :
    step (s.facing (.write r.offset 4 v :: rest)) = .next (writeReg r v (s.writing r.offset v rest)) :=
  (step_write v rest hreset r.offset_aligned).trans
    (congrArg _ (writeTarget_reg (s := s.writing r.offset v rest) (hostTarget_offset s.nMax r)))

end

/-- Settles O20: by what the offset stands for in the region map. -/
theorem busyWritesAreDropped : Obligations.BusyWritesAreDropped := by
  intro s rest off v hreset hcap ha
  refine ⟨fun hbusy hoff => ?guarded, fun hoff => ?status, fun hoff => ?intEn, fun hoff => ?ignored⟩
  case guarded => exact step_write_dropped v rest hreset ha hbusy (hostTarget_guarded hoff)
  case status =>
    obtain rfl : off = HostReg.status.offset := BitVec.eq_of_toNat_eq hoff
    exact step_write_reg v rest hreset .status
  case intEn =>
    obtain rfl : off = HostReg.intEn.offset := BitVec.eq_of_toNat_eq hoff
    exact step_write_reg v rest hreset .intEn
  case ignored => exact step_write_ignored v rest hreset ha (hostTarget_ignored hcap hoff)

end Sys2Proof.Machine

namespace Sys2Proof.Machine

/-! ## Acceptance, and NOP (44_command_control R191, R196) -/

/-- Past the flags and the latch an acceptance writes STATUS and the sequencer alone: it starts the decoded command, or
ends an ILLEGAL word at once. -/
theorem accept_eq (w : Word) (s : State) :
    ∃ st q, accept w s = { acceptFlags s with status := st, seq := q } ∧
      (∀ i, decode w = .ok i → st = s.status.accept ∧
        q = { s.seq with op := some i, sub := firstSub i, i := 0, polls := 0, phase := firstPhase i }) ∧
      (∀ e, decode w = .error e → st = s.status.accept.enterError ErrKind.illegalCommand.code (opField w) ∧
        q = { s.seq with op := none, sub := none }) := by
  rcases accept_cases w s with ⟨i, hdecode, h⟩ | ⟨e, hdecode, h⟩
  · refine ⟨_, _, h, fun j hj => ?_, fun e he => ?_⟩
    · cases hdecode.symm.trans hj
      exact ⟨rfl, rfl⟩
    · cases hdecode.symm.trans he
  · refine ⟨_, _, h, fun j hj => ?_, fun _ _ => ⟨rfl, rfl⟩⟩
    cases hdecode.symm.trans hj

/-- The product of two 32-bit values fits in 64 bits (10_state R49). -/
theorem toNat_mulExact (a b : Word) : (mulExact a b).toNat = a.toNat * b.toNat := by
  have hlt : a.toNat * b.toNat < 2 ^ 32 * 2 ^ 32 := Nat.mul_lt_mul'' a.isLt b.isLt
  rw [mulExact, BitVec.toNat_mul, BitVec.toNat_setWidth_of_le (by decide), BitVec.toNat_setWidth_of_le (by decide)]
  exact Nat.mod_eq_of_lt hlt

theorem step_write_cmd {s : State} (hreset : s.inReset = false) (hidle : s.status.busy = false) (w : Word)
    (rest : List Move) :
    step (s.facing (.write 0x004 4 w :: rest)) = .next (accept w (s.writing 0x004 w rest)) := by
  have hcmd : writeReg .cmd w (s.writing 0x004 w rest) = accept w (s.writing 0x004 w rest) :=
    if_neg (by simp [State.writing, hidle])
  rw [← hcmd]
  exact step_write_reg w rest hreset .cmd

/-- Settles O19: the write is an acceptance, and the word says whether it starts a command or ends at once. -/
theorem commandWriteAccepts : Obligations.CommandWriteAccepts := by
  intro s rest w hreset hidle
  obtain ⟨st, q, hacc, hok, hillegal⟩ := accept_eq w (s.writing 0x004 w rest)
  refine ⟨_, (step_write_cmd hreset hidle w rest).trans (congrArg _ hacc), ?latch, rfl, fun i hi => ?command,
    fun e he => ?illegal, rfl, rfl, rfl, rfl, rfl, ⟨rfl, rfl⟩, ⟨rfl, rfl, rfl⟩, rfl, fun _ => rfl, fun _ => rfl, rfl,
    rfl⟩
  case latch => exact ⟨rfl, rfl, rfl, rfl, toNat_mulExact _ _, rfl, rfl, rfl, rfl, rfl, rfl, rfl, rfl, rfl⟩
  case command =>
    obtain ⟨rfl, rfl⟩ := hok i hi
    exact ⟨⟨hreset, rfl, rfl, rfl, rfl, rfl, rfl⟩, rfl⟩
  case illegal =>
    obtain ⟨rfl, rfl⟩ := hillegal e he
    exact ⟨rfl, rfl, rfl⟩

/-- Settles O25: the word of NOP is accepted, and the core's turn completes the command. -/
theorem nopWhole : Obligations.NopWhole := by
  intro s rest hreset
  refine ⟨fun hidle => ?idle, fun hbusy => ?busy, rfl⟩
  case idle =>
    have haccept := (step_write_cmd hreset hidle (encode .nop) (.coreTurn :: rest)).trans
      (congrArg _ (accept_ok (decode_encode .nop) _))
    have hturn := step_coreTurn (s := startCommand .nop (acceptFlags (s.writing 0x004 0 (.coreTurn :: rest)))) rfl
    have hrun := hturn.trans (coreStep_run (i := .nop) hreset rfl)
    refine ⟨_, (runSteps_next haccept 1).trans (runSteps_next hrun 0), ?_⟩
    exact ⟨rfl, rfl, rfl, rfl, rfl, rfl, rfl, rfl, rfl, rfl, ⟨rfl, rfl⟩, ⟨rfl, rfl, rfl⟩, rfl, fun _ => rfl,
      fun _ => rfl, rfl, rfl⟩
  case busy => exact step_write_dropped 0 rest hreset (by decide) hbusy (hostTarget_guarded (.inl rfl))

end Sys2Proof.Machine

namespace Sys2Proof.Machine

/-! ## RUN and its sub-operations (44_command_control R197) -/

/-- What follows a step of a sub-operation: `f` once the sub-operation is at its end, nothing before. -/
def atEnd (f : State → State) (t : State) : State := if t.seq.phase = .fin then f t else t

section
variable {s : State} {f : State → State}

theorem atEnd_of_ne (h : s.seq.phase ≠ .fin) : atEnd f s = s := if_neg h

@[simp] theorem atEnd_goto_fin : atEnd f (goto .fin s) = f (goto .fin s) := if_pos rfl

@[simp] theorem atEnd_startSample (k : Nat) : atEnd f (startSample k s) = startSample k s := atEnd_of_ne (by simp)

theorem atEnd_raiseErr (hp : s.seq.phase ≠ .fin) (e : ErrKind) (info : Nat) (op : Byte) :
    atEnd f (raiseErr e info op s) = raiseErr e info op s := atEnd_of_ne (s := raiseErr e info op s) hp

theorem atEnd_pollStep (hp : s.seq.phase ≠ .fin) (k : Nat) (op : Byte) :
    atEnd f (pollStep k op s) = pollStep k op s := by
  rcases pollStep_cases k op s with ⟨-, h⟩ | ⟨-, h⟩ <;> rw [h]
  · exact atEnd_raiseErr hp _ _ _
  · refine atEnd_of_ne ?_
    rw [pollOnce_seq]
    dsimp only
    split <;> decide

/-! A body that leaves by `f` at its end is the body that just ends, with `f` to follow. -/

theorem acquireInit_atEnd (hp : s.seq.phase ≠ .fin) (op : Byte) :
    acquireInit (f ∘ goto .fin) op s = atEnd f (acquireInit (goto .fin) op s) := by
  simp [acquireInit, apply_ite (atEnd f), atEnd_raiseErr hp]

theorem acquireStore_atEnd : acquireStore (f ∘ goto .fin) s = atEnd f (acquireStore (goto .fin) s) := by
  simp [acquireStore, apply_ite (atEnd f)]

theorem acquireBody_atEnd (hp : s.seq.phase ≠ .fin) (op : Byte) :
    acquireBody (f ∘ goto .fin) op s = mapNext (atEnd f) (acquireBody (goto .fin) op s) := by
  have hpoll := atEnd_pollStep (f := f) hp s.seq.i op
  have hinit := acquireInit_atEnd (f := f) hp op
  have hstore := acquireStore_atEnd (f := f) (s := s)
  cases hphase : s.seq.phase <;> simp only [acquireBody, hphase, mapNext_next, mapNext_fault]
  case init => rw [hinit]
  case poll => rw [hpoll]
  case readB2 => rw [atEnd_of_ne (by simp)]
  case readB1 => rw [atEnd_of_ne (by simp)]
  case readB0 => rw [atEnd_of_ne (by simp)]
  case store => rw [hstore]

theorem transformBody_atEnd (hp : s.seq.phase ≠ .fin) (op : Byte) :
    transformBody (f ∘ goto .fin) op s = atEnd f (transformBody (goto .fin) op s) := by
  simp [transformBody, apply_ite (atEnd f), atEnd_raiseErr hp]

/-! ### The steps -/

theorem exec_run_acquire (hsub : s.seq.sub = some .acquire) (hp : s.seq.phase ≠ .fin) :
    exec .run s = mapNext (atEnd (enterSub .transform .fft)) (exec .acquire s) := by
  rw [exec_of_acquires (.inr ⟨rfl, hsub⟩) hp, exec_of_acquires (.inl rfl) hp, hsub]
  exact acquireBody_atEnd (f := enterSub .transform .fft) hp _

theorem exec_run_transform (hsub : s.seq.sub = some .transform) (hp : s.seq.phase = .fft) :
    exec .run s = mapNext (atEnd (enterSub .scan .scan)) (exec .transform s) := by
  rw [exec_transform (.inr ⟨rfl, hsub⟩) hp, exec_transform (.inl rfl) hp, hsub]
  exact congrArg _ (transformBody_atEnd (f := enterSub .scan .scan) (by simp [hp]) _)

theorem exec_run_scan (hsub : s.seq.sub = some .scan) (hp : s.seq.phase = .scan) : exec .run s = exec .scan s := by
  rw [exec_scan (.inr ⟨rfl, hsub⟩) hp, exec_scan (.inl rfl) hp, hsub]
  rfl

/-- Past ACQUIRE the size is legal, so TRANSFORM goes on to SCAN (44_command_control R197). -/
theorem exec_run_transform_of_inv (h : s.Inv) (hop : s.seq.op = some .run) (hsub : s.seq.sub = some .transform) :
    exec .run s = .next (enterSub .scan .scan (transformBuf s.latched.n.toNat s)) := by
  have hp : s.seq.phase = .fft := by simpa only [Seq.legal, hop, hsub] using h.seqLegal
  obtain ⟨hn, -⟩ := h.pastAcquire ⟨hop, .inl hsub⟩
  rw [exec_transform (.inr ⟨rfl, hsub⟩) hp, transformBody_of_legalN hn]
  rfl

end

/-- Settles O48: each step is the sub-operation's, with the next sub-operation to follow at its end. -/
theorem runIsItsSubOperations : Obligations.RunIsItsSubOperations := by
  intro s then_
  have hthen (o : Host.Outcome State Fault Refusal) (f : State → State) : then_ o f = mapNext (atEnd f) o := by
    cases o <;> rfl
  refine ⟨fun hsub hp => ?acquire, fun hsub hp => ?transform, exec_run_scan, fun h hop hsub => ?check⟩
  case acquire => exact (exec_run_acquire hsub hp).trans (hthen _ _).symm
  case transform => exact (exec_run_transform hsub hp).trans (hthen _ _).symm
  case check =>
    refine ⟨_, exec_run_transform_of_inv h hop hsub, transformBuf_status _ s, ?_, rfl, rfl⟩
    rw [enterSub_seq, transformBuf_seq]
    exact hop

end Sys2Proof.Machine

namespace Sys2Proof.Machine

/-! ## The operation that ERR_OP names (44_command_control R198) -/

/-- STATUS is as before, or shows an error of the operation `op`. -/
def KeepsStatusOrRaises (op : Byte) (s t : State) : Prop :=
  t.status = s.status ∨ ∃ e : ErrKind, t.status = s.status.enterError e.code op

section
variable {i : Instr} {s t : State}

@[simp] theorem afterAcquire_status (i : Instr) (s : State) : (afterAcquire i s).status = s.status := by
  obtain ⟨q, hq⟩ := afterAcquire_eq i s
  rw [hq]

@[simp] theorem afterTransform_status (i : Instr) (s : State) : (afterTransform i s).status = s.status := by
  obtain ⟨q, hq⟩ := afterTransform_eq i s
  rw [hq]

theorem pollStep_raises (k : Nat) (op : Byte) (s : State) : KeepsStatusOrRaises op s (pollStep k op s) := by
  rcases pollStep_cases k op s with ⟨-, h⟩ | ⟨-, h⟩ <;> rw [h]
  · exact .inr ⟨_, rfl⟩
  · exact .inl (pollOnce_status s)

theorem acquireInit_raises (i : Instr) (op : Byte) (s : State) :
    KeepsStatusOrRaises op s (acquireInit (afterAcquire i) op s) := by
  rcases acquireInit_cases (afterAcquire i) op s with ⟨-, h⟩ | ⟨-, -, h⟩ | ⟨-, -, -, h⟩ | ⟨-, -, -, h⟩ <;> rw [h]
  · exact .inr ⟨_, rfl⟩
  · exact .inr ⟨_, rfl⟩
  · exact .inl (by simp)
  · exact .inl (by simp)

theorem transformBody_raises (i : Instr) (op : Byte) (s : State) :
    KeepsStatusOrRaises op s (transformBody (afterTransform i) op s) := by
  rcases transformBody_cases (afterTransform i) op s with ⟨-, h⟩ | ⟨-, h⟩ <;> rw [h]
  · exact .inr ⟨_, rfl⟩
  · exact .inl (by simp)

theorem scanBody_raises (op : Byte) (s : State) : KeepsStatusOrRaises op s (scanBody op s) := by
  rcases scanBody_cases op s with ⟨-, h⟩ | ⟨-, -, h⟩ | ⟨-, -, -, h⟩ | ⟨-, -, -, -, h⟩ | ⟨-, -, -, -, h⟩ <;> rw [h]
  · exact .inr ⟨_, rfl⟩
  · exact .inr ⟨_, rfl⟩
  · exact .inl rfl
  · exact .inr ⟨_, rfl⟩
  · exact .inl (by simp)

/-- A core step ends the command, keeps STATUS, or shows an error of the running operation (44_command_control R198). -/
theorem exec_status (h : exec i s = .next t) :
    t.status = s.status.complete ∨ KeepsStatusOrRaises (errOpOf i s.seq.sub) s t := by
  have hbody {u : State} (hu : exec i s = .next u) (hr : KeepsStatusOrRaises (errOpOf i s.seq.sub) s u) :
      KeepsStatusOrRaises (errOpOf i s.seq.sub) s t := by
    cases hu.symm.trans h
    exact hr
  cases coreStepTo_of_exec h with
  | completes => exact .inl rfl
  | timesOut _ _ hr hp => exact .inr (hbody (exec_poll hr hp) (pollStep_raises _ _ s))
  | acquireRefuses _ _ ha hp => exact .inr (hbody (exec_init ha hp) (acquireInit_raises i _ s))
  | transformRefuses _ _ ht hp => exact .inr (hbody (exec_transform ht hp) (transformBody_raises i _ s))
  | scanRefuses _ _ hs hp => exact .inr (hbody (exec_scan hs hp) (scanBody_raises _ s))
  | _ => exact .inr (.inl (by simp))

end

/-- Settles O49: an error of a core step names the running operation, and that of an ILLEGAL word its bits 7:0. -/
theorem errOpNamesTheOperation : Obligations.ErrOpNamesTheOperation := by
  refine ⟨fun i s t h hold hnew => ?_, fun s w rest hreset hidle hillegal => ?_⟩
  · rcases exec_status h with hst | hst | ⟨e, hst⟩ <;> rw [hst] at hnew ⊢
    · simp [hold] at hnew
    · simp [hold] at hnew
    · rfl
  · cases hdecode : decode w with
    | ok i => exact absurd hdecode (hillegal i)
    | error e =>
      exact ⟨_, (step_write_cmd hreset hidle w rest).trans (congrArg _ (accept_error hdecode _)), rfl, rfl⟩

end Sys2Proof.Machine

namespace Sys2Proof.Machine

/-! # Exceptions and the interrupt: the statements of 60_exceptions -/

/-! ## The interrupt output (60_exceptions R220) -/

section
variable {i : Instr} {s t : State}

@[simp] theorem afterAcquire_op (i : Instr) (s : State) : (afterAcquire i s).seq.op = s.seq.op := by
  cases i <;> rfl

@[simp] theorem afterTransform_op (i : Instr) (s : State) : (afterTransform i s).seq.op = s.seq.op := by
  cases i <;> rfl

/-- A core step goes on with the command, or ends it with DONE = 1 (44_command_control R192, 60_exceptions R213). -/
theorem CoreStepTo.op_or_done (h : CoreStepTo i s t) : t.seq.op = s.seq.op ∨ t.status.done = true := by
  cases h with
  | completes | timesOut | acquireRefuses | transformRefuses | scanRefuses => exact .inr rfl
  | _ => exact .inl (by simp)

theorem State.irq_of_done (h : s.status.done = true) : s.irq = s.doneIe := by rw [State.irq, h, Bool.true_and]

theorem State.irq_of_not_done (h : s.status.done = false) : s.irq = false := by rw [State.irq, h, Bool.false_and]

/-- The step that ends a command raises the interrupt when it is enabled. -/
theorem exec_irq_of_end (h : exec i s = .next t) (hop : s.seq.op = some i) (hend : t.seq.op = none) :
    t.irq = s.doneIe := by
  have hto := coreStepTo_of_exec h
  obtain ⟨⟨-, hdoneIe, -⟩, -⟩ := hto.frame
  rcases hto.op_or_done with hsame | hdone
  · simp [hsame, hop] at hend
  · rw [State.irq_of_done hdone, hdoneIe]

end

/-- Settles O21: DONE is set by every step that ends a command, and cleared by the W1C write and by acceptance. -/
theorem interruptLevel : Obligations.InterruptLevel := by
  intro s rest
  refine ⟨by simp [State.irq], fun i t => exec_irq_of_end, fun hreset v hv => ?w1c, fun hreset hidle i => ?accept,
    fun hreset hidle w hillegal => ?illegal⟩
  case w1c => exact ⟨_, step_write_reg v rest hreset .status, State.irq_of_not_done (by simp [writeReg, hv])⟩
  case accept =>
    exact ⟨_, (step_write_cmd hreset hidle _ rest).trans (congrArg _ (accept_ok (decode_encode i) _)),
      State.irq_of_not_done rfl⟩
  case illegal =>
    cases hdecode : decode w with
    | ok i => exact absurd hdecode (hillegal i)
    | error e =>
      exact ⟨_, (step_write_cmd hreset hidle w rest).trans (congrArg _ (accept_error hdecode _)), rfl,
        State.irq_of_done rfl⟩

end Sys2Proof.Machine

namespace Sys2Proof.Machine

/-! ## The error state persists (60_exceptions R217) -/

/-- ERR, ERRCODE, ERR_OP and ERR_INDEX are unchanged. -/
def SameError (s t : State) : Prop :=
  t.status.err = s.status.err ∧ t.status.errCode = s.status.errCode ∧ t.status.errOp = s.status.errOp ∧
  t.errIndex = s.errIndex

section
variable {s t : State}

/-- No command is in progress in an error state (10_state R22), so the core makes no change. -/
theorem State.Inv.coreStep_of_err (h : s.Inv) (herr : s.status.err = true) : Machine.coreStep s = .next s := by
  refine coreStep_idle (.inr ?_)
  obtain ⟨hidle, -⟩ := h.status.2.1 herr
  by_contra hop
  simp [h.busyOp.mpr hop] at hidle

/-- A host write leaves the error state alone, unless it is the acceptance of a command. -/
theorem writeTarget_sameError (off : HostOffset) (v : Word) (s : State) :
    SameError s (writeTarget off v s) ∨ hostTarget s.nMax off.toNat = .reg .cmd := by
  rcases writeTarget_cases off v s with hw | ⟨-, -, hw⟩ | ⟨-, hcmd, -⟩ | ⟨-, hw⟩ | ⟨-, hw⟩ | ⟨r, -, -, -, hw⟩ |
    ⟨-, -, hw⟩
  case inr.inr.inl => exact .inr hcmd
  all_goals
    rw [hw]
    exact .inl ⟨rfl, rfl, rfl, rfl⟩

theorem hostWait_sameError (turns : Nat) (s : State) : SameError s (hostWait turns s) := by
  rw [hostWait_eq]
  exact ⟨rfl, rfl, rfl, rfl⟩

/-- Of the moves from outside only a write to CMD and reset touch the error state. -/
theorem outsideMove_sameError {m : Move} (h : outsideMove m s = .next t) :
    SameError s t ∨ (∃ w, m = .write 0x004 4 w) ∨ ∃ b, m = .assertReset b := by
  cases m with
  | coreTurn | releaseReset => cases h; exact .inl ⟨rfl, rfl, rfl, rfl⟩
  | read off size =>
    obtain ⟨-, -, rfl⟩ := hostAccess_next h
    exact .inl ⟨rfl, rfl, rfl, rfl⟩
  | write off size v =>
    obtain ⟨-, hwf, rfl⟩ := hostAccess_next h
    simp only [Move.wf, Move.sizeOk, Move.alignOk, Bool.and_eq_true, beq_iff_eq] at hwf
    obtain ⟨rfl, haligned⟩ := hwf
    rcases writeTarget_sameError off v { s with history := .hostWrite off v :: s.history } with hsame | hcmd
    · exact .inl hsame
    · obtain rfl : off = HostReg.cmd.offset := BitVec.eq_of_toNat_eq (hostTarget_reg hcmd haligned)
      exact .inr (.inl ⟨v, rfl⟩)
  | wait turns =>
    obtain ⟨-, -, rfl⟩ := hostAccess_next h
    exact .inl (hostWait_sameError turns s)
  | assertReset b => exact .inr (.inr ⟨b, rfl⟩)

end

/-- Settles O22: an error state is idle, so only a move from outside can change it, and then a write to CMD or reset. -/
theorem errorStatePersists : Obligations.ErrorStatePersists := by
  intro s t h ht herr
  have hpersists (hsame : SameError s t) : t.status.err = true ∧ t.status.errCode = s.status.errCode ∧
      t.status.errOp = s.status.errOp ∧ t.errIndex = s.errIndex := by
    obtain ⟨hkept, hrest⟩ := hsame
    exact ⟨hkept.trans herr, hrest⟩
  rcases step_cases s with ⟨r, hr, hstep⟩ | ⟨m, rest, henv, -, hstep⟩ <;> rw [hstep] at ht
  · have hstays : coreStep r = .next r := (h.coreTurn hr).coreStep_of_err (by
      rcases hr with ⟨-, rfl⟩ | ⟨rest, -, rfl⟩ <;> exact herr)
    cases hstays.symm.trans ht
    rcases hr with ⟨-, rfl⟩ | ⟨rest, -, rfl⟩ <;> exact .inl (hpersists ⟨rfl, rfl, rfl, rfl⟩)
  · rcases outsideMove_sameError ht with hsame | ⟨w, rfl⟩ | ⟨b, rfl⟩
    · exact .inl (hpersists hsame)
    · exact .inr (.inl ⟨w, rest, henv⟩)
    · exact .inr (.inr ⟨b, rest, henv⟩)

end Sys2Proof.Machine

namespace Sys2Proof.Machine

/-! ## Legal sizes and capacities (60_exceptions R214, 00_scope R7) -/

/-- The bit test of R214 on a word that is not zero. -/
theorem and_pred_eq_zero_iff {n : Word} (h : 1 ≤ n.toNat) : n &&& (n - 1) = 0 ↔ ∃ k, n.toNat = 2 ^ k := by
  have hpred : (n - 1).toNat = n.toNat - 1 := BitVec.toNat_sub_of_le h
  rw [← BitVec.toNat_inj, BitVec.toNat_and, hpred]
  exact Nat.and_sub_one_eq_zero_iff_isPowerOfTwo (by omega)

theorem powerOfTwo_iff {n : Word} : 1 ≤ n.toNat ∧ n &&& (n - 1) = 0 ↔ ∃ k, n.toNat = 2 ^ k := by
  constructor
  · rintro ⟨hpos, hbits⟩
    exact (and_pred_eq_zero_iff hpos).mp hbits
  · rintro ⟨k, hk⟩
    have hpos : 1 ≤ n.toNat := hk ▸ Nat.one_le_two_pow
    exact ⟨hpos, (and_pred_eq_zero_iff hpos).mpr ⟨k, hk⟩⟩

theorem legalN_iff {nMax n : Word} : legalN nMax n = true ↔ (∃ k, n.toNat = 2 ^ k) ∧ n.toNat ≤ nMax.toNat := by
  simp only [legalN, Bool.and_eq_true, decide_eq_true_eq, beq_iff_eq]
  rw [powerOfTwo_iff]

theorem legalCapacity_iff {nMax : Word} : legalCapacity nMax = true ↔ ∃ k, k ≤ 16 ∧ nMax.toNat = 2 ^ k := by
  simp only [legalCapacity, Bool.and_eq_true, decide_eq_true_eq, beq_iff_eq]
  rw [powerOfTwo_iff, ← exists_and_right]
  refine exists_congr fun k => ?_
  rw [and_comm, and_congr_left_iff]
  intro hk
  rw [hk, show 65536 = 2 ^ 16 from rfl, Nat.pow_le_pow_iff_right Nat.one_lt_two]

/-- Settles O32: on a word that is not zero the bit test is the library's characterisation of powers of two. -/
theorem legalSizeIsPowerOfTwo : Obligations.LegalSizeIsPowerOfTwo := ⟨fun _ _ => legalN_iff, fun _ => legalCapacity_iff⟩

end Sys2Proof.Machine

namespace Sys2Proof.Machine

/-! ## The checks and their errors (60_exceptions R211, R215, R216) -/

section
variable {i : Instr} {s : State}

/-! ### A check that fails -/

/-- The command ended with the error `code`, and but for PEAK_COUNT nothing else has changed (60_exceptions R216). -/
def CheckFails (code : BitVec 4) (op : Byte) (s t : State) : Prop :=
  EndedErr code op s t ∧ t.errIndex = s.errIndex ∧ SameSetup s t ∧ SameSample s t ∧ SameBias s t ∧ SameBytes s t ∧
  SameScr s t ∧ SameBus s t

/-- The error entry of a check: only SampleTimeout writes ERR_INDEX (60_exceptions R213). -/
theorem checkFails_raiseErr {e : ErrKind} (he : e ≠ .sampleTimeout) (count : Word) (op : Byte) (s : State) :
    CheckFails e.code op s (raiseErr e 0 op { s with peakCount := count }) :=
  ⟨⟨rfl, rfl⟩, if_neg he, ⟨rfl, rfl, rfl, rfl, rfl, rfl⟩, ⟨rfl, rfl⟩, ⟨rfl, rfl, rfl⟩, fun _ => rfl, fun _ => rfl,
    rfl, rfl⟩

/-- A failed check of ACQUIRE or TRANSFORM. -/
theorem nextSatisfies_checkFails {o : Host.Outcome State Fault Refusal} {e : ErrKind} {op : Byte}
    (ho : o = .next (raiseErr e 0 op s)) (he : e ≠ .sampleTimeout) :
    NextSatisfies o fun t => CheckFails e.code op s t ∧ t.peakCount = s.peakCount :=
  ⟨_, ho, checkFails_raiseErr he s.peakCount op s, rfl⟩

/-- A failed check of SCAN, which has written PEAK_COUNT (43_peak_scan R173). -/
theorem nextSatisfies_scanCheckFails {o : Host.Outcome State Fault Refusal} {e : ErrKind} {op : Byte}
    (ho : o = .next (raiseErr e 0 op { s with peakCount := 0 })) (he : e ≠ .sampleTimeout) :
    NextSatisfies o fun t => CheckFails e.code op s t ∧ t.peakCount = 0 :=
  ⟨_, ho, checkFails_raiseErr he 0 op s, rfl⟩

theorem scanParamsLegal_eq_false_iff {l : Latched} : scanParamsLegal l = false ↔
    l.r.toNat = 0 ∨ (l.n.toNat : Int) - l.k.toInt ≤ 0 ∨ l.s.toNat = 0 ∨ F64.isFinite l.cf = false := by
  rw [← Bool.not_eq_true, scanParamsLegal_iff]
  simp only [not_and_or, not_le, Order.lt_one_iff_nonpos, Nat.le_zero, Bool.not_eq_true]

/-! ### The steps -/

theorem exec_init_illegalSize (ha : Acquires i s.seq.sub) (hp : s.seq.phase = .init)
    (hn : legalN s.nMax s.latched.n = false) :
    exec i s = .next (raiseErr .invalidTransformSize 0 (errOpOf i s.seq.sub) s) := by
  rw [exec_init ha hp]
  simp only [acquireInit, hn, Bool.not_false, if_true]

theorem exec_init_tooManySamples (ha : Acquires i s.seq.sub) (hp : s.seq.phase = .init)
    (hn : legalN s.nMax s.latched.n = true) (hlt : s.latched.n.toNat < s.latched.s.toNat) :
    exec i s = .next (raiseErr .indexOutOfRange 0 (errOpOf i s.seq.sub) s) := by
  rw [exec_init ha hp]
  simp only [acquireInit, hn, hlt, Bool.not_true, Bool.false_eq_true, if_false, if_true]

theorem exec_transform_illegalSize (ht : Transforms i s.seq.sub) (hp : s.seq.phase = .fft)
    (hn : legalN s.nMax s.latched.n = false) :
    exec i s = .next (raiseErr .invalidTransformSize 0 (errOpOf i s.seq.sub) s) := by
  rw [exec_transform ht hp]
  simp only [transformBody, hn, Bool.not_false, if_true]

theorem exec_scan_illegalSize (hs : Scans i s.seq.sub) (hp : s.seq.phase = .scan)
    (hn : legalN s.nMax s.latched.n = false) :
    exec i s = .next (raiseErr .invalidTransformSize 0 (errOpOf i s.seq.sub) { s with peakCount := 0 }) := by
  rw [exec_scan hs hp]
  simp only [scanBody, hn, Bool.not_false, if_true]

theorem exec_scan_illegalParameter (hs : Scans i s.seq.sub) (hp : s.seq.phase = .scan)
    (hn : legalN s.nMax s.latched.n = true) (hl : scanParamsLegal s.latched = false) :
    exec i s = .next (raiseErr .invalidParameter 0 (errOpOf i s.seq.sub) { s with peakCount := 0 }) := by
  rw [exec_scan hs hp]
  simp only [scanBody, hn, hl, Bool.not_true, Bool.not_false, Bool.false_eq_true, if_false, if_true]

theorem exec_scan_outside (hs : Scans i s.seq.sub) (hp : s.seq.phase = .scan)
    (hn : legalN s.nMax s.latched.n = true) (hl : scanParamsLegal s.latched = true)
    (hwindow : windowLo s.latched ≤ windowHi s.latched) (hclamped : clampedHi s.latched < clampedLo s.latched) :
    exec i s = .next (raiseErr .indexOutOfRange 0 (errOpOf i s.seq.sub) { s with peakCount := 0 }) := by
  rw [exec_scan hs hp]
  simp only [scanBody, hn, hl, hclamped, if_neg hwindow.not_gt, Bool.not_true, Bool.false_eq_true, if_false, if_true]

end

/-- Settles O33: each failing check is the error entry of its error. -/
theorem checksInOrder : Obligations.ChecksInOrder := by
  intro i s fails
  refine ⟨fun ha hp => ⟨fun hn => ?acquireSize, fun hn hlt => ?samples⟩, fun ht hp hn => ?transformSize,
    fun hs hp => ⟨fun hn => ?scanSize, fun hn hbad => ?parameter,
      fun hn hr hd hsamples hcf hwindow hclamped => ?window⟩⟩
  case acquireSize => exact nextSatisfies_checkFails (exec_init_illegalSize ha hp hn) (by decide)
  case samples => exact nextSatisfies_checkFails (exec_init_tooManySamples ha hp hn hlt) (by decide)
  case transformSize => exact nextSatisfies_checkFails (exec_transform_illegalSize ht hp hn) (by decide)
  case scanSize => exact nextSatisfies_scanCheckFails (exec_scan_illegalSize hs hp hn) (by decide)
  case parameter =>
    have hl := scanParamsLegal_eq_false_iff.mpr hbad
    exact nextSatisfies_scanCheckFails (exec_scan_illegalParameter hs hp hn hl) (by decide)
  case window =>
    have hl := scanParamsLegal_iff.mpr ⟨hr, hd, hsamples, hcf⟩
    exact nextSatisfies_scanCheckFails (exec_scan_outside hs hp hn hl hwindow hclamped) (by decide)

/-! ### The causes of the errors -/

/-- The cause that 60_exceptions R211 lists for an error of a core step, and the commands in which it can arise.
IllegalCommand is acceptance's alone. -/
def ErrorCause (i : Instr) (s : State) : ErrKind → Prop
  | .sampleTimeout => ReadsSamples i s.seq.sub ∧ s.seq.polls = s.latched.p.toNat
  | .invalidTransformSize =>
    (Acquires i s.seq.sub ∨ Transforms i s.seq.sub ∨ Scans i s.seq.sub) ∧ legalN s.nMax s.latched.n = false
  | .indexOutOfRange =>
    (Acquires i s.seq.sub ∧ s.latched.n.toNat < s.latched.s.toNat) ∨
    (Scans i s.seq.sub ∧ windowLo s.latched ≤ windowHi s.latched ∧ clampedHi s.latched < clampedLo s.latched)
  | .illegalCommand => False
  | .invalidParameter => Scans i s.seq.sub ∧ scanParamsLegal s.latched = false

/-- ERR is as before, or ERRCODE shows an error whose cause holds in `s`. -/
def KeepsErrOrHasCause (i : Instr) (s t : State) : Prop :=
  t.status.err = s.status.err ∨ ∃ e : ErrKind, t.status.errCode = e.code ∧ ErrorCause i s e

section
variable {i : Instr} {s t : State}

theorem acquireInit_hasCause (ha : Acquires i s.seq.sub) (op : Byte) :
    KeepsErrOrHasCause i s (acquireInit (afterAcquire i) op s) := by
  rcases acquireInit_cases (afterAcquire i) op s with ⟨hn, h⟩ | ⟨-, hlt, h⟩ | ⟨-, -, -, h⟩ | ⟨-, -, -, h⟩ <;> rw [h]
  · exact .inr ⟨.invalidTransformSize, rfl, .inl ha, hn⟩
  · exact .inr ⟨.indexOutOfRange, rfl, .inl ⟨ha, hlt⟩⟩
  · exact .inl (by simp)
  · exact .inl (by simp)

theorem transformBody_hasCause (ht : Transforms i s.seq.sub) (op : Byte) :
    KeepsErrOrHasCause i s (transformBody (afterTransform i) op s) := by
  rcases transformBody_cases (afterTransform i) op s with ⟨hn, h⟩ | ⟨-, h⟩ <;> rw [h]
  · exact .inr ⟨.invalidTransformSize, rfl, .inr (.inl ht), hn⟩
  · exact .inl (by simp)

theorem scanBody_hasCause (hs : Scans i s.seq.sub) (op : Byte) : KeepsErrOrHasCause i s (scanBody op s) := by
  rcases scanBody_cases op s with
    ⟨hn, h⟩ | ⟨-, hl, h⟩ | ⟨-, -, -, h⟩ | ⟨-, -, hwindow, hclamped, h⟩ | ⟨-, -, -, -, h⟩ <;> rw [h]
  · exact .inr ⟨.invalidTransformSize, rfl, .inr (.inr hs), hn⟩
  · exact .inr ⟨.invalidParameter, rfl, hs, hl⟩
  · exact .inl rfl
  · exact .inr ⟨.indexOutOfRange, rfl, .inr ⟨hs, hwindow, hclamped⟩⟩
  · exact .inl (by simp)

/-- Every error that a core step raises has its cause. -/
theorem exec_hasCause (h : exec i s = .next t) : KeepsErrOrHasCause i s t := by
  have hbody {u : State} (hu : exec i s = .next u) (hc : KeepsErrOrHasCause i s u) : KeepsErrOrHasCause i s t := by
    cases hu.symm.trans h
    exact hc
  cases coreStepTo_of_exec h with
  | timesOut _ _ hr _ hspent => exact .inr ⟨.sampleTimeout, rfl, hr, hspent⟩
  | acquireRefuses _ _ ha hp => exact hbody (exec_init ha hp) (acquireInit_hasCause ha _)
  | transformRefuses _ _ ht hp => exact hbody (exec_transform ht hp) (transformBody_hasCause ht _)
  | scanRefuses _ _ hs hp => exact hbody (exec_scan hs hp) (scanBody_hasCause hs _)
  | _ => exact .inl (by simp)

/-- The commands that check their size. -/
theorem checksSize_cases {sub : Option SubOp} (h : Acquires i sub ∨ Transforms i sub ∨ Scans i sub) :
    i = .acquire ∨ i = .transform ∨ i = .scan ∨ i = .run := by
  rcases h with (h | ⟨h, -⟩) | (h | ⟨h, -⟩) | (h | ⟨h, -⟩) <;> simp [h]

end

/-- Settles O50: a step that sets ERR has the cause of the error that ERRCODE shows. -/
theorem errorCausesAreExhaustive : Obligations.ErrorCausesAreExhaustive := by
  intro i s t h hold hnew
  rcases exec_hasCause h with hkept | ⟨e, hcode, hcause⟩
  · simp [hkept, hold] at hnew
  · cases e with
    | sampleTimeout => exact .inl ⟨hcode, hcause⟩
    | invalidTransformSize =>
      obtain ⟨hcommand, hn⟩ := hcause
      exact .inr (.inl ⟨hcode, checksSize_cases hcommand, hn⟩)
    | indexOutOfRange =>
      rcases hcause with hcause | hcause
      · exact .inr (.inr (.inl ⟨hcode, hcause⟩))
      · exact .inr (.inr (.inr (.inl ⟨hcode, hcause⟩)))
    | illegalCommand => exact hcause.elim
    | invalidParameter =>
      obtain ⟨hs, hl⟩ := hcause
      exact .inr (.inr (.inr (.inr ⟨hcode, hs, scanParamsLegal_eq_false_iff.mp hl⟩)))

end Sys2Proof.Machine

namespace Sys2Proof.Machine

/-! # Reset and hazards: the statements of 70_reset_and_hazards -/

/-! ## Right after reset (70_reset_and_hazards R240) -/

/-- The register map, in the order of the offsets (10_state section 1). -/
def HostReg.registerMap : List HostReg :=
  [.id, .cmd, .status, .intEn, .errIndex, .fftSize, .sampleCount, .sampleRateHz, .biasWindowS, .windowSize,
    .centerFreqLo, .centerFreqHi, .thresholdLo, .thresholdHi, .pollLimit, .freqDivOffset, .adcMap0, .adcMap1,
    .sampleRaw, .sampleVal, .biasLo, .biasHi, .biasAccLo, .biasAccHi, .biasLenLo, .biasLenHi, .peakCount, .nMax]

/-- An idle block reads every register's value. -/
theorem readValue_reg_idle {s : State} (hidle : s.status.busy = false) (r : HostReg) :
    s.readValue r.offset = s.regWord r := by
  rw [readValue_idle hidle, State.idleRead_reg]

/-- Settles O6: the table is the register map's, and an idle block reads the values that its registers hold. -/
theorem resetRegisterValues : Obligations.ResetRegisterValues := by
  refine ⟨?table, rfl, rfl⟩
  case table =>
    change ∀ e ∈ regRows State.reset.regWord HostReg.registerMap, _
    intro e he
    obtain ⟨r, -, rfl⟩ := List.mem_map.mp he
    exact readValue_reg_idle rfl r

/-- Settles O7: right after reset nothing is stored, no command is in progress, and every bounded register is 0. -/
theorem resetMeetsInvariant : Obligations.ResetMeetsInvariant where
  capacity := by decide
  memWf := reset_mem_wf
  memRange := by simp [State.reset]
  status := by simp [State.reset, Status.reset, Status.legal]
  code := .inl rfl
  busyOp := by simp [State.reset, Status.reset, Seq.reset]
  resetIdle := fun _ => rfl
  seqLegal := trivial
  latchAgrees := by simp [State.reset, Status.reset]
  counts := by simp [State.reset, Status.reset]
  acquiring := by simp [State.acquiring, State.reset, Seq.reset]
  pastAcquire := by simp [State.pastAcquire, State.reset, Seq.reset]
  accBound := by simp [State.acquiring, State.reset, Seq.reset]
  sample := by decide
  peakCount := Nat.zero_le _
  errIndex := by simp [State.reset]
  epochs := ⟨le_rfl, le_rfl⟩

end Sys2Proof.Machine

namespace Sys2Proof.Machine

/-! ## The reset input (70_reset_and_hazards R240 to R243) -/

section
variable {s : State}

/-- A move from outside is made in the state that no longer lists it. -/
theorem step_facing_move {m : Move} (hm : m ≠ .coreTurn) (s : State) (rest : List Move) :
    step (s.facing (m :: rest)) = outsideMove m (s.facing rest) := step_move rfl hm

/-- Reset puts every register but the constant N_MAX at its reset value. -/
theorem applyReset_regWord (s : State) {r : HostReg} (hr : r ≠ .nMax) :
    (applyReset s).regWord r = State.reset.regWord r := by
  cases r with
  | nMax => exact absurd rfl hr
  | _ => rfl

/-- After reset every byte of BUF and PEAK is a free value of the new draw (70_reset_and_hazards R241; log 6). -/
theorem applyReset_byteAt (s : State) (a : Nat) :
    (applyReset s).byteAt a = Config.powerOnByte (applyReset s).memEpoch a := rfl

theorem draws_le_busRead (reg : Byte) (s : State) : s.draws ≤ (busRead reg s).draws := by
  rw [busRead_draws]
  split <;> omega

/-- Reset is `applyReset` of a state with the same constant, the same moves to come and no fewer draws. -/
theorem assertReset_eq_applyReset (inFlight : Bool) (s : State) :
    ∃ u, assertReset inFlight s = applyReset u ∧ u.nMax = s.nMax ∧ u.env = s.env ∧ s.draws ≤ u.draws := by
  rcases assertReset_cases inFlight s with h | ⟨reg, -, -, h⟩
  · exact ⟨s, h, rfl, rfl, le_rfl⟩
  · exact ⟨busRead reg s, h, busRead_nMax reg s, busRead_env reg s, draws_le_busRead reg s⟩

/-- The bytes after a reset are another draw than before it. -/
theorem assertReset_memEpoch_ne (h : s.memEpoch ≤ s.draws) (inFlight : Bool) :
    (assertReset inFlight s).memEpoch ≠ s.memEpoch := by
  obtain ⟨u, hu, -, -, hdraws⟩ := assertReset_eq_applyReset inFlight s
  rw [hu, applyReset_memEpoch]
  omega

/-- With no BusRead in flight, or none to be in flight, reset makes no transaction. -/
theorem assertReset_sameBus {inFlight : Bool} (h : inFlight = false ∨ pendingBusRead s = none) :
    SameBus s (assertReset inFlight s) := by
  rcases assertReset_cases inFlight s with hr | ⟨reg, hflight, hpending, -⟩
  · rw [hr]
    exact ⟨rfl, rfl⟩
  · simp [hflight, hpending] at h

/-- A BusRead in flight has reached the ADC (70_reset_and_hazards R242). -/
theorem assertReset_history {reg : Byte} (hpending : pendingBusRead s = some reg) :
    (assertReset true s).history = .busRead reg s.adcAnswer :: s.history := by
  simp only [assertReset, hpending, if_true, applyReset_history, busRead_history]

theorem hostAccess_inReset (hreset : s.inReset = true) (m : Move) (effect : State → State) :
    hostAccess m effect s = .refused .hostAccessInReset := if_pos hreset

end

/-- Settles O10: the registers are those of `applyReset`, and the BusRead in flight is all that joins the history. -/
theorem assertingReset : Obligations.AssertingReset := by
  intro s inFlight rest
  obtain ⟨u, hu, hnMax, henv, -⟩ := assertReset_eq_applyReset inFlight (s.facing rest)
  refine ⟨applyReset u, (step_facing_move (by simp) s rest).trans (congrArg _ hu), fun r hr => applyReset_regWord u hr,
    hnMax, rfl, rfl, rfl, henv, applyReset_byteAt u, fun hdrawn => ?draw, fun hnone => ?notInFlight,
    fun _ hnone => ?notPending, fun hflight reg hpending => ?inFlight⟩
  all_goals rw [← hu]
  case draw => exact assertReset_memEpoch_ne (s := s.facing rest) hdrawn inFlight
  case notInFlight => exact assertReset_sameBus (s := s.facing rest) (.inl hnone)
  case notPending => exact assertReset_sameBus (s := s.facing rest) (.inr hnone)
  case inFlight =>
    subst hflight
    exact assertReset_history (s := s.facing rest) hpending

/-- Settles O11: the host port refuses, the core is idle, and the release changes the reset input alone. -/
theorem heldInReset : Obligations.HeldInReset := by
  intro s rest hreset
  have hrefused (m : Move) (effect : State → State) :
      hostAccess m effect (s.facing rest) = .refused .hostAccessInReset :=
    hostAccess_inReset (s := s.facing rest) hreset m effect
  refine ⟨fun off size => ?read, fun off size v => ?write, fun turns => ?wait, ?core, ?idle, ?release⟩
  case read => exact (step_facing_move (by simp) s rest).trans (hrefused _ _)
  case write => exact (step_facing_move (by simp) s rest).trans (hrefused _ _)
  case wait => exact (step_facing_move (by simp) s rest).trans (hrefused _ _)
  case core => exact (step_coreTurn rfl).trans (coreStep_idle (s := s.facing rest) (.inl hreset))
  case idle => exact (step_nil rfl).trans (coreStep_idle (s := s.facing []) (.inl hreset))
  case release => exact step_facing_move (by simp) s rest

end Sys2Proof.Machine

namespace Sys2Proof.Machine

/-! ## The shape of host accesses (70_reset_and_hazards R250) -/

section
variable {s : State}

theorem hostAccess_misshapen (hreset : s.inReset = false) {m : Move} (hm : ¬ m.wf = true) (effect : State → State) :
    hostAccess m effect s = .refused .hostAccessShape := by
  simp [hostAccess, hreset, hm]

/-- A host write makes no move of its own. -/
@[simp] theorem writeTarget_env (off : HostOffset) (v : Word) (s : State) : (writeTarget off v s).env = s.env := by
  rcases writeTarget_cases off v s with hw | ⟨-, -, hw⟩ | ⟨-, -, hw⟩ | ⟨-, hw⟩ | ⟨-, hw⟩ | ⟨r, -, -, -, hw⟩ |
    ⟨-, -, hw⟩ <;> rw [hw]
  · exact dropWrite_env s
  · rcases accept_cases v s with ⟨i, -, ha⟩ | ⟨e, -, ha⟩ <;> simp [ha]

@[simp] theorem hostWrite_env (off : HostOffset) (v : Word) (s : State) : (hostWrite off v s).env = s.env :=
  writeTarget_env off v _

theorem read_wf_iff {off : HostOffset} {size : Nat} :
    (Move.read off size).wf = true ↔ size = 4 ∧ off.toNat % 4 = 0 := by
  simp [Move.wf, Move.sizeOk, Move.alignOk]

theorem write_wf_iff {off : HostOffset} {size : Nat} {v : Word} :
    (Move.write off size v).wf = true ↔ size = 4 ∧ off.toNat % 4 = 0 := by
  simp [Move.wf, Move.sizeOk, Move.alignOk]

end

/-- Settles O12: the host port refuses a misshapen access and makes every other one, and no access makes a move. -/
theorem accessShape : Obligations.AccessShape := by
  intro s off size v rest hreset
  refine ⟨fun hbad => ?misshapen, fun hsize haligned => ?aligned⟩
  case misshapen =>
    have hshape : ¬ (size = 4 ∧ off.toNat % 4 = 0) := not_and_or.mpr hbad
    exact ⟨(step_facing_move (by simp) s rest).trans
        (hostAccess_misshapen (s := s.facing rest) hreset (mt read_wf_iff.mp hshape) _),
      (step_facing_move (by simp) s rest).trans
        (hostAccess_misshapen (s := s.facing rest) hreset (mt write_wf_iff.mp hshape) _)⟩
  case aligned =>
    subst hsize
    exact ⟨⟨_, step_read rest hreset haligned, rfl⟩, ⟨_, step_write v rest hreset haligned, hostWrite_env off v _⟩⟩

end Sys2Proof.Machine

namespace Sys2Proof.Machine

/-! ## DROPPED is sticky (70_reset_and_hazards R253) -/

/-- The moves from outside that write DROPPED, and its value afterwards: reset (70_reset_and_hazards R240), a write to
STATUS (10_state R23), and a write that a busy block drops (44_command_control R194). -/
inductive WritesDropped (s t : State) : Move → Prop
  | resets (inFlight : Bool) : t.status.dropped = false → WritesDropped s t (.assertReset inFlight)
  | clears (v : Word) : t.status.dropped = (s.status.dropped && !v.getLsbD 3) → WritesDropped s t (.write 0x008 4 v)
  | sets (off : HostOffset) (v : Word) : off.toNat % 4 = 0 → s.status.busy = true →
      (hostTarget s.nMax off.toNat).guarded → t.status.dropped = true → WritesDropped s t (.write off 4 v)

section
variable {s t : State}

/-- The aligned offsets whose writes a busy block drops (44_command_control R194). -/
theorem offset_of_guarded {nMax : Word} {a : Nat} (h : (hostTarget nMax a).guarded) (ha : a % 4 = 0) :
    a = 0x004 ∨ (0x014 ≤ a ∧ a ≤ 0x044) ∨ (0x100000 ≤ a ∧ a < 0x100000 + 16 * nMax.toNat) := by
  cases ht : hostTarget nMax a with
  | reg r =>
    rw [ht] at h
    rw [hostTarget_reg ht ha]
    rcases h with rfl | hparam
    · exact .inl rfl
    · refine .inr (.inl ?_)
      cases r <;> simp [HostReg.isParam] at hparam <;> decide
  | buf => exact .inr (.inr (hostTarget_buf ht))
  | peak | reserved =>
    rw [ht] at h
    exact h.elim

theorem accept_dropped (w : Word) (s : State) : (accept w s).status.dropped = s.status.dropped := by
  rcases accept_cases w s with ⟨i, -, h⟩ | ⟨e, -, h⟩ <;> rw [h] <;> rfl

/-- A host write keeps DROPPED, but for a write to STATUS and one that is dropped. -/
theorem hostWrite_dropped {off : HostOffset} (haligned : off.toNat % 4 = 0) (v : Word) (s : State) :
    (hostWrite off v s).status.dropped = s.status.dropped ∨ WritesDropped s (hostWrite off v s) (.write off 4 v) := by
  rw [hostWrite]
  rcases writeTarget_cases off v { s with history := .hostWrite off v :: s.history } with hw | ⟨hbusy, htarget, hw⟩ |
    ⟨-, -, hw⟩ | ⟨hstatus, hw⟩ | ⟨-, hw⟩ | ⟨r, -, -, -, hw⟩ | ⟨-, -, hw⟩ <;> rw [hw]
  case inr.inl =>
    refine .inr (.sets off v haligned hbusy ?_ rfl)
    rcases htarget with h | ⟨r, h, hr⟩ | h <;> rw [h]
    · exact .inl rfl
    · exact .inr hr
    · trivial
  case inr.inr.inl => exact .inl (accept_dropped v _)
  case inr.inr.inr.inl =>
    obtain rfl : off = HostReg.status.offset := BitVec.eq_of_toNat_eq (hostTarget_reg hstatus haligned)
    exact .inr (.clears v rfl)
  all_goals exact .inl rfl

/-- The core does not write DROPPED. -/
theorem coreStep_dropped (h : coreStep s = .next t) : t.status.dropped = s.status.dropped := by
  by_cases hrun : s.inReset = true ∨ s.seq.op = none
  · rw [coreStep_idle hrun] at h
    cases h
    rfl
  · obtain ⟨hreset, hop⟩ := not_or.mp hrun
    obtain ⟨i, hop⟩ := Option.ne_none_iff_exists'.mp hop
    rw [coreStep_run (by simpa using hreset) hop] at h
    exact (coreStepTo_of_exec h).frame.2

theorem assertReset_dropped (inFlight : Bool) (s : State) : (assertReset inFlight s).status.dropped = false := by
  obtain ⟨u, hu, -⟩ := assertReset_eq_applyReset inFlight s
  rw [hu]
  rfl

theorem outsideMove_dropped {m : Move} (h : outsideMove m s = .next t) :
    t.status.dropped = s.status.dropped ∨ WritesDropped s t m := by
  cases m with
  | coreTurn | releaseReset => cases h; exact .inl rfl
  | read off size =>
    obtain ⟨-, -, rfl⟩ := hostAccess_next h
    exact .inl rfl
  | write off size v =>
    obtain ⟨-, hwf, rfl⟩ := hostAccess_next h
    obtain ⟨rfl, haligned⟩ := write_wf_iff.mp hwf
    exact hostWrite_dropped haligned v s
  | wait turns =>
    obtain ⟨-, -, rfl⟩ := hostAccess_next h
    rw [hostWait_eq]
    exact .inl rfl
  | assertReset inFlight =>
    cases h
    exact .inr (.resets inFlight (assertReset_dropped inFlight s))

/-- A step keeps DROPPED, unless it is a move from outside that writes it. -/
theorem step_dropped (h : step s = .next t) :
    t.status.dropped = s.status.dropped ∨ ∃ m rest, s.env = m :: rest ∧ WritesDropped (s.facing rest) t m := by
  rcases step_cases s with ⟨r, hr, hstep⟩ | ⟨m, rest, henv, -, hstep⟩ <;> rw [hstep] at h
  · have hkept := coreStep_dropped h
    rcases hr with ⟨-, rfl⟩ | ⟨rest, -, rfl⟩ <;> exact .inl hkept
  · exact (outsideMove_dropped h).imp_right fun hm => ⟨m, rest, henv, hm⟩

end

/-- Settles O23: DROPPED is written by reset, by a write to STATUS and by a dropped write, which alone sets it. -/
theorem droppedIsSticky : Obligations.DroppedIsSticky := by
  intro s t ht
  rcases step_dropped ht with hkept | ⟨m, rest, henv, hm⟩
  · exact ⟨fun hold hnew => by simp [hkept, hold] at hnew, fun hold hnew => by simp [hkept, hold] at hnew⟩
  · cases hm with
    | resets inFlight hfalse => exact ⟨fun _ _ => .inr ⟨inFlight, rest, henv⟩, by simp [hfalse]⟩
    | clears v hcleared =>
      change t.status.dropped = (s.status.dropped && !v.getLsbD 3) at hcleared
      exact ⟨fun hold hnew => .inl ⟨v, rest, henv, by simpa [hcleared, hold] using hnew⟩,
        fun hold hnew => by simp [hcleared, hold] at hnew⟩
    | sets off v haligned hbusy hguarded htrue =>
      exact ⟨by simp [htrue],
        fun _ _ => ⟨hbusy, off, v, rest, henv, haligned, offset_of_guarded hguarded haligned⟩⟩

end Sys2Proof.Machine

namespace Sys2Proof.Machine

/-! ## Every command ends (70_reset_and_hazards R255)

Backwards from the end: what is left to do from each phase, in core steps and in BusReads. -/

/-- Within `steps` steps and `reads` BusReads the command in progress has ended. -/
def EndsWithin (steps reads : Nat) (s : State) : Prop :=
  ∃ k ≤ steps, NextSatisfies (runSteps k s) fun t =>
    t.seq.op = none ∧ t.status.busy = false ∧ t.status.done = true ∧ t.busReads ≤ s.busReads + reads

/-- The command `i` is in progress, and nothing outside the core will move. -/
def State.running (i : Instr) (s : State) : Prop := s.inReset = false ∧ s.env = [] ∧ s.seq.op = some i

section
variable {i : Instr} {s t : State} {n m n' m' : Nat}

/-! ### Bounds -/

theorem EndsWithin.mono (h : EndsWithin n m s) (hn : n ≤ n') (hm : m ≤ m') : EndsWithin n' m' s := by
  obtain ⟨k, hk, t, hrun, hop, hbusy, hdone, hreads⟩ := h
  exact ⟨k, hk.trans hn, t, hrun, hop, hbusy, hdone, hreads.trans (Nat.add_le_add_left hm _)⟩

theorem EndsWithin.of_step {r : Nat} (hstep : step s = .next t) (hreads : t.busReads = s.busReads + r)
    (h : EndsWithin n m t) : EndsWithin (n + 1) (m + r) s := by
  obtain ⟨k, hk, u, hrun, hop, hbusy, hdone, hbound⟩ := h
  exact ⟨k + 1, Nat.succ_le_succ hk, u, (runSteps_next hstep k).trans hrun, hop, hbusy, hdone, by omega⟩

theorem endsWithin_complete (s : State) : EndsWithin 0 0 (complete s) :=
  ⟨0, le_rfl, _, rfl, rfl, rfl, rfl, le_rfl⟩

theorem endsWithin_raiseErr (e : ErrKind) (info : Nat) (op : Byte) (s : State) :
    EndsWithin 0 0 (raiseErr e info op s) :=
  ⟨0, le_rfl, _, rfl, rfl, rfl, rfl, le_rfl⟩

theorem busReads_of_history (h : t.history = s.history) : t.busReads = s.busReads := by
  rw [State.busReads, h, State.busReads]

theorem busReads_of_busRead {reg byte : Byte} (h : t.history = .busRead reg byte :: s.history) :
    t.busReads = s.busReads + 1 := by
  simp [State.busReads, h]

/-! ### A step of a running command -/

theorem State.reading.running (h : s.reading i) : s.running i := by
  obtain ⟨hreset, henv, hop, -⟩ := h
  exact ⟨hreset, henv, hop⟩

theorem State.running.step_eq (h : s.running i) : step s = exec i s := by
  obtain ⟨hreset, henv, hop⟩ := h
  exact step_of_op hreset henv hop

theorem State.running.next (h : s.running i) (hexec : exec i s = .next t) (hop : t.seq.op = s.seq.op) :
    t.running i := by
  obtain ⟨hreset, henv, hopi⟩ := h
  obtain ⟨⟨-, -, -, -, hreset', henv'⟩, -⟩ := (coreStepTo_of_exec hexec).frame
  exact ⟨hreset'.trans hreset, henv'.trans henv, hop.trans hopi⟩

/-- A step that makes no BusRead. -/
theorem EndsWithin.of_exec (hrun : s.running i) (hexec : exec i s = .next t) (hhistory : t.history = s.history)
    (h : EndsWithin n m t) : EndsWithin (n + 1) m s :=
  .of_step (r := 0) (hrun.step_eq.trans hexec) (busReads_of_history hhistory) h

/-- A step that makes a BusRead. -/
theorem EndsWithin.of_exec_busRead (hrun : s.running i) (hexec : exec i s = .next t) {reg byte : Byte}
    (hhistory : t.history = .busRead reg byte :: s.history) (h : EndsWithin n m t) : EndsWithin (n + 1) (m + 1) s :=
  .of_step (hrun.step_eq.trans hexec) (busReads_of_busRead hhistory) h

/-- A step that ends the command with an error; `u` is the state after what the step has written before. -/
theorem endsWithin_of_raiseErr {u : State} (hrun : s.running i) {e : ErrKind} {info : Nat} {op : Byte}
    (hexec : exec i s = .next (raiseErr e info op u)) (hu : u.history = s.history) : EndsWithin 1 0 s :=
  .of_exec hrun hexec hu (endsWithin_raiseErr e info op u)

/-! ### From SCAN and TRANSFORM to the end -/

theorem endsWithin_fin (hrun : s.running i) (hp : s.seq.phase = .fin) : EndsWithin 1 0 s :=
  .of_exec hrun (exec_fin hp i) rfl (endsWithin_complete s)

theorem endsWithin_scan (hrun : s.running i) (hs : Scans i s.seq.sub) (hp : s.seq.phase = .scan) :
    EndsWithin 2 0 s := by
  have hexec := exec_scan hs hp
  rcases scanBody_cases (errOpOf i s.seq.sub) s with
    ⟨-, h⟩ | ⟨-, -, h⟩ | ⟨-, -, -, h⟩ | ⟨-, -, -, -, h⟩ | ⟨-, -, -, -, h⟩ <;> rw [h] at hexec
  case inr.inr.inl | inr.inr.inr.inr =>
    exact .of_exec hrun hexec (by simp) (endsWithin_fin (hrun.next hexec (by simp)) rfl)
  all_goals exact (endsWithin_of_raiseErr hrun hexec rfl).mono (by decide) le_rfl

/-- How many core steps follow the body of TRANSFORM in the command `i`: the end, and before it SCAN in RUN. -/
def stepsAfterTransform : Instr → Nat
  | .run => 2
  | _ => 1

/-- How many core steps follow the body of ACQUIRE in the command `i`: the end, and before it TRANSFORM and SCAN in
RUN. -/
def stepsAfterAcquire : Instr → Nat
  | .run => 3
  | _ => 1

theorem endsWithin_afterTransform (ht : Transforms i s.seq.sub) (hrun : (afterTransform i s).running i) :
    EndsWithin (stepsAfterTransform i) 0 (afterTransform i s) := by
  rcases ht with rfl | ⟨rfl, -⟩
  · exact endsWithin_fin hrun rfl
  · exact endsWithin_scan hrun (.inr ⟨rfl, rfl⟩) rfl

theorem endsWithin_fft (hrun : s.running i) (ht : Transforms i s.seq.sub) (hp : s.seq.phase = .fft) :
    EndsWithin (stepsAfterTransform i + 1) 0 s := by
  have hexec := exec_transform ht hp
  rcases transformBody_cases (afterTransform i) (errOpOf i s.seq.sub) s with ⟨-, h⟩ | ⟨-, h⟩ <;> rw [h] at hexec
  · exact (endsWithin_of_raiseErr hrun hexec rfl).mono (Nat.le_add_left 1 _) le_rfl
  · exact .of_exec hrun hexec (by simp) (endsWithin_afterTransform (by simpa using ht) (hrun.next hexec (by simp)))

theorem endsWithin_afterAcquire (ha : Acquires i s.seq.sub) (hrun : (afterAcquire i s).running i) :
    EndsWithin (stepsAfterAcquire i) 0 (afterAcquire i s) := by
  rcases ha with rfl | ⟨rfl, -⟩
  · exact endsWithin_fin hrun rfl
  · exact endsWithin_fft hrun (.inr ⟨rfl, rfl⟩) rfl

end

/-! ### A sample -/

/-- The command `i` reads or uses the sample `k` on the latched set `l`, in the phase `p`. -/
structure AtSample (i : Instr) (l : Latched) (k : Nat) (p : Phase) (s : State) : Prop where
  reading : s.reading i
  latched : s.latched = l
  index : s.seq.i = k
  phase : s.seq.phase = p

/-- The phase in which a sample that has been read is used (40_sample_reader R118, 41_bias_acquire R137). -/
def phaseAfterSample (i : Instr) : Phase := if i = .readSample then .fin else .store

section
variable {i : Instr} {l : Latched} {k n m : Nat} {s t : State}

/-- A step that stays in the command and in its sub-operation leaves the command reading samples. -/
theorem AtSample.next {k' : Nat} {p p' : Phase} (h : AtSample i l k p s) (hexec : exec i s = .next t)
    (hseq : t.seq.op = s.seq.op ∧ t.seq.sub = s.seq.sub) (hindex : t.seq.i = k') (hphase : t.seq.phase = p') :
    AtSample i l k' p' t := by
  obtain ⟨hop, hsub⟩ := hseq
  obtain ⟨hreset, henv, hop⟩ := h.reading.running.next hexec hop
  obtain ⟨⟨-, -, -, hlatched, -⟩, -⟩ := (coreStepTo_of_exec hexec).frame
  exact ⟨⟨hreset, henv, hop, hsub ▸ h.reading.readsSamples⟩, hlatched.trans h.latched, hindex, hphase⟩

theorem AtSample.acquires {p : Phase} (h : AtSample i l k p s) (hi : i ≠ .readSample) : Acquires i s.seq.sub :=
  h.reading.readsSamples.resolve_left hi

theorem endsWithin_readB0 (h : AtSample i l k .readB0 s)
    (hafter : ∀ t, AtSample i l k (phaseAfterSample i) t → EndsWithin n m t) : EndsWithin (n + 1) (m + 1) s := by
  have hexec := exec_readB0 h.reading.readsSamples h.phase
  have hnext := h.next (p' := phaseAfterSample i) hexec (by simp) (by simpa using h.index) rfl
  exact .of_exec_busRead h.reading.running hexec (readB0Step_history s) (hafter _ hnext)

theorem endsWithin_readB1 (h : AtSample i l k .readB1 s)
    (hafter : ∀ t, AtSample i l k (phaseAfterSample i) t → EndsWithin n m t) : EndsWithin (n + 2) (m + 2) s := by
  have hexec := exec_readB1 h.reading.readsSamples h.phase
  have hnext := h.next (p' := .readB0) hexec (by simp) (by simpa using h.index) (by simp)
  exact .of_exec_busRead h.reading.running hexec (readB1Step_history s) (endsWithin_readB0 hnext hafter)

theorem endsWithin_readB2 (h : AtSample i l k .readB2 s)
    (hafter : ∀ t, AtSample i l k (phaseAfterSample i) t → EndsWithin n m t) : EndsWithin (n + 3) (m + 3) s := by
  have hexec := exec_readB2 h.reading.readsSamples h.phase
  have hnext := h.next (p' := .readB1) hexec (by simp) (by simpa using h.index) (by simp)
  exact .of_exec_busRead h.reading.running hexec (readB2Step_history s) (endsWithin_readB1 hnext hafter)

/-- The poll loop, with `left` polls left, ends with a ready poll or with a timeout (40_sample_reader R110 to R113). -/
theorem endsWithin_poll {left : Nat} (h : AtSample i l k .poll s) (hleft : s.seq.polls + left = l.p.toNat)
    (hafter : ∀ t, AtSample i l k (phaseAfterSample i) t → EndsWithin n m t) :
    EndsWithin (n + 3 + left) (m + 3 + left) s := by
  have hreads := h.reading.readsSamples
  have hlatched := h.latched
  induction left generalizing s with
  | zero =>
    have hexec := exec_poll hreads h.phase
    rw [pollStep_spent (by rw [hlatched]; omega)] at hexec
    exact (endsWithin_of_raiseErr h.reading.running hexec rfl).mono (by omega) (Nat.zero_le _)
  | succ left ih =>
    have hexec := exec_pollOnce hreads h.phase (by rw [hlatched]; omega)
    have hnext {p' : Phase} (hphase : (pollOnce s).seq.phase = p') : AtSample i l k p' (pollOnce s) :=
      h.next hexec (by simp) (by simpa using h.index) hphase
    refine .of_exec_busRead (n := n + 3 + left) (m := m + 3 + left) h.reading.running hexec (pollOnce_history s) ?_
    by_cases hready : sampleReady s.latched s.adcAnswer = true
    · exact (endsWithin_readB2 (hnext (by simp [hready])) hafter).mono (by omega) (by omega)
    · exact ih (hnext (by simp [hready])) (by simpa using by omega) (by simpa using hreads) (by simpa using hlatched)

/-! ### The samples of ACQUIRE -/

/-- The use of the last sample leaves the body of ACQUIRE. -/
theorem endsWithin_store_last (hi : i ≠ .readSample) (h : AtSample i l k .store s) (hlast : k + 1 = l.s.toNat) :
    EndsWithin (stepsAfterAcquire i + 1) 0 s := by
  have hexec := exec_store (h.acquires hi) h.phase
  rcases acquireStore_cases (afterAcquire i) s with ⟨-, heq⟩ | ⟨hmore, -⟩
  · rw [heq] at hexec
    have hrun := h.reading.running.next hexec (by simp)
    exact .of_exec h.reading.running hexec (by simp) (endsWithin_afterAcquire (h.acquires hi) hrun)
  · exact absurd hlast (by rwa [h.index, h.latched] at hmore)

/-- The use of any other sample goes on to the next one. -/
theorem endsWithin_store_more (hi : i ≠ .readSample) (h : AtSample i l k .store s) (hmore : k + 1 ≠ l.s.toNat)
    (hafter : ∀ t, AtSample i l (k + 1) .poll t → t.seq.polls = 0 → EndsWithin n m t) : EndsWithin (n + 1) m s := by
  have hexec := exec_store (h.acquires hi) h.phase
  rcases acquireStore_cases (afterAcquire i) s with ⟨hlast, -⟩ | ⟨-, heq⟩
  · exact absurd (by rwa [h.index, h.latched] at hlast) hmore
  · rw [heq] at hexec
    have hnext := h.next (k' := k + 1) (p' := .poll) hexec (by simp) (by simp [h.index]) rfl
    exact .of_exec h.reading.running hexec (useSample_history s) (hafter _ hnext rfl)

/-- From the poll loop of a sample of ACQUIRE, with `left` samples to come after it. -/
theorem endsWithin_samples (hi : i ≠ .readSample) {left : Nat} (h : AtSample i l k .poll s) (hpolls : s.seq.polls = 0)
    (hleft : k + left + 1 = l.s.toNat) :
    EndsWithin ((left + 1) * (l.p.toNat + 4) + stepsAfterAcquire i) ((left + 1) * (l.p.toNat + 3)) s := by
  have hafter : phaseAfterSample i = .store := if_neg hi
  induction left generalizing k s with
  | zero =>
    have hends := endsWithin_poll (left := l.p.toNat) h (by omega) fun t ht =>
      endsWithin_store_last hi (hafter ▸ ht) hleft
    exact hends.mono (le_of_eq (by ring)) (le_of_eq (by ring))
  | succ left ih =>
    have hends := endsWithin_poll (left := l.p.toNat) h (by omega) fun t ht =>
      endsWithin_store_more hi (hafter ▸ ht) (by omega) fun u hu hzero => ih hu hzero (by omega)
    exact hends.mono (le_of_eq (by ring)) (le_of_eq (by ring))

/-- From the checks of ACQUIRE. -/
theorem endsWithin_init (hrun : s.running i) (ha : Acquires i s.seq.sub) (hp : s.seq.phase = .init) :
    EndsWithin (s.latched.s.toNat * (s.latched.p.toNat + 4) + stepsAfterAcquire i + 1)
      (s.latched.s.toNat * (s.latched.p.toNat + 3)) s := by
  have hexec := exec_init ha hp
  rcases acquireInit_cases (afterAcquire i) (errOpOf i s.seq.sub) s with
    ⟨-, h⟩ | ⟨-, -, h⟩ | ⟨-, -, h0, h⟩ | ⟨-, -, h0, h⟩ <;> rw [h] at hexec
  · exact (endsWithin_of_raiseErr hrun hexec rfl).mono (Nat.le_add_left 1 _) (Nat.zero_le _)
  · exact (endsWithin_of_raiseErr hrun hexec rfl).mono (Nat.le_add_left 1 _) (Nat.zero_le _)
  · have hend := endsWithin_afterAcquire (s := acquireClear s) (by simpa using ha) (hrun.next hexec (by simp))
    exact (EndsWithin.of_exec hrun hexec (by simp) hend).mono (by omega) (Nat.zero_le _)
  · obtain ⟨left, hleft⟩ := Nat.exists_eq_succ_of_ne_zero h0
    obtain ⟨hreset, henv, hop⟩ := hrun.next hexec (by simp)
    have hfirst : AtSample i s.latched 0 .poll (startSample 0 (acquireClear s)) :=
      ⟨⟨hreset, henv, hop, by simpa using readsSamples_of_acquires ha⟩, by simp, rfl, rfl⟩
    rw [hleft]
    exact .of_exec hrun hexec (by simp) (endsWithin_samples (Acquires.ne_readSample ha) hfirst rfl (by omega))

end

/-- Settles O54: each command has the bounds of its first phase. -/
theorem commandsTerminate : Obligations.CommandsTerminate := by
  intro i s hacc
  obtain ⟨hreset, henv, hop, hsub, -, hpolls, hp⟩ := hacc
  have hrun : s.running i := ⟨hreset, henv, hop⟩
  change EndsWithin _ _ s
  cases i with
  | nop => exact .of_exec hrun rfl rfl (endsWithin_complete s)
  | readSample =>
    have hfirst : AtSample .readSample s.latched s.seq.i .poll s := ⟨⟨hreset, henv, hop, .inl rfl⟩, rfl, rfl, hp⟩
    have hends := endsWithin_poll (left := s.latched.p.toNat) hfirst (by omega) fun t ht =>
      endsWithin_fin ht.reading.running ht.phase
    exact hends.mono (by dsimp only; omega) (by dsimp only; omega)
  | acquire => exact (endsWithin_init hrun (.inl rfl) hp).mono (by simp [stepsAfterAcquire]) le_rfl
  | transform => exact endsWithin_fft hrun (.inl rfl) hp
  | scan => exact endsWithin_scan hrun (.inl rfl) hp
  | run => exact endsWithin_init hrun (.inr ⟨rfl, hsub⟩) hp

end Sys2Proof.Machine
